-- ==== Sys2Proof/Word.lean ====
section
/-! DEFINITION. The machine's word types (spec/00_scope.md R8). A word is 15 bits; A, L and Q hold
16; addresses and the program counter are 12. -/

namespace Sys2Proof

/-- A machine word: one memory cell, one channel, one instruction word (R8, "W15"). -/
abbrev W15 := BitVec 15

/-- A register value that carries overflow: A, L, Q (R8, "W16"). -/
abbrev W16 := BitVec 16

/-- A memory address, and the program counter (R8, "W12"). -/
abbrev W12 := BitVec 12

/-- A 10-bit erasable address field `K10` (spec/30_encoding.md R101). -/
abbrev W10 := BitVec 10

/-- A 9-bit I/O channel field `K9` (R101). -/
abbrev W9 := BitVec 9

end Sys2Proof
end

