-- ==== Sys2Proof/Syntax.lean ====
section
/-! DEFINITION. The instructions: one constructor for each mnemonic of spec/opcode_table.json, 41
decoder tags (spec/30_encoding.md R103) and RESUME (R108). A constructor carries the address field
that its tag uses (R110): `k12`, `k10` or the channel number `k9`. -/

namespace Sys2Proof

inductive Instr where
  /-- XXALQ, basic mode (R191). -/
  | xxalq
  /-- XLQ, basic mode (R192). -/
  | xlq
  /-- RETURN, basic mode (R193). -/
  | ret
  /-- RELINT, basic mode (R210). -/
  | relint
  /-- INHINT, basic mode (R211). -/
  | inhint
  /-- EXTEND, basic mode (R212). -/
  | extend
  /-- RESUME, basic mode (R214). -/
  | resume
  /-- TC, basic mode (R190). -/
  | tc (k12 : W12)
  /-- CCS, basic mode (R195). -/
  | ccs (k10 : W10)
  /-- TCF, basic mode (R194). -/
  | tcf (k12 : W12)
  /-- DAS, basic mode (R263). -/
  | das (k10 : W10)
  /-- LXCH, basic mode (R237). -/
  | lxch (k10 : W10)
  /-- INCR, basic mode (R262). -/
  | incr (k10 : W10)
  /-- ADS, basic mode (R261). -/
  | ads (k10 : W10)
  /-- CA, basic mode (R230). -/
  | ca (k12 : W12)
  /-- CS, basic mode (R231). -/
  | cs (k12 : W12)
  /-- INDEX, basic mode (R213). -/
  | index (k10 : W10)
  /-- DXCH, basic mode (R239). -/
  | dxch (k10 : W10)
  /-- TS, basic mode (R234). -/
  | ts (k10 : W10)
  /-- XCH, basic mode (R235). -/
  | xch (k10 : W10)
  /-- AD, basic mode (R260). -/
  | ad (k12 : W12)
  /-- MASK, basic mode (R264). -/
  | mask (k12 : W12)
  /-- READ, extracode mode (R311). -/
  | read (k9 : W9)
  /-- WRITE, extracode mode (R312). -/
  | write (k9 : W9)
  /-- RAND, extracode mode (R313). -/
  | rand (k9 : W9)
  /-- WAND, extracode mode (R314). -/
  | wand (k9 : W9)
  /-- ROR, extracode mode (R315). -/
  | ror (k9 : W9)
  /-- WOR, extracode mode (R316). -/
  | wor (k9 : W9)
  /-- RXOR, extracode mode (R317). -/
  | rxor (k9 : W9)
  /-- EDRUPT, extracode mode (R216). -/
  | edrupt (k9 : W9)
  /-- DV, extracode mode (R290). -/
  | dv (k10 : W10)
  /-- BZF, extracode mode (R196). -/
  | bzf (k12 : W12)
  /-- MSU, extracode mode (R265). -/
  | msu (k10 : W10)
  /-- QXCH, extracode mode (R238). -/
  | qxch (k10 : W10)
  /-- AUG, extracode mode (R268). -/
  | aug (k10 : W10)
  /-- DIM, extracode mode (R269). -/
  | dim (k10 : W10)
  /-- DCA, extracode mode (R232). -/
  | dca (k12 : W12)
  /-- DCS, extracode mode (R233). -/
  | dcs (k12 : W12)
  /-- INDEX_2, extracode mode (R215). -/
  | indexTwo (k12 : W12)
  /-- SU, extracode mode (R270). -/
  | su (k10 : W10)
  /-- BZMF, extracode mode (R197). -/
  | bzmf (k12 : W12)
  /-- MP, extracode mode (R266). -/
  | mp (k12 : W12)
  deriving DecidableEq, Repr

end Sys2Proof
end

