-- ==== Sys2Proof/WellFormed.lean ====
section
/-! DEFINITION. Which instruction terms are instructions of the machine: the address fields that
another row of the opcode table takes for itself are excluded (spec/30_encoding.md R104, R105, R107,
R108). -/

namespace Sys2Proof

/-- The six whole words of basic mode that have a tag of their own (R104). -/
def literalWords : List Nat := [0, 1, 2, 3, 4, 6]

/-- A 12-bit target with `K12[11:10] != 0`: format F12Q (R102), an address from 02000 up. -/
def fixedTarget (k12 : W12) : Bool := 0o2000 ≤ k12.toNat

/-- Well-formed instructions: TC does not name a literal word (R104), TCF, BZF and BZMF name a fixed
address (R102), INDEX does not name BRUPT, whose word is RESUME (R108). Every other address field is
free. -/
def Instr.wellFormed : Instr → Bool
  | .tc k12 => !literalWords.contains k12.toNat
  | .tcf k12 => fixedTarget k12
  | .bzf k12 => fixedTarget k12
  | .bzmf k12 => fixedTarget k12
  | .index k10 => k10.toNat != 0o17
  | .xxalq | .xlq | .ret | .relint | .inhint | .extend | .resume => true
  | .ccs _ | .das _ | .lxch _ | .incr _ | .ads _ | .ca _ | .cs _ | .dxch _ | .ts _ | .xch _ => true
  | .ad _ | .mask _ | .read _ | .write _ | .rand _ | .wand _ | .ror _ | .wor _ | .rxor _ => true
  | .edrupt _ | .dv _ | .msu _ | .qxch _ | .aug _ | .dim _ | .dca _ | .dcs _ => true
  | .indexTwo _ | .su _ | .mp _ => true

end Sys2Proof
end

