-- ==== Sys2Proof/Decode.lean ====
section
/-! DEFINITION. The decoder (spec/30_encoding.md R100 to R109), total on every word in both modes,
and the encoder, written from the same tables. -/

namespace Sys2Proof

/-! ## The fields of an instruction word (R101) -/

/-- `code = IW[14:12]`. -/
def codeOf (w : W15) : BitVec 3 := w.extractLsb' 12 3

/-- `qc = IW[11:10]`. -/
def qcOf (w : W15) : BitVec 2 := w.extractLsb' 10 2

/-- `pc = IW[11:9]`. -/
def pcOf (w : W15) : BitVec 3 := w.extractLsb' 9 3

/-- `K12 = IW[11:0]`. -/
def k12Of (w : W15) : W12 := w.extractLsb' 0 12

/-- `K10 = IW[9:0]`. -/
def k10Of (w : W15) : W10 := w.extractLsb' 0 10

/-- `K9 = IW[8:0]`. -/
def k9Of (w : W15) : W9 := w.extractLsb' 0 9

/-! ## The decode tree -/

/-- Basic mode, `code = 0` (R104): the six literal words, and TC for every other word. -/
def decodeTransfer (w : W15) : Instr :=
  match w.toNat with
  | 0 => .xxalq
  | 1 => .xlq
  | 2 => .ret
  | 3 => .relint
  | 4 => .inhint
  | 6 => .extend
  | _ => .tc (k12Of w)

/-- Basic mode, `code = 5`, `qc = 0` (R105): INDEX, but for the word 050017, which is RESUME (R108). -/
def decodeIndex (w : W15) : Instr :=
  if (k10Of w).toNat = 0o17 then .resume else .index (k10Of w)

/-- Basic mode (R104 to R106). -/
def decodeBasic (w : W15) : Instr :=
  match (codeOf w).toNat with
  | 0 => decodeTransfer w
  | 1 => if (qcOf w).toNat = 0 then .ccs (k10Of w) else .tcf (k12Of w)
  | 2 =>
    match (qcOf w).toNat with
    | 0 => .das (k10Of w)
    | 1 => .lxch (k10Of w)
    | 2 => .incr (k10Of w)
    | _ => .ads (k10Of w)
  | 3 => .ca (k12Of w)
  | 4 => .cs (k12Of w)
  | 5 =>
    match (qcOf w).toNat with
    | 0 => decodeIndex w
    | 1 => .dxch (k10Of w)
    | 2 => .ts (k10Of w)
    | _ => .xch (k10Of w)
  | 6 => .ad (k12Of w)
  | _ => .mask (k12Of w)

/-- Extracode mode, `code = 0`: the peripheral code selects (R107). -/
def decodePeripheral (w : W15) : Instr :=
  match (pcOf w).toNat with
  | 0 => .read (k9Of w)
  | 1 => .write (k9Of w)
  | 2 => .rand (k9Of w)
  | 3 => .wand (k9Of w)
  | 4 => .ror (k9Of w)
  | 5 => .wor (k9Of w)
  | 6 => .rxor (k9Of w)
  | _ => .edrupt (k9Of w)

/-- Extracode mode (R107). -/
def decodeExtracode (w : W15) : Instr :=
  match (codeOf w).toNat with
  | 0 => decodePeripheral w
  | 1 => if (qcOf w).toNat = 0 then .dv (k10Of w) else .bzf (k12Of w)
  | 2 =>
    match (qcOf w).toNat with
    | 0 => .msu (k10Of w)
    | 1 => .qxch (k10Of w)
    | 2 => .aug (k10Of w)
    | _ => .dim (k10Of w)
  | 3 => .dca (k12Of w)
  | 4 => .dcs (k12Of w)
  | 5 => .indexTwo (k12Of w)
  | 6 => if (qcOf w).toNat = 0 then .su (k10Of w) else .bzmf (k12Of w)
  | _ => .mp (k12Of w)

/-- `Decode(IW, extracode)` (R103): total, no word is refused (R109). RESUME is the machine's INDEX
017 (R108) under its own name (DEDUCED, safe: log 7). -/
def decode (extracode : Bool) (w : W15) : Instr :=
  if extracode then decodeExtracode w else decodeBasic w

/-! ## The encoder -/

/-- The mode in which an instruction's word stands for it (R103). -/
def Instr.isExtracode : Instr → Bool
  | .xxalq | .xlq | .ret | .relint | .inhint | .extend | .resume => false
  | .tc _ | .ccs _ | .tcf _ | .das _ | .lxch _ | .incr _ | .ads _ | .ca _ | .cs _ => false
  | .index _ | .dxch _ | .ts _ | .xch _ | .ad _ | .mask _ => false
  | .read _ | .write _ | .rand _ | .wand _ | .ror _ | .wor _ | .rxor _ | .edrupt _ => true
  | .dv _ | .bzf _ | .msu _ | .qxch _ | .aug _ | .dim _ | .dca _ | .dcs _ => true
  | .indexTwo _ | .su _ | .bzmf _ | .mp _ => true

/-- Formats F12 and F12Q (R102): three bits of code, twelve of address. -/
def wordF12 (code : BitVec 3) (k12 : W12) : W15 := code ++ k12

/-- Format F10 (R102): three bits of code, two of quarter code, ten of address. -/
def wordF10 (code : BitVec 3) (qc : BitVec 2) (k10 : W10) : W15 := code ++ qc ++ k10

/-- Format F9 (R102): code 0, three bits of peripheral code, nine of channel. -/
def wordF9 (pc : BitVec 3) (k9 : W9) : W15 := (0#3 ++ pc) ++ k9

/-- The word of an instruction (R104 to R108). -/
def encode : Instr → W15
  | .xxalq => 0o000000#15
  | .xlq => 0o000001#15
  | .ret => 0o000002#15
  | .relint => 0o000003#15
  | .inhint => 0o000004#15
  | .extend => 0o000006#15
  | .resume => 0o050017#15
  | .tc k12 => wordF12 0#3 k12
  | .ccs k10 => wordF10 1#3 0#2 k10
  | .tcf k12 => wordF12 1#3 k12
  | .das k10 => wordF10 2#3 0#2 k10
  | .lxch k10 => wordF10 2#3 1#2 k10
  | .incr k10 => wordF10 2#3 2#2 k10
  | .ads k10 => wordF10 2#3 3#2 k10
  | .ca k12 => wordF12 3#3 k12
  | .cs k12 => wordF12 4#3 k12
  | .index k10 => wordF10 5#3 0#2 k10
  | .dxch k10 => wordF10 5#3 1#2 k10
  | .ts k10 => wordF10 5#3 2#2 k10
  | .xch k10 => wordF10 5#3 3#2 k10
  | .ad k12 => wordF12 6#3 k12
  | .mask k12 => wordF12 7#3 k12
  | .read k9 => wordF9 0#3 k9
  | .write k9 => wordF9 1#3 k9
  | .rand k9 => wordF9 2#3 k9
  | .wand k9 => wordF9 3#3 k9
  | .ror k9 => wordF9 4#3 k9
  | .wor k9 => wordF9 5#3 k9
  | .rxor k9 => wordF9 6#3 k9
  | .edrupt k9 => wordF9 7#3 k9
  | .dv k10 => wordF10 1#3 0#2 k10
  | .bzf k12 => wordF12 1#3 k12
  | .msu k10 => wordF10 2#3 0#2 k10
  | .qxch k10 => wordF10 2#3 1#2 k10
  | .aug k10 => wordF10 2#3 2#2 k10
  | .dim k10 => wordF10 2#3 3#2 k10
  | .dca k12 => wordF12 3#3 k12
  | .dcs k12 => wordF12 4#3 k12
  | .indexTwo k12 => wordF12 5#3 k12
  | .su k10 => wordF10 6#3 0#2 k10
  | .bzmf k12 => wordF12 6#3 k12
  | .mp k12 => wordF12 7#3 k12

/-! ## Words as the opcode table numbers them -/

/-- The mode and the word that an opcode-table number stands for (DESIGN CHOICE, safe: log 5). The
table's words are 15 bits and its column "extracode" is no bit of the word. A number below 2^15 is a
basic-mode word; bit 15, which no word has, is read as the column "extracode"; and a number of two
16-bit words whose first is EXTEND (000006) is the extracode word that its second word is. Any other
number stands for no instruction. -/
def tableWord (nbits w : Nat) : Option (Bool × W15) :=
  if w < 2 ^ 15 then some (false, BitVec.ofNat 15 w)
  else if w < 2 ^ 16 then some (true, BitVec.ofNat 15 (w - 2 ^ 15))
  else if 16 < nbits ∧ w % 2 ^ 16 = 0o000006 ∧ w / 2 ^ 16 < 2 ^ 15 then
    some (true, BitVec.ofNat 15 (w / 2 ^ 16))
  else none

/-- The instruction the decoder reads from an opcode-table number. -/
def decodeTableWord (nbits w : Nat) : Option Instr :=
  match tableWord nbits w with
  | some (extracode, word) => some (decode extracode word)
  | none => none

end Sys2Proof
end

