-- ==== Sys2Proof/Config.lean ====
section
/-! DEFINITION. The parameters of an implementation (spec/00_scope.md R7;
spec/93_implementation_defined.md section 3). The values the spec takes as defaults stand in
Sys2Proof/Machine/Parameters.lean. -/

namespace Sys2Proof

/-- The rows of R7 that are marked *parameter*, and `RESET_INT_ENABLED`. -/
structure Config where
  /-- `SCALER_INCREMENT`: what each Step adds to the scaler counter. -/
  scalerIncrement : Nat
  /-- `SCALER_THRESHOLD`: one timer pass for each such amount of the scaler counter. -/
  scalerThreshold : Nat
  /-- `SCALER_LO_MODULUS`: where channel 04 returns to 0 and carries into channel 03. -/
  scalerLoModulus : Nat
  /-- `PHASE_MASK`: the bits of channel 04 that give the phase. -/
  phaseMask : W15
  /-- `PHASE_T1T3`: the phase in which TIME1 and TIME3 count. -/
  phaseT1T3 : W15
  /-- `PHASE_T5`: the phase in which TIME5 counts. -/
  phaseT5 : W15
  /-- `PHASE_T4`: the phase in which TIME4 counts. -/
  phaseT4 : W15
  /-- `DOWNRUPT_DELAY`: from the second downlink write to the request. -/
  downruptDelay : Nat
  /-- `WF_PERIOD_MASK`: the warning filter is updated where these bits of channel 04 are 0. -/
  wfPeriodMask : W15
  /-- `WF_CHARGE`. -/
  wfCharge : Nat
  /-- `WF_DISCHARGE`. -/
  wfDischarge : Nat
  /-- `WF_MAX`. -/
  wfMax : Nat
  /-- `BRANCH_FALLTHROUGH_DELAY`: the extra delay of a BZF or BZMF that does not branch. -/
  branchFallthroughDelay : Nat
  /-- `MCT[tag]`: the cycle count of each instruction. -/
  mct : Instr → Nat
  /-- `IO_RESET[ch]`: what a channel holds at reset. -/
  ioReset : Nat → W15
  /-- `RESET_INT_ENABLED`: the one parameter for which the spec has no default (R392). -/
  resetIntEnabled : Bool

end Sys2Proof
end

