-- ==== Sys2Proof/Machine/Parameters.lean ====
section
/-! DEFINITION. The values of the parameters: the defaults of spec/00_scope.md R7. UNVERIFIED,
unsafe (log 3): the spec takes most of them from general knowledge. -/

namespace Sys2Proof

/-- `MCT(tag)` (spec/30_encoding.md R115). RESUME is the machine's INDEX (R108). The entry of EDRUPT
is never charged (spec/60_exceptions.md R339). -/
def mctTable : Instr → Nat
  | .tc _ | .xxalq | .xlq | .ret | .relint | .inhint | .extend | .tcf _ | .bzf _ | .bzmf _ => 1
  | .ccs _ | .lxch _ | .incr _ | .ads _ | .ca _ | .cs _ | .index _ | .resume | .ts _ | .xch _ => 2
  | .ad _ | .mask _ | .read _ | .write _ | .rand _ | .wand _ | .ror _ | .wor _ | .rxor _ => 2
  | .msu _ | .qxch _ | .aug _ | .dim _ | .indexTwo _ | .su _ => 2
  | .das _ | .dxch _ | .dca _ | .dcs _ | .mp _ | .edrupt _ => 3
  | .dv _ => 6

/-- `IO_RESET[ch]` (spec/10_state.md R37). -/
def ioResetTable (ch : Nat) : W15 :=
  if ch = 0o30 then 0o37777#15
  else if ch = 0o31 ∨ ch = 0o32 ∨ ch = 0o33 then 0o77777#15
  else 0#15

/-- The configuration of the model: the defaults of R7, and for `RESET_INT_ENABLED`, which R392
leaves open, 0 (DESIGN CHOICE, unsafe: log 2). -/
def config : Config where
  scalerIncrement := 3
  scalerThreshold := 80
  scalerLoModulus := 0o100000
  phaseMask := 0o37#15
  phaseT1T3 := 0o00#15
  phaseT5 := 0o20#15
  phaseT4 := 0o30#15
  downruptDelay := 1706
  wfPeriodMask := 0o7#15
  wfCharge := 15000
  wfDischarge := 15
  wfMax := 140000
  branchFallthroughDelay := 1
  mct := mctTable
  ioReset := ioResetTable
  resetIntEnabled := false

end Sys2Proof
end

