-- ==== Sys2Proof/Machine/State.lean ====
section
/-! DEFINITION. The state of the machine (spec/10_state.md R20 to R52), the reasons a transition can
stop, and the state at reset (spec/70_reset_and_hazards.md R390). -/

namespace Sys2Proof.Machine

/-- Cells by number: the ram, the rom and the channel array. A cell that is not listed reads as the
store's reset content; numbers rise strictly and no entry equals that content (`Memory.wf` in
Sys2Proof/Machine/Ops.lean). The unit is the machine's word, which has no bytes (spec/20_memory.md
R76; DEDUCED, safe: log 1). -/
abbrev Memory := List (Nat × W15)

/-- Where an address of memory leads (spec/20_memory.md R61): a register, or a cell of a bank. -/
inductive Place where
  /-- `reg[n]`. -/
  | reg (n : Nat)
  /-- `ram[bank][offset]`. -/
  | ram (bank : BitVec 3) (offset : BitVec 8)
  /-- `rom[bank][offset]`. -/
  | rom (bank : Nat) (offset : W10)
  deriving DecidableEq, Repr

/-- Everything the spec gives the machine, and nothing else (spec/10_state.md, opening paragraph). -/
structure State where
  /-- A, `reg[00]` (R22). -/
  a : W16
  /-- L, `reg[01]` and I/O channel 01 (R23). -/
  l : W16
  /-- Q, `reg[02]` and I/O channel 02 (R24). -/
  q : W16
  /-- EB, `reg[03]`; the bank number is bits 10:8 (R25). -/
  eb : W15
  /-- FB, `reg[04]`; the bank number is bits 14:10 (R26). -/
  fb : W15
  /-- Z, `reg[05]`, the program counter (R28). -/
  z : W12
  /-- BB, `reg[06]`, EB and FB combined (R27). -/
  bb : W15
  /-- `reg[010]` to `reg[060]`, index 0 being `reg[010]` (R30 to R34). `reg[07]` has no storage (R29). -/
  file : Vector W15 41
  /-- Erasable memory; `ram[b][o]` is cell `b * 0400 + o` (R35). -/
  ram : Memory
  /-- Fixed memory; `rom[b][o]` is cell `b * 02000 + o` (R36). -/
  rom : Memory
  /-- The I/O channel array (R37). -/
  chan : Memory
  /-- `pend_flag`: a multi-cycle instruction has been charged and has not executed (R38). -/
  pendFlag : Bool
  /-- `pend_delay` (R39). -/
  pendDelay : Nat
  /-- `extra_delay` (R40). -/
  extraDelay : Nat
  /-- `index_value` (R41). -/
  indexValue : W15
  /-- `substitute`: the next instruction word is BRUPT (R42). -/
  substitute : Bool
  /-- `extracode`: the next word decodes in extracode mode (R43). -/
  extracode : Bool
  /-- `int_enabled` (R44). -/
  intEnabled : Bool
  /-- `in_isr` (R45). -/
  inIsr : Bool
  /-- `irq[1..10]`, index 0 being slot 1 (R46). -/
  irq : Vector Bool 10
  /-- `irq[0]`, the slot vectored last (R46). -/
  irqLast : Nat
  /-- `cycle_counter` (R47). -/
  cycleCounter : Nat
  /-- `scaler_counter` (R48). -/
  scalerCounter : Nat
  /-- `warning_filter` (R49). -/
  warningFilter : Nat
  /-- `warning_generated` (R49). -/
  warningGenerated : Bool
  /-- `downlink_latch` (R50). -/
  downlinkLatch : BitVec 2
  /-- `downrupt_armed` (R50). -/
  downruptArmed : Bool
  /-- `downrupt_time` (R50). -/
  downruptTime : Nat
  /-- `ready`: the program image has been loaded (R52). -/
  ready : Bool
  deriving DecidableEq, Repr

/-- The faults of the machine: there are none. It has no synchronous exception of any kind
(spec/60_exceptions.md R330), so nothing raises a fault; safe (log 12). -/
inductive Fault where
  deriving DecidableEq, Repr

/-- Why the model gives no next state. All but the first are the spec's own `refuse`
(spec/93_implementation_defined.md F1 to F8); safe, since nothing can be proved of a next state that
is not given (log 9). -/
inductive Refusal where
  /-- An instruction that has no meaning in the model. Raised by no arm of `exec`. Safe. -/
  | notModelled (mnemonic : String)
  /-- DCA with address field 0 (R232, F1). Raised by `execDca`. Safe. -/
  | dcaFieldZero
  /-- DCS with address field 0 (R233, F2). Raised by `execDcs`. Safe. -/
  | dcsFieldZero
  /-- DXCH with address field 0 (R239, F3). Raised by `execDxch`. Safe. -/
  | dxchFieldZero
  /-- DAS with address field 0 (R263, F4). Raised by `execDas`. Safe. -/
  | dasFieldZero
  /-- DV with the divisor in A or L (R290, F5). Raised by `execDv`. Safe. -/
  | dvDivisorInDividend
  /-- `Step` while `ready = 0` (R394, F6). Raised by `planStep`. Safe. -/
  | stepBeforeLoad
  /-- A second image load (R75, F7). Raised by `loadImage`. Safe. -/
  | imageAlreadyLoaded
  /-- A host memory address above 07777 (R73, F8). Raised by `hostReadMemory` and
  `hostWriteMemory`. Safe. -/
  | hostAddressOutOfRange
  deriving DecidableEq, Repr

/-- The reset state for a given `RESET_INT_ENABLED` (R390, R392): the state of a newly constructed
instance, before the image is loaded. -/
def State.resetWith (intEnabled : Bool) : State where
  a := 0#16
  l := 0#16
  q := 0#16
  eb := 0#15
  fb := 0#15
  z := 0o4000#12
  bb := 0#15
  file := Vector.replicate 41 0#15
  ram := []
  rom := []
  chan := []
  pendFlag := false
  pendDelay := 0
  extraDelay := 0
  indexValue := 0#15
  substitute := false
  extracode := false
  intEnabled := intEnabled
  inIsr := false
  irq := Vector.replicate 10 false
  irqLast := 0
  cycleCounter := 0
  scalerCounter := 0
  warningFilter := 0
  warningGenerated := false
  downlinkLatch := 0#2
  downruptArmed := false
  downruptTime := 0
  ready := false

/-- The machine right after reset (R390). `RESET_INT_ENABLED`, which R392 leaves open, has the value
`config.resetIntEnabled` (DESIGN CHOICE, unsafe: log 2). -/
def State.reset : State := State.resetWith config.resetIntEnabled

end Sys2Proof.Machine
end

