-- ==== Sys2Proof/Machine/Arith.lean ====
section
/-! DEFINITION. The arithmetic primitives (spec/40_arithmetic_primitives.md R129 to R145): one's
complement on 15 bits, with overflow held in bits 15:14 of a 16-bit value. -/

namespace Sys2Proof.Machine

/-- `SE(v)`: the sign is copied into bit 15 (R130). -/
def signExtend (v : W15) : W16 :=
  v.setWidth 16 ||| ((v.setWidth 16 <<< 1) &&& 0o100000#16)

/-- `OC(v)`: the 14 magnitude bits and the sign from bit 15; bit 14 is dropped (R131). -/
def overflowCorrect (v : W16) : W15 :=
  ((v &&& 0o37777#16) ||| ((v >>> 1) &&& 0o40000#16)).setWidth 15

/-- `Add16(a, b)`: one's-complement addition with end-around carry (R133). -/
def add16 (a b : W16) : W16 :=
  let sum := a.toNat + b.toNat
  if 0o200000 ≤ sum then BitVec.ofNat 16 (sum + 1) else BitVec.ofNat 16 sum

/-- `Neg15(v)` (R136). -/
def negate15 (v : W15) : W15 := v ^^^ 0o77777#15

/-- `Abs15(v)` (R137). -/
def abs15 (v : W15) : W15 := if v &&& 0o40000#15 ≠ 0#15 then ~~~v else v

/-- `DABS(v)`: the diminished absolute value of a word (R138). -/
def dabs (v : W15) : W15 :=
  let m := if v &&& 0o40000#15 ≠ 0#15 then 0o37777#15 &&& ~~~v else v
  if 1 < m.toNat then m - 1#15 else 0#15

/-- `ODABS(v)`: the diminished absolute value of a 16-bit value, the sign being bit 15 (R138). -/
def odabs (v : W16) : W16 :=
  let m := if v &&& 0o100000#16 ≠ 0#16 then ~~~v else v
  if 1 < m.toNat then m - 1#16 else 0#16

/-- `ToInt(v)`: the integer a word stands for; both zeros give 0 (R139). -/
def wordToInt (v : W15) : Int :=
  if v &&& 0o40000#15 ≠ 0#15 then -((0o37777#15 &&& ~~~v).toNat : Int)
  else ((v &&& 0o37777#15).toNat : Int)

/-- `FromInt(n)`: a zero is +0; a value out of range is masked (R140). -/
def intToWord (n : Int) : W15 :=
  if n < 0 then 0o77777#15 &&& ~~~(BitVec.ofInt 15 (-n)) else BitVec.ofInt 15 n

/-- `ToInt30(d)` (R141). -/
def decentToInt (d : BitVec 30) : Int :=
  if d &&& 0o2000000000#30 ≠ 0#30 then -((0o1777777777#30 &&& ~~~d).toNat : Int)
  else ((d &&& 0o1777777777#30).toNat : Int)

/-- `FromInt30(n)`: a 29-bit value with the sign at bit 28 (R141). -/
def intToDecent (n : Int) : BitVec 30 :=
  if n < 0 then 0o3777777777#30 &&& ~~~(0o1777777777#30 &&& BitVec.ofInt 30 (-n))
  else 0o1777777777#30 &&& BitVec.ofInt 30 n

/-- The copy of bit 28 into bit 29 that makes a decent value (R141, R142). -/
def decentSign (d : BitVec 30) : BitVec 30 :=
  if d &&& 0o2000000000#30 ≠ 0#30 then d ||| 0o4000000000#30 else d

/-- `DecentToPair(d)`: the more and the less significant word (R142). -/
def decentToPair (d : BitVec 30) : W15 × W15 :=
  let low : W15 := (d &&& 0o37777#30).setWidth 15
  let lsw := if d &&& 0o4000000000#30 ≠ 0#30 then low ||| 0o40000#15 else low
  let msw := overflowCorrect ((d >>> 14).setWidth 16)
  (msw, lsw)

/-- +0 or -0. -/
def isZero15 (v : W15) : Bool := v == 0#15 || v == 0o77777#15

/-- The sign reconciliation of a pair whose words disagree in sign (R143). -/
def reconcileSigns (msw lsw : W15) : W15 × W15 :=
  if lsw &&& 0o40000#15 ≠ msw &&& 0o40000#15 then
    if isZero15 lsw then
      (msw, if msw &&& 0o40000#15 ≠ 0#15 then 0o77777#15 else 0#15)
    else if msw &&& 0o40000#15 ≠ 0#15 then
      (~~~(~~~msw - 1#15), ~~~(~~~lsw + 0o40000#15 + 1#15))
    else (msw - 1#15, lsw + 0o40000#15 + 1#15)
  else (msw, lsw)

/-- `PairToDecent(msw, lsw)` (R143). -/
def pairToDecent (msw lsw : W15) : BitVec 30 :=
  if isZero15 msw then
    let v := (signExtend lsw).setWidth 30
    if v &&& 0o100000#30 ≠ 0#30 then v ||| 0o7777600000#30 else v
  else
    let p := reconcileSigns msw lsw
    decentSign ((0o3777740000#30 &&& (p.1.setWidth 30 <<< 14)) |||
      (0o37777#30 &&& p.2.setWidth 30))

/-- The content of a counter after `PINC`, and whether it reports overflow (R145). -/
def pincWord (v : W15) : W15 × Bool :=
  if v = 0o37777#15 then (0#15, true)
  else if v + 1#15 = 0#15 then (1#15, false)
  else (v + 1#15, false)

end Sys2Proof.Machine
end

