-- ==== Sys2Proof/Machine/Flags.lean ====
section
/-! DEFINITION. The machine has no condition-code register (spec/10_state.md R51). What an
instruction can test is the overflow state of a 16-bit value and the sign and zero-ness of an
operand. -/

namespace Sys2Proof.Machine

/-- `OVF(v)`: 000001 after positive overflow, 077776 after negative overflow, else 0
(spec/40_arithmetic_primitives.md R134). -/
def ovf (v : W16) : W15 :=
  if v &&& 0o140000#16 = 0o040000#16 then 0o00001#15
  else if v &&& 0o140000#16 = 0o100000#16 then 0o77776#15
  else 0#15

/-- "Has overflow" (R134). -/
def hasOverflow (v : W16) : Bool := ovf v != 0#15

/-- A is +0 or -0 on all 16 bits: the condition of BZF (spec/42_control_transfer.md R196). -/
def isZero16 (v : W16) : Bool := v == 0#16 || v == 0o177777#16

/-- A is +0 or its bit 15 is set: the condition of BZMF (R197). -/
def isZeroOrMinus16 (v : W16) : Bool := v == 0#16 || (v &&& 0o100000#16) != 0#16

/-- How many words CCS skips for a 15-bit operand (R195): none for a positive one, 1 for +0, 2 for a
negative one, 3 for -0. -/
def ccsSkipWord (op : W15) : Nat :=
  if op = 0#15 then 1
  else if op = 0o77777#15 then 3
  else if op &&& 0o40000#15 ≠ 0#15 then 2
  else 0

/-- How many words CCS skips for A, L or Q (R195): an overflow decides before the corrected value. -/
def ccsSkipReg (v : W16) : Nat :=
  if ovf v = 0o00001#15 then 0
  else if ovf v = 0o77776#15 then 2
  else ccsSkipWord (overflowCorrect v)

end Sys2Proof.Machine
end

