-- ==== Sys2Proof/Machine/Ops.lean ====
section
/-! DEFINITION. The operations on the state: stores of cells, the register file, the memory map, the
I/O channels, interrupt entry and return, and what every executed instruction does first. -/

namespace Sys2Proof.Machine

/-! ## Stores of cells -/

/-- What cell `n` of a store holds; `content` is what an unlisted cell holds. -/
def Memory.read (content : Nat → W15) : Memory → Nat → W15
  | [], n => content n
  | (k, v) :: rest, n => if k = n then v else Memory.read content rest n

/-- The store without any entry for cell `n`. -/
def Memory.erase : Memory → Nat → Memory
  | [], _ => []
  | (k, w) :: rest, n =>
    if k = n then Memory.erase rest n else (k, w) :: Memory.erase rest n

/-- The store with an entry for cell `n`, before the first entry of a higher cell. -/
def Memory.insert : Memory → Nat → W15 → Memory
  | [], n, v => [(n, v)]
  | (k, w) :: rest, n, v =>
    if k < n then (k, w) :: Memory.insert rest n v else (n, v) :: (k, w) :: rest

/-- Store `v` in cell `n` and keep the canonical form: writing the reset content removes the entry. -/
def Memory.write (content : Nat → W15) (m : Memory) (n : Nat) (v : W15) : Memory :=
  if v = content n then Memory.erase m n else Memory.insert (Memory.erase m n) n v

/-- The canonical form of a store of `size` cells, from cell `low` on. -/
def Memory.wfFrom (content : Nat → W15) (size : Nat) : Nat → Memory → Bool
  | _, [] => true
  | low, (k, v) :: rest =>
    decide (low ≤ k) && decide (k < size) && decide (v ≠ content k) &&
      Memory.wfFrom content size (k + 1) rest

/-- The canonical form of a store: cell numbers below `size`, strictly rising, no entry equal to
what an unlisted cell holds. -/
def Memory.wf (content : Nat → W15) (size : Nat) (m : Memory) : Bool :=
  Memory.wfFrom content size 0 m

/-- What an unlisted cell of ram or rom holds: 0 (spec/70_reset_and_hazards.md R390). -/
def blankCell (_ : Nat) : W15 := 0#15

/-- The number of cells of erasable memory: 8 banks of 0400 (R35). -/
def ramSize : Nat := 0o10 * 0o400

/-- The number of cells of fixed memory: 40 banks of 02000 (R36). -/
def romSize : Nat := 40 * 0o2000

/-- The number of channels (R37). -/
def chanSize : Nat := 0o1000

/-- The cell of `ram[bank][offset]`. -/
def ramCell (bank : BitVec 3) (offset : BitVec 8) : Nat := bank.toNat * 0o400 + offset.toNat

/-- The cell of `rom[bank][offset]`. -/
def romCell (bank : Nat) (offset : W10) : Nat := bank * 0o2000 + offset.toNat

/-- `ram[bank][offset]`. -/
def ramRead (s : State) (bank : BitVec 3) (offset : BitVec 8) : W15 :=
  Memory.read blankCell s.ram (ramCell bank offset)

/-- `ram[bank][offset] <- v`. -/
def ramWrite (s : State) (bank : BitVec 3) (offset : BitVec 8) (v : W15) : State :=
  { s with ram := Memory.write blankCell s.ram (ramCell bank offset) v }

/-- `rom[bank][offset]`. -/
def romRead (s : State) (bank : Nat) (offset : W10) : W15 :=
  Memory.read blankCell s.rom (romCell bank offset)

/-- `chan[c]`, the channel array itself, without the aliases of L and Q. -/
def chanRead (s : State) (c : Nat) : W15 := Memory.read config.ioReset s.chan c

/-- `chan[c] <- v`, without any side effect. -/
def chanWrite (s : State) (c : Nat) (v : W15) : State :=
  { s with chan := Memory.write config.ioReset s.chan c v }

/-! ## The register file (spec/10_state.md R20, R21) -/

/-- The register numbers that rules of the machine name (R21). -/
abbrev regZrupt : Nat := 0o15
/-- BRUPT. -/
abbrev regBrupt : Nat := 0o17
/-- TIME2. -/
abbrev regTime2 : Nat := 0o24
/-- TIME1. -/
abbrev regTime1 : Nat := 0o25
/-- TIME3. -/
abbrev regTime3 : Nat := 0o26
/-- TIME4. -/
abbrev regTime4 : Nat := 0o27
/-- TIME5. -/
abbrev regTime5 : Nat := 0o30
/-- TIME6. -/
abbrev regTime6 : Nat := 0o31

/-- `reg[010 + k]`. -/
def fileRead (s : State) (k : Nat) : W15 := s.file[k]?.getD 0#15

/-- `reg[010 + k] <- v`. -/
def fileWrite (s : State) (k : Nat) (v : W15) : State :=
  { s with file := s.file.setIfInBounds k v }

/-- The registers from 010 up, by register number: the saved and the counter registers. -/
def plainReg (s : State) (n : Nat) : W15 := fileRead s (n - 0o10)

/-- Store to a register from 010 up, by register number. -/
def setPlainReg (s : State) (n : Nat) (v : W15) : State := fileWrite s (n - 0o10) v

/-- `reg[n]` (R20): 16 bits for A, L, Q, fewer for the others; ZERO reads 0 (R29). -/
def readReg (s : State) (n : Nat) : W16 :=
  match n with
  | 0 => s.a
  | 1 => s.l
  | 2 => s.q
  | 3 => s.eb.setWidth 16
  | 4 => s.fb.setWidth 16
  | 5 => s.z.setWidth 16
  | 6 => s.bb.setWidth 16
  | 7 => 0#16
  | k + 8 => (fileRead s k).setWidth 16

/-- Write to EB: BB's low three bits follow (spec/20_memory.md R64). -/
def writeEB (s : State) (v : W15) : State :=
  { s with
    eb := v &&& 0o03400#15
    bb := (s.bb &&& 0o76000#15) ||| ((v &&& 0o03400#15) >>> 8) }

/-- Write to FB: BB's high bits follow (R65). -/
def writeFB (s : State) (v : W15) : State :=
  { s with
    fb := v &&& 0o76000#15
    bb := (s.bb &&& 0o00007#15) ||| (v &&& 0o76000#15) }

/-- Write to BB: decomposed into EB and FB (R66). -/
def writeBB (s : State) (v : W15) : State :=
  { s with
    bb := v &&& 0o76007#15
    eb := (v &&& 0o00007#15) <<< 8
    fb := v &&& 0o76000#15 }

/-- The register part of `MemWrite` (R63): each register keeps its own width, EB, FB and BB follow
each other, a write to ZERO changes nothing. -/
def writeReg (s : State) (n : Nat) (v : W16) : State :=
  match n with
  | 0 => { s with a := v }
  | 1 => { s with l := v }
  | 2 => { s with q := v }
  | 3 => writeEB s (v.setWidth 15)
  | 4 => writeFB s (v.setWidth 15)
  | 5 => { s with z := v.setWidth 12 }
  | 6 => writeBB s (v.setWidth 15)
  | 7 => s
  | k + 8 => fileWrite s k (v.setWidth 15)

/-! ## The memory map -/

/-- `FixedBank()`: the bank of the common fixed window, with the superbank bit, channel 07 mask 0100
(R68). -/
def fixedBank (s : State) : Nat :=
  let b := s.fb.extractLsb' 10 5
  if b &&& 0o30#5 = 0o30#5 ∧ chanRead s 0o7 &&& 0o100#15 ≠ 0#15 then b.toNat + 8 else b.toNat

/-- Where an address leads (R61, R67 to R70). -/
def resolve (s : State) (addr : W12) : Place :=
  if addr.toNat ≤ 0o60 then .reg addr.toNat
  else if addr.toNat ≤ 0o1377 then .ram (addr.extractLsb' 8 3) (addr.extractLsb' 0 8)
  else if addr.toNat ≤ 0o1777 then .ram (s.eb.extractLsb' 8 3) (addr.extractLsb' 0 8)
  else if addr.toNat ≤ 0o3777 then .rom (fixedBank s) (addr.extractLsb' 0 10)
  else .rom (2 + (addr.toNat - 0o4000) / 0o2000) (addr.extractLsb' 0 10)

/-- What a place holds. -/
def readPlace (s : State) : Place → W16
  | .reg n => readReg s n
  | .ram bank offset => (ramRead s bank offset).setWidth 16
  | .rom bank offset => (romRead s bank offset).setWidth 16

/-- Store to a place: a register by its own rule, ram by 15 bits, fixed memory not at all (R63, R72). -/
def writePlace (s : State) (p : Place) (v : W16) : State :=
  match p with
  | .reg n => writeReg s n v
  | .ram bank offset => ramWrite s bank offset (v.setWidth 15)
  | .rom _ _ => s

/-- `MemRead(addr)` (R62). -/
def memRead (s : State) (addr : W12) : W16 := readPlace s (resolve s addr)

/-- `MemWrite(addr, v)` (R63). -/
def memWrite (s : State) (addr : W12) (v : W16) : State := writePlace s (resolve s addr) v

/-! ## The I/O channel space -/

/-- `IoRead(ch)`: L for channel 01, Q for channel 02, 0 outside the space (R81). -/
def ioRead (s : State) (c : Nat) : W16 :=
  if chanSize ≤ c then 0#16
  else if c = 1 then s.l
  else if c = 2 then s.q
  else (chanRead s c).setWidth 16

/-- The latch bit of a downlink channel: 034 has bit 0, 035 has bit 1 (R84). -/
def downlinkBit (c : Nat) : BitVec 2 :=
  if c = 0o34 then 1#2 else if c = 0o35 then 2#2 else 0#2

/-- The downlink latch after a write to channel 034 or 035; when both bits are set the downrupt
timer is armed and the latch cleared (R84). -/
def latchDownlink (s : State) (c : Nat) : State :=
  let latch := s.downlinkLatch ||| downlinkBit c
  if latch = 3#2 then
    { s with
      downlinkLatch := 0#2
      downruptArmed := true
      downruptTime := s.cycleCounter + config.downruptDelay }
  else { s with downlinkLatch := latch }

/-- `IoWrite(ch, v)` (R82). -/
def ioWrite (s : State) (c : Nat) (v : W16) : State :=
  if chanSize ≤ c then s
  else if c = 1 then { s with l := v }
  else if c = 2 then { s with q := v }
  else if c = 0o34 ∨ c = 0o35 then latchDownlink (chanWrite s c (v.setWidth 15)) c
  else chanWrite s c (v.setWidth 15)

/-! ## Interrupt requests, entry and return -/

/-- `irq[n]`, for `n` in 1..10 (spec/60_exceptions.md R332). -/
def irqPending (s : State) (n : Nat) : Bool :=
  match n with
  | 0 => false
  | k + 1 => s.irq[k]?.getD false

/-- `irq[n] <- b`, for `n` in 1..10. -/
def setIrq (s : State) (n : Nat) (b : Bool) : State :=
  match n with
  | 0 => s
  | k + 1 => { s with irq := s.irq.setIfInBounds k b }

/-- `RaiseIrq(n)` (R333). -/
def raiseIrq (s : State) (n : Nat) : State := setIrq s n true

/-- The request slots in the order they are scanned (R336). -/
def irqSlots : List Nat := [1, 2, 3, 4, 5, 6, 7, 8, 9, 10]

/-- The pending request of highest priority: the lowest slot (R336, R338). -/
def firstPending (s : State) : Option Nat := irqSlots.find? (irqPending s)

/-- The address at which the handler of slot `n` starts: `VECTOR_BASE + 4n` (R337). -/
def vectorAddress (n : Nat) : W12 := BitVec.ofNat 12 (0o4000 + 4 * n)

/-- What every interrupt entry does besides the choice of the vector (R336): ZRUPT takes the address
after the interrupted instruction (on 15 bits: 010000 after 07777), BRUPT the effective word; the
prefixes are cleared, the service flag is set, one unit of extra delay is charged. -/
def saveInterrupted (s : State) (pc0 : W12) (iw : W15) : State :=
  let saved := setPlainReg (setPlainReg s regZrupt (pc0.setWidth 15 + 1#15)) regBrupt iw
  { saved with
    extracode := false
    indexValue := 0#15
    substitute := false
    inIsr := true
    extraDelay := s.extraDelay + 1 }

/-- Taking the request of slot `n`: it is cleared and recorded, and Z is its vector (R336). -/
def takeRequest (s : State) (n : Nat) : State :=
  { setIrq s n false with irqLast := n, z := vectorAddress n }

/-- `TryVector` for an instruction other than EDRUPT (R336): the entry for the first pending request,
or nothing. -/
def tryVector (s : State) (pc0 : W12) (iw : W15) : Option State :=
  match firstPending s with
  | some n => some (saveInterrupted (takeRequest s n) pc0 iw)
  | none => none

/-- `TryVector` for EDRUPT (R339): the entry for the first pending request, and without one the
entry at address 0, with the requests as they are. -/
def vectorEdrupt (s : State) (pc0 : W12) (iw : W15) : State :=
  match firstPending s with
  | some n => saveInterrupted (takeRequest s n) pc0 iw
  | none => saveInterrupted { s with z := 0#12 } pc0 iw

/-- The return from interrupt (spec/43_sequence_control.md R214): Z is the address of the interrupted
instruction, and the next word is taken from BRUPT. -/
def returnFromInterrupt (s : State) : State :=
  { s with
    z := (plainReg s regZrupt - 1#15).setWidth 12
    inIsr := false
    substitute := true }

/-! ## What every executed instruction does first -/

/-- The four writes before an instruction's own effect (spec/41_execution_cycle.md R170): the index
value, the extracode flag and the substitute flag are cleared, and Z advances by 1 on 12 bits. -/
def beginExecute (s : State) : State :=
  { s with indexValue := 0#15, z := s.z + 1#12, extracode := false, substitute := false }

end Sys2Proof.Machine
end

