-- ==== Sys2Proof/Machine/Operands.lean ====
section
/-! DEFINITION. The operand forms: 16-bit operand access (spec/20_memory.md R78, R79), the operand
narrowed to 15 bits, the address fields as addresses, and the 15-bit and 16-bit forms of channel
operands (spec/47_io_instructions.md R310). -/

namespace Sys2Proof.Machine

/-- A 10-bit field as a memory address (spec/30_encoding.md R110). -/
def erasable (k10 : W10) : W12 := k10.setWidth 12

/-- A, L or Q: the addresses that move 16 bits. -/
def isWide (addr : W12) : Bool := addr.toNat ≤ 2

/-- `MemRead(addr)` as a 15-bit word: what a fetch and a 15-bit operand see (R74). -/
def memWord (s : State) (addr : W12) : W15 := (memRead s addr).setWidth 15

/-- `Rd16(addr)` (R78): A, L, Q as they are, any other word sign-extended. -/
def rd16 (s : State) (addr : W12) : W16 :=
  if isWide addr then memRead s addr else signExtend (memWord s addr)

/-- `Wr16(addr, v)` (R79): A, L, Q take 16 bits, any other location the corrected word. -/
def wr16 (s : State) (addr : W12) (v : W16) : State :=
  if isWide addr then memWrite s addr v
  else memWrite s addr ((overflowCorrect v).setWidth 16)

/-- The operand as a word: A, L, Q through `OC`, any other as stored (R213, R215, R266). -/
def correctedOperand (s : State) (addr : W12) : W15 :=
  if isWide addr then overflowCorrect (memRead s addr) else memWord s addr

/-- Channels 01 and 02, which are the registers L and Q (R310). -/
def isRegisterChannel (k9 : W9) : Bool := k9.toNat == 1 || k9.toNat == 2

/-- A channel's value combined with A (R310 to R317): on 16 bits for L and Q; else on 15 bits, with A
corrected and the result still to be widened. -/
def channelCombine (s : State) (k9 : W9) (op16 : W16 → W16 → W16) (op15 : W15 → W15 → W15) :
    W16 :=
  if isRegisterChannel k9 then op16 s.a (ioRead s k9.toNat)
  else signExtend (op15 (overflowCorrect s.a) ((ioRead s k9.toNat).setWidth 15))

/-- The value of a channel as it goes to A (R311). -/
def channelValue (s : State) (k9 : W9) : W16 :=
  if isRegisterChannel k9 then ioRead s k9.toNat
  else signExtend ((ioRead s k9.toNat).setWidth 15)

/-- Write a 16-bit value to a channel (R310, R312): whole to L and Q, corrected to any other. -/
def channelStore (s : State) (k9 : W9) (v : W16) : State :=
  if isRegisterChannel k9 then ioWrite s k9.toNat v
  else ioWrite s k9.toNat ((overflowCorrect v).setWidth 16)

end Sys2Proof.Machine
end

