-- ==== Sys2Proof/Machine/Timers.lean ====
section
/-! DEFINITION. The timer pass (spec/60_exceptions.md R346 to R351). TIME6 and the alarm conditions
change no state (R352) and have no definition. -/

namespace Sys2Proof.Machine

/-- The high and the low scaler channel (spec/00_scope.md R7). -/
abbrev chanScalerHigh : Nat := 0o3
/-- The low scaler channel. -/
abbrev chanScalerLow : Nat := 0o4
/-- The channel with the warning filter's mode bit (R351). -/
abbrev chanMode : Nat := 0o13
/-- The key channel (R361). -/
abbrev chanKey : Nat := 0o15

/-- One more unit of extra delay. -/
def addExtraDelay (s : State) : State := { s with extraDelay := s.extraDelay + 1 }

/-- `PINC(r)`: the state after it, and whether it reports overflow
(spec/40_arithmetic_primitives.md R145). -/
def pinc (s : State) (r : Nat) : State × Bool :=
  let p := pincWord (plainReg s r)
  (setPlainReg s r p.1, p.2)

/-- `PINC(r)` with the request its overflow raises (R349, R350). -/
def pincRaise (s : State) (r slot : Nat) : State :=
  let p := pinc s r
  if p.2 then raiseIrq p.1 slot else p.1

/-- The scaler channels: 04 counts, and carries into 03 (R346). -/
def scalerTick (s : State) : State :=
  let low := (chanRead s chanScalerLow).toNat + 1
  if low = config.scalerLoModulus then
    let s1 := chanWrite s chanScalerLow 0#15
    chanWrite s1 chanScalerHigh (chanRead s1 chanScalerHigh + 1#15)
  else chanWrite s chanScalerLow (BitVec.ofNat 15 low)

/-- `WarningFilterUpdate()` (R351). -/
def warningFilterUpdate (s : State) : State :=
  if s.warningGenerated ∨ chanRead s chanMode &&& 0o1000#15 ≠ 0#15 then
    { s with
      warningGenerated := false
      warningFilter := min (s.warningFilter + config.wfCharge) config.wfMax }
  else { s with warningFilter := s.warningFilter - config.wfDischarge }

/-- TIME1 with its carry into TIME2; each increment costs one unit (R347, R348). -/
def tickTime1 (s : State) : State :=
  let p := pinc (addExtraDelay s) regTime1
  if p.2 then (pinc (addExtraDelay p.1) regTime2).1 else p.1

/-- The 10 ms phase: TIME1, TIME2 and then TIME3 (R347 to R349). -/
def phaseTime13 (s : State) : State := pincRaise (addExtraDelay (tickTime1 s)) regTime3 3

/-- The phase of TIME5 (R350). -/
def phaseTime5 (s : State) : State := pincRaise (addExtraDelay s) regTime5 2

/-- The phase of TIME4 (R350). -/
def phaseTime4 (s : State) : State := pincRaise (addExtraDelay s) regTime4 4

/-- One pass's phase actions, for a count `sc` of channel 04 (R346). -/
def phaseActions (s : State) (sc : W15) : State :=
  let s1 := if sc &&& config.wfPeriodMask = 0#15 then warningFilterUpdate s else s
  let s2 := if sc &&& config.phaseMask = config.phaseT1T3 then phaseTime13 s1 else s1
  let s3 := if sc &&& config.phaseMask = config.phaseT5 then phaseTime5 s2 else s2
  if sc &&& config.phaseMask = config.phaseT4 then phaseTime4 s3 else s3

/-- `TimerPass()` (R346). -/
def timerPass (s : State) : State :=
  let s1 := scalerTick s
  phaseActions s1 (chanRead s1 chanScalerLow)

/-- The timer loop (spec/41_execution_cycle.md R163): a pass for each threshold in the scaler
counter. The first argument bounds the passes; with a positive threshold the scaler counter itself
is bound enough. -/
def timerLoop : Nat → State → State
  | 0, s => s
  | n + 1, s =>
    if config.scalerThreshold ≤ s.scalerCounter then
      timerLoop n (timerPass { s with scalerCounter := s.scalerCounter - config.scalerThreshold })
    else s

end Sys2Proof.Machine
end

