-- ==== Sys2Proof/Machine/Cycle.lean ====
section
/-! DEFINITION. The parts of `Step` around the execution of an instruction
(spec/41_execution_cycle.md R160 to R173): head, delays, timers, fetch, interrupt check, accounting.
`planStep` says what a Step comes to; `step` in Sys2Proof/Machine/Step.lean carries it out. -/

namespace Sys2Proof.Machine

/-- What a Step comes to. -/
inductive StepPlan where
  /-- The Step has no meaning. -/
  | refuse (r : Refusal)
  /-- The Step ends without an instruction: a delay unit consumed, or an instruction charged. -/
  | wait (s : State)
  /-- An interrupt was entered in place of the fetched instruction. -/
  | enter (s : State)
  /-- The instruction runs, from this state. -/
  | run (i : Instr) (s : State)
  deriving DecidableEq, Repr

/-- The head of a Step: a due downrupt request is raised, and the cycle and scaler counters advance
(R161). -/
def stepHead (s : State) : State :=
  let due := s.downruptArmed && decide (s.downruptTime ≤ s.cycleCounter)
  let s1 := if due then { raiseIrq s 8 with downruptArmed := false } else s
  { s1 with
    cycleCounter := s1.cycleCounter + 1
    scalerCounter := s1.scalerCounter + config.scalerIncrement }

/-- The timers of a Step (R163). -/
def runTimers (s : State) : State := timerLoop s.scalerCounter s

/-- The word at Z (spec/20_memory.md R74). -/
def fetchWord (s : State) : W15 := memWord s s.z

/-- `IW`, the effective instruction word: BRUPT after a RESUME, else the fetched word with the index
value added (R165). -/
def effectiveWord (s : State) : W15 :=
  if s.substitute then plainReg s regBrupt
  else overflowCorrect (add16 (signExtend s.indexValue) (signExtend (fetchWord s)))

/-- The instruction a state is about to run (R166). -/
def decodedInstr (s : State) : Instr := decode s.extracode (effectiveWord s)

/-- The words that are never interrupted: RELINT, INHINT, EXTEND (spec/60_exceptions.md R335). -/
def isProtected (iw : W15) : Bool := iw == 0o3#15 || iw == 0o4#15 || iw == 0o6#15

/-- `Eligible(IW, tag)` for a tag other than EDRUPT (R335). -/
def eligible (s : State) (iw : W15) : Bool :=
  !s.pendFlag && s.intEnabled && !s.inIsr && !s.extracode && !hasOverflow s.a &&
    !isProtected iw && s.indexValue == 0#15

/-- Accounting (R168, R169): a multi-cycle instruction is charged at its first fetch; at its second,
or where there is nothing to charge, it runs. -/
def accountInstr (s : State) (i : Instr) : StepPlan :=
  if s.pendFlag then .run i { s with pendFlag := false }
  else if 1 < config.mct i then
    .wait { s with pendFlag := true, pendDelay := config.mct i - 2 }
  else .run i s

/-- The interrupt check and the accounting (R167 to R169). EDRUPT is always eligible and always
enters (R339): its meaning is that entry, and it is never charged. -/
def dispatchInstr (s : State) : Instr → StepPlan
  | .edrupt k9 => .run (.edrupt k9) s
  | i =>
    if eligible s (effectiveWord s) then
      match tryVector s s.z (effectiveWord s) with
      | some t => .enter t
      | none => accountInstr s i
    else accountInstr s i

/-- A delay unit that this state has to consume, the extra delay first (R162). -/
def consumeDelay (s : State) : Option State :=
  if 0 < s.extraDelay then some { s with extraDelay := s.extraDelay - 1 }
  else if s.pendFlag ∧ 0 < s.pendDelay then some { s with pendDelay := s.pendDelay - 1 }
  else none

/-- An extra-delay unit that the timers of this Step generated (R164). -/
def consumeTimerDelay (s : State) : Option State :=
  if 0 < s.extraDelay then some { s with extraDelay := s.extraDelay - 1 } else none

/-- A Step from the timers on (R163 to R169). -/
def planAfterDelay (s : State) : StepPlan :=
  let s1 := runTimers s
  match consumeTimerDelay s1 with
  | some t => .wait t
  | none => dispatchInstr s1 (decodedInstr s1)

/-- What `Step` comes to, in the order of R160; before the load it has no meaning (R394). -/
def planStep (s : State) : StepPlan :=
  if s.ready then
    let s1 := stepHead s
    match consumeDelay s1 with
    | some t => .wait t
    | none => planAfterDelay s1
  else .refuse .stepBeforeLoad

/-- The boolean that `Step` returns, where it gives a next state (R173): true for an executed
instruction and for an interrupt entry, false for a delay or a charge. An output, not state (log 8). -/
def stepReturns (s : State) : Bool :=
  match planStep s with
  | .refuse _ => false
  | .wait _ => false
  | .enter _ => true
  | .run _ _ => true

/-! ## Placing an instruction where the next Step runs it -/

/-- The state whose next fetch reads a word at Z: for a Z that names EB, FB, Z, BB or ZERO, which
cannot hold every word, Z is 04000. -/
def fetchable (s : State) : State :=
  if 3 ≤ s.z.toNat ∧ s.z.toNat ≤ 7 then { s with z := 0o4000#12 } else s

/-- `w` in the cell that the fetch reads; fixed memory too, as a load would place it. -/
def placeWord (s : State) (w : W15) : State :=
  match resolve s s.z with
  | .reg n => writeReg s n (w.setWidth 16)
  | .ram bank offset => ramWrite s bank offset w
  | .rom bank offset =>
    { s with rom := Memory.write blankCell s.rom (romCell bank offset) w }

/-- Everything else that makes the next Step run the word at Z (log 5): the image is loaded, no delay
and no timer pass stands before the fetch, no index and no substitution changes the word, the mode is
the word's, and the instruction counts as charged, so that it runs in this Step and no interrupt
takes its place. -/
def poise (s : State) (extracode : Bool) : State :=
  { s with
    ready := true
    extraDelay := 0
    pendFlag := true
    pendDelay := 0
    scalerCounter := 0
    indexValue := 0#15
    substitute := false
    extracode := extracode }

/-- An opcode-table word placed for the next Step; a number that stands for no word changes
nothing. -/
def poiseTableWord (s : State) (nbits w : Nat) : State :=
  match tableWord nbits w with
  | some (extracode, word) => poise (placeWord (fetchable s) word) extracode
  | none => s

end Sys2Proof.Machine
end

