-- ==== Sys2Proof/Machine/ControlTransfer.lean ====
section
/-! DEFINITION. Control transfer (spec/42_control_transfer.md R190 to R197). A meaning takes the
state in which the instruction is fetched, its word at Z (or in BRUPT), and begins with the writes of
R170 (log 6). -/

namespace Sys2Proof.Machine

/-- The linking transfer of R190: Q takes the return address, but for target 2; Z takes the target. -/
def transferLink (s : State) (k12 : W12) : State :=
  if k12 = 2#12 then { s with z := k12 } else { s with q := s.z.setWidth 16, z := k12 }

/-- Z advances by `k` further words (R195, R234). -/
def skipWords (s : State) (k : Nat) : State := { s with z := s.z + BitVec.ofNat 12 k }

/-- A conditional branch: to the target, or on with the fall-through delay (R196, R197). -/
def branchOrDelay (s : State) (taken : Bool) (k12 : W12) : State :=
  if taken then { s with z := k12 }
  else { s with extraDelay := s.extraDelay + config.branchFallthroughDelay }

/-- TC (R190). -/
def execTc (k12 : W12) (s : State) : Host.Outcome State Fault Refusal :=
  .next (transferLink (beginExecute s) k12)

/-- XXALQ: TC to A (R191). -/
def execXxalq (s : State) : Host.Outcome State Fault Refusal :=
  .next (transferLink (beginExecute s) 0#12)

/-- XLQ: TC to L (R192). -/
def execXlq (s : State) : Host.Outcome State Fault Refusal :=
  .next (transferLink (beginExecute s) 1#12)

/-- RETURN: TC to Q, which is not written (R193). -/
def execRet (s : State) : Host.Outcome State Fault Refusal :=
  .next (transferLink (beginExecute s) 2#12)

/-- TCF (R194). -/
def execTcf (k12 : W12) (s : State) : Host.Outcome State Fault Refusal :=
  .next { beginExecute s with z := k12 }

/-- CCS (R195): A takes the diminished absolute value, and the kind of the operand says how many
words are skipped. -/
def execCcs (k10 : W10) (s : State) : Host.Outcome State Fault Refusal :=
  let s1 := beginExecute s
  if isWide (erasable k10) then
    let v := memRead s1 (erasable k10)
    .next (skipWords { s1 with a := odabs v } (ccsSkipReg v))
  else
    let op := memWord s1 (erasable k10)
    .next (skipWords { s1 with a := (dabs op).setWidth 16 } (ccsSkipWord op))

/-- BZF (R196). -/
def execBzf (k12 : W12) (s : State) : Host.Outcome State Fault Refusal :=
  .next (branchOrDelay (beginExecute s) (isZero16 s.a) k12)

/-- BZMF (R197). -/
def execBzmf (k12 : W12) (s : State) : Host.Outcome State Fault Refusal :=
  .next (branchOrDelay (beginExecute s) (isZeroOrMinus16 s.a) k12)

end Sys2Proof.Machine
end

