-- ==== Sys2Proof/Machine/LoadStore.lean ====
section
/-! DEFINITION. Load, store and exchange (spec/44_load_store_exchange.md R230 to R239). -/

namespace Sys2Proof.Machine

/-- The 16-bit form of a value without its overflow: `SE(OC(v))`. -/
def foldOverflow (v : W16) : W16 := signExtend (overflowCorrect v)

/-- The first word of a pair whose second word is at `f` (spec/30_encoding.md R110). -/
def pairFirst (f : W12) : W12 := f - 1#12

/-- A exchanged with the word at `addr` (R235, R239). -/
def exchangeA (s : State) (addr : W12) : State :=
  { wr16 s addr s.a with a := rd16 s addr }

/-- L exchanged with the word at `addr` (R237, R239). -/
def exchangeL (s : State) (addr : W12) : State :=
  { wr16 s addr s.l with l := rd16 s addr }

/-- Q exchanged with the word at `addr` (R238). -/
def exchangeQ (s : State) (addr : W12) : State :=
  { wr16 s addr s.q with q := rd16 s addr }

/-- CA (R230). -/
def execCa (k12 : W12) (s : State) : Host.Outcome State Fault Refusal :=
  let s1 := beginExecute s
  .next { s1 with a := rd16 s1 k12 }

/-- CS (R231). -/
def execCs (k12 : W12) (s : State) : Host.Outcome State Fault Refusal :=
  let s1 := beginExecute s
  .next { s1 with a := ~~~(rd16 s1 k12) }

/-- DCA (R232): the second word to L, then the first to A, which reads the L just written. -/
def execDca (k12 : W12) (s : State) : Host.Outcome State Fault Refusal :=
  let s1 := beginExecute s
  if k12 = 0#12 then .refused .dcaFieldZero
  else if k12 = 1#12 then .next { s1 with l := foldOverflow s1.l }
  else
    let s2 := { s1 with l := foldOverflow (rd16 s1 k12) }
    .next { s2 with a := rd16 s2 (pairFirst k12) }

/-- DCS (R233): as DCA, complemented. -/
def execDcs (k12 : W12) (s : State) : Host.Outcome State Fault Refusal :=
  let s1 := beginExecute s
  if k12 = 0#12 then .refused .dcsFieldZero
  else if k12 = 1#12 then .next { s1 with a := ~~~s1.a, l := foldOverflow (~~~s1.l) }
  else
    let s2 := { s1 with l := foldOverflow (~~~(rd16 s1 k12)) }
    .next { s2 with a := ~~~(rd16 s2 (pairFirst k12)) }

/-- TS (R234): A is stored; where it has overflow it becomes +1 or -1 and the next word is skipped.
TS A only skips, TS Z only jumps. -/
def execTs (k10 : W10) (s : State) : Host.Outcome State Fault Refusal :=
  let s1 := beginExecute s
  let o := ovf s.a
  if k10 = 0#10 then .next (if o ≠ 0#15 then skipWords s1 1 else s1)
  else if k10 = 5#10 then
    let s2 := { s1 with z := s.a.setWidth 12 }
    .next (if o ≠ 0#15 then { s2 with a := signExtend o } else s2)
  else
    let s2 := wr16 s1 (erasable k10) s.a
    .next (if o ≠ 0#15 then skipWords { s2 with a := signExtend o } 1 else s2)

/-- XCH (R235, R236). -/
def execXch (k10 : W10) (s : State) : Host.Outcome State Fault Refusal :=
  let s1 := beginExecute s
  if k10 = 0#10 then .next s1 else .next (exchangeA s1 (erasable k10))

/-- LXCH (R237, R236). -/
def execLxch (k10 : W10) (s : State) : Host.Outcome State Fault Refusal :=
  let s1 := beginExecute s
  if k10 = 1#10 then .next s1 else .next (exchangeL s1 (erasable k10))

/-- QXCH (R238, R236). -/
def execQxch (k10 : W10) (s : State) : Host.Outcome State Fault Refusal :=
  let s1 := beginExecute s
  if k10 = 2#10 then .next s1 else .next (exchangeQ s1 (erasable k10))

/-- DXCH (R239): L with the second word, then A with the first. -/
def execDxch (k10 : W10) (s : State) : Host.Outcome State Fault Refusal :=
  let s1 := beginExecute s
  if k10 = 0#10 then .refused .dxchFieldZero
  else if k10 = 1#10 then .next { s1 with l := foldOverflow s1.l }
  else .next (exchangeA (exchangeL s1 (erasable k10)) (pairFirst (erasable k10)))

end Sys2Proof.Machine
end

