-- ==== Sys2Proof/Machine/ArithLogic.lean ====
section
/-! DEFINITION. Arithmetic and logic (spec/45_arithmetic_logic.md R260 to R270). -/

namespace Sys2Proof.Machine

/-- A value's overflow carried into the word above it: +1, -1 or nothing (R263). -/
def carryOverflow (msw lsw : W16) : W16 :=
  if ovf lsw = 0o00001#15 then add16 msw 0o000001#16
  else if ovf lsw = 0o77776#15 then add16 msw 0o177776#16
  else msw

/-- The overflow of a sum as +1, -1 or +0 on 16 bits (R263). -/
def overflowSign (v : W16) : W16 :=
  if ovf v = 0o00001#15 then 0o000001#16
  else if ovf v = 0o77776#15 then 0o177776#16
  else 0#16

/-- The difference of MSU (R265): the two's-complement difference of `ui` and the operand that `uj`
complements, with 1 taken off where bit 14 is set. -/
def modularDifference (ui uj : W16) : W16 :=
  let d : BitVec 18 := ui.setWidth 18 + uj.setWidth 18 + 1#18
  if d &&& 0o40000#18 ≠ 0#18 then ((d ||| 0o100000#18) - 1#18).setWidth 16 else d.setWidth 16

/-- The two product words of MP (R266), with its rules for zeros. -/
def product (op other : W15) : W15 × W15 :=
  if isZero15 other then (0#15, 0#15)
  else if isZero15 op then
    if (op = 0#15 ∧ other &&& 0o40000#15 ≠ 0#15) ∨
        (op = 0o77777#15 ∧ other &&& 0o40000#15 = 0#15) then
      (0o77777#15, 0o77777#15)
    else (0#15, 0#15)
  else decentToPair (decentSign (intToDecent (wordToInt op * wordToInt other)))

/-- AD (R260). -/
def execAd (k12 : W12) (s : State) : Host.Outcome State Fault Refusal :=
  let s1 := beginExecute s
  .next { s1 with a := add16 s1.a (rd16 s1 k12) }

/-- ADS (R261). -/
def execAds (k10 : W10) (s : State) : Host.Outcome State Fault Refusal :=
  let s1 := beginExecute s
  let sum := add16 s1.a (rd16 s1 (erasable k10))
  let s2 := { s1 with a := sum }
  .next (if k10 = 0#10 then s2 else wr16 s2 (erasable k10) sum)

/-- INCR (R262). -/
def execIncr (k10 : W10) (s : State) : Host.Outcome State Fault Refusal :=
  let s1 := beginExecute s
  .next (wr16 s1 (erasable k10) (add16 0o000001#16 (rd16 s1 (erasable k10))))

/-- DAS (R263). -/
def execDas (k10 : W10) (s : State) : Host.Outcome State Fault Refusal :=
  let s1 := beginExecute s
  let f := erasable k10
  if k10 = 0#10 then .refused .dasFieldZero
  else if k10 = 1#10 then
    let lsw := add16 s1.l s1.l
    let msw := carryOverflow (add16 s1.a s1.a) lsw
    .next { s1 with a := msw, l := foldOverflow lsw }
  else
    let lsw := add16 s1.l (rd16 s1 f)
    let msw := carryOverflow (add16 s1.a (rd16 s1 (pairFirst f))) lsw
    let s2 := { s1 with a := overflowSign msw, l := 0#16 }
    .next (wr16 (wr16 s2 f (foldOverflow lsw)) (pairFirst f) msw)

/-- MASK (R264). -/
def execMask (k12 : W12) (s : State) : Host.Outcome State Fault Refusal :=
  let s1 := beginExecute s
  if isWide k12 then .next { s1 with a := s1.a &&& memRead s1 k12 }
  else .next { s1 with a := signExtend (overflowCorrect s1.a &&& memWord s1 k12) }

/-- MSU (R265). -/
def execMsu (k10 : W10) (s : State) : Host.Outcome State Fault Refusal :=
  let s1 := beginExecute s
  let addr := erasable k10
  let d :=
    if isWide addr then modularDifference s1.a (~~~(memRead s1 addr))
    else modularDifference ((overflowCorrect s1.a).setWidth 16)
      ((~~~(memWord s1 addr)).setWidth 16)
  .next { s1 with a := if k10 = 2#10 then d else signExtend (d.setWidth 15) }

/-- MP (R266). -/
def execMp (k12 : W12) (s : State) : Host.Outcome State Fault Refusal :=
  let s1 := beginExecute s
  let p := product (overflowCorrect s1.a) (correctedOperand s1 k12)
  .next { s1 with a := signExtend p.1, l := signExtend p.2 }

/-- AUG: a placeholder that does nothing (R268). -/
def execAug (_k10 : W10) (s : State) : Host.Outcome State Fault Refusal := .next (beginExecute s)

/-- DIM: a placeholder that does nothing (R269). -/
def execDim (_k10 : W10) (s : State) : Host.Outcome State Fault Refusal := .next (beginExecute s)

/-- SU: a placeholder that does nothing (R270). -/
def execSu (_k10 : W10) (s : State) : Host.Outcome State Fault Refusal := .next (beginExecute s)

end Sys2Proof.Machine
end

