-- ==== Sys2Proof/Machine/Channels.lean ====
section
/-! DEFINITION. The I/O channel instructions (spec/47_io_instructions.md R310 to R317). -/

namespace Sys2Proof.Machine

/-- The write-and-combine forms: `v` to A and to the channel (R314, R316). -/
def writeCombined (s : State) (k9 : W9) (v : W16) : State := channelStore { s with a := v } k9 v

/-- READ (R311). -/
def execRead (k9 : W9) (s : State) : Host.Outcome State Fault Refusal :=
  let s1 := beginExecute s
  .next { s1 with a := channelValue s1 k9 }

/-- WRITE (R312). -/
def execWrite (k9 : W9) (s : State) : Host.Outcome State Fault Refusal :=
  let s1 := beginExecute s
  .next (channelStore s1 k9 s1.a)

/-- RAND (R313). -/
def execRand (k9 : W9) (s : State) : Host.Outcome State Fault Refusal :=
  let s1 := beginExecute s
  .next { s1 with a := channelCombine s1 k9 (· &&& ·) (· &&& ·) }

/-- WAND (R314). -/
def execWand (k9 : W9) (s : State) : Host.Outcome State Fault Refusal :=
  let s1 := beginExecute s
  .next (writeCombined s1 k9 (channelCombine s1 k9 (· &&& ·) (· &&& ·)))

/-- ROR (R315). -/
def execRor (k9 : W9) (s : State) : Host.Outcome State Fault Refusal :=
  let s1 := beginExecute s
  .next { s1 with a := channelCombine s1 k9 (· ||| ·) (· ||| ·) }

/-- WOR (R316). -/
def execWor (k9 : W9) (s : State) : Host.Outcome State Fault Refusal :=
  let s1 := beginExecute s
  .next (writeCombined s1 k9 (channelCombine s1 k9 (· ||| ·) (· ||| ·)))

/-- RXOR (R317). -/
def execRxor (k9 : W9) (s : State) : Host.Outcome State Fault Refusal :=
  let s1 := beginExecute s
  .next { s1 with a := channelCombine s1 k9 (· ^^^ ·) (· ^^^ ·) }

end Sys2Proof.Machine
end

