-- ==== Sys2Proof/Machine/Divide.lean ====
section
/-! DEFINITION. Divide (spec/46_divide.md R290, R291): one shift-and-add procedure for every
operand. -/

namespace Sys2Proof.Machine

/-- The dividend and divisor as the procedure prepares them (R291, steps 1 to 5): the remainder in
non-positive form, the rotated low word, the divisor in non-negative form, and the signs. -/
structure DivideSetup where
  /-- `ds`: the sign of the dividend. -/
  dividendSign : W16
  /-- `vs`: the sign of the divisor. -/
  divisorSign : W16
  /-- `qs`: the sign bit of the biased low word. -/
  lowSign : W16
  /-- `d` in non-negative form. -/
  divisor : W16
  /-- `rem` before the first iteration. -/
  remainder : W16
  /-- `q` before the first iteration. -/
  quotient : W16
  deriving DecidableEq, Repr

/-- Steps 1 to 5 of R291. -/
def divideSetup (a l d : W16) : DivideSetup :=
  let ds0 := a &&& 0o100000#16
  let a1 := if ds0 = 0#16 then ~~~a else a
  let ds := if a1 = 0o177777#16 then l &&& 0o100000#16 else ds0
  let l1 := if ds ≠ 0#16 then ~~~l else l
  let l2 := add16 l1 0o040000#16
  let a2 := if l2 &&& 0o140000#16 ≠ 0o040000#16 then add16 a1 0o000001#16 else a1
  let vs := d &&& 0o100000#16
  let d1 := if vs ≠ 0#16 then ~~~d else d
  let qs := l2 &&& 0o100000#16
  { dividendSign := ds
    divisorSign := vs
    lowSign := qs
    divisor := d1
    remainder := a2
    quotient := qs ||| ((l2 &&& 0o037777#16) <<< 1) ||| (qs >>> 15) }

/-- One iteration of step 6 of R291, on the quotient and the remainder. -/
def divideIteration (d : W16) (qr : W16 × W16) : W16 × W16 :=
  let q := qr.1 <<< 1
  let rs := qr.2 &&& 0o100000#16
  let shifted := rs ||| ((qr.2 &&& 0o037777#16) <<< 1)
  let rem := if q &&& 0o100000#16 = 0#16 then shifted ||| (rs >>> 15) else shifted
  let trial := add16 rem d
  if trial &&& 0o100000#16 ≠ 0#16 then (q ||| 1#16, trial) else (q, rem)

/-- `n` iterations of step 6. -/
def divideIterate (d : W16) : Nat → W16 × W16 → W16 × W16
  | 0, qr => qr
  | n + 1, qr => divideIterate d n (divideIteration d qr)

/-- `DivSim(a, l, d)`: the new A and the new L (R291). -/
def divSim (a l d : W16) : W16 × W16 :=
  let p := divideSetup a l d
  let qr := divideIterate p.divisor 14 (p.quotient, p.remainder)
  let m := p.lowSign ||| (qr.1 &&& 0o077777#16)
  (if p.dividendSign ≠ p.divisorSign then ~~~m else m,
    if p.dividendSign ≠ 0#16 then qr.2 else ~~~qr.2)

/-- DV (R290). -/
def execDv (k10 : W10) (s : State) : Host.Outcome State Fault Refusal :=
  let s1 := beginExecute s
  if k10 = 0#10 ∨ k10 = 1#10 then .refused .dvDivisorInDividend
  else
    let r := divSim s1.a s1.l (rd16 s1 (erasable k10))
    .next { s1 with a := r.1, l := r.2 }

end Sys2Proof.Machine
end

