-- ==== Sys2Proof/Machine/SequenceControl.lean ====
section
/-! DEFINITION. Sequence control (spec/43_sequence_control.md R210 to R216). -/

namespace Sys2Proof.Machine

/-- RELINT (R210). -/
def execRelint (s : State) : Host.Outcome State Fault Refusal :=
  .next { beginExecute s with intEnabled := true }

/-- INHINT (R211). -/
def execInhint (s : State) : Host.Outcome State Fault Refusal :=
  .next { beginExecute s with intEnabled := false }

/-- EXTEND (R212). -/
def execExtend (s : State) : Host.Outcome State Fault Refusal :=
  .next { beginExecute s with extracode := true }

/-- RESUME (R214). -/
def execResume (s : State) : Host.Outcome State Fault Refusal :=
  .next (returnFromInterrupt (beginExecute s))

/-- INDEX (R213). The field 017 is RESUME, which the decoder gives under its own name (log 7). -/
def execIndex (k10 : W10) (s : State) : Host.Outcome State Fault Refusal :=
  let s1 := beginExecute s
  if k10.toNat = 0o17 then .next (returnFromInterrupt s1)
  else .next { s1 with indexValue := correctedOperand s1 (erasable k10) }

/-- INDEX_2 (R215): the next instruction is indexed and decoded in extracode mode. -/
def execIndexTwo (k12 : W12) (s : State) : Host.Outcome State Fault Refusal :=
  let s1 := beginExecute s
  .next { s1 with indexValue := correctedOperand s1 k12, extracode := true }

/-- EDRUPT (R216, R339): its effect is the interrupt entry at its fetch. It never reaches R170, so
the entry is made from the state of the fetch, with Z the address of EDRUPT and the effective word
the one that EDRUPT is (DEDUCED, safe: log 6). -/
def execEdrupt (k9 : W9) (s : State) : Host.Outcome State Fault Refusal :=
  .next (vectorEdrupt s s.z (encode (.edrupt k9)))

end Sys2Proof.Machine
end

