-- ==== Sys2Proof/Machine/Dispatch.lean ====
section
/-! DEFINITION. `Execute(tag, IW)` (spec/41_execution_cycle.md R171): one arm for each instruction,
each one direct call of its meaning. -/

namespace Sys2Proof.Machine

def exec (i : Instr) (s : State) : Host.Outcome State Fault Refusal :=
  match i with
  | .xxalq => Sys2Proof.Machine.execXxalq s
  | .xlq => Sys2Proof.Machine.execXlq s
  | .ret => Sys2Proof.Machine.execRet s
  | .relint => Sys2Proof.Machine.execRelint s
  | .inhint => Sys2Proof.Machine.execInhint s
  | .extend => Sys2Proof.Machine.execExtend s
  | .resume => Sys2Proof.Machine.execResume s
  | .tc k12 => Sys2Proof.Machine.execTc k12 s
  | .ccs k10 => Sys2Proof.Machine.execCcs k10 s
  | .tcf k12 => Sys2Proof.Machine.execTcf k12 s
  | .das k10 => Sys2Proof.Machine.execDas k10 s
  | .lxch k10 => Sys2Proof.Machine.execLxch k10 s
  | .incr k10 => Sys2Proof.Machine.execIncr k10 s
  | .ads k10 => Sys2Proof.Machine.execAds k10 s
  | .ca k12 => Sys2Proof.Machine.execCa k12 s
  | .cs k12 => Sys2Proof.Machine.execCs k12 s
  | .index k10 => Sys2Proof.Machine.execIndex k10 s
  | .dxch k10 => Sys2Proof.Machine.execDxch k10 s
  | .ts k10 => Sys2Proof.Machine.execTs k10 s
  | .xch k10 => Sys2Proof.Machine.execXch k10 s
  | .ad k12 => Sys2Proof.Machine.execAd k12 s
  | .mask k12 => Sys2Proof.Machine.execMask k12 s
  | .read k9 => Sys2Proof.Machine.execRead k9 s
  | .write k9 => Sys2Proof.Machine.execWrite k9 s
  | .rand k9 => Sys2Proof.Machine.execRand k9 s
  | .wand k9 => Sys2Proof.Machine.execWand k9 s
  | .ror k9 => Sys2Proof.Machine.execRor k9 s
  | .wor k9 => Sys2Proof.Machine.execWor k9 s
  | .rxor k9 => Sys2Proof.Machine.execRxor k9 s
  | .edrupt k9 => Sys2Proof.Machine.execEdrupt k9 s
  | .dv k10 => Sys2Proof.Machine.execDv k10 s
  | .bzf k12 => Sys2Proof.Machine.execBzf k12 s
  | .msu k10 => Sys2Proof.Machine.execMsu k10 s
  | .qxch k10 => Sys2Proof.Machine.execQxch k10 s
  | .aug k10 => Sys2Proof.Machine.execAug k10 s
  | .dim k10 => Sys2Proof.Machine.execDim k10 s
  | .dca k12 => Sys2Proof.Machine.execDca k12 s
  | .dcs k12 => Sys2Proof.Machine.execDcs k12 s
  | .indexTwo k12 => Sys2Proof.Machine.execIndexTwo k12 s
  | .su k10 => Sys2Proof.Machine.execSu k10 s
  | .bzmf k12 => Sys2Proof.Machine.execBzmf k12 s
  | .mp k12 => Sys2Proof.Machine.execMp k12 s

end Sys2Proof.Machine
end

