-- ==== Sys2Proof/Machine/Step.lean ====
section
/-! DEFINITION. `Step`, the machine's only transition (spec/41_execution_cycle.md R160): the plan of
Sys2Proof/Machine/Cycle.lean carried out. -/

namespace Sys2Proof.Machine

/-- One Step, one machine cycle (R160). The boolean it returns is `stepReturns`. -/
def step (s : State) : Host.Outcome State Fault Refusal :=
  match planStep s with
  | .refuse r => .refused r
  | .wait t => .next t
  | .enter t => .next t
  | .run i t => exec i t

/-- `s` with an opcode-table word stored where the next Step fetches, and everything that lets that
Step run it (log 5). -/
def State.withFetchWord (s : State) (nbits w : Nat) : State := poiseTableWord s nbits w

end Sys2Proof.Machine
end

