-- ==== Sys2Proof/Machine/HostOps.lean ====
section
/-! DEFINITION. The host, the second agent (spec/60_exceptions.md R360 to R367): what it can do between
two Steps. -/

namespace Sys2Proof.Machine

/-- An octet of the program image. -/
abbrev Octet := BitVec 8

/-- The fixed bank that an image bank goes to: 0 and 2, 1 and 3 change places (spec/20_memory.md
R75). -/
def imageBank (i : Nat) : Nat :=
  match i with
  | 0 => 2
  | 1 => 3
  | 2 => 0
  | 3 => 1
  | n => n

/-- The fixed cell of image word `w` (R75). -/
def imageCell (w : Nat) : Nat := imageBank (w / 0o2000) * 0o2000 + w % 0o2000

/-- The word of a big-endian pair, without its parity bit (R75). -/
def imageWord (high low : Octet) : W15 := (high ++ low).extractLsb' 1 15

/-- Fixed memory with the image's words from number `w` on: bytes beyond the last cell are ignored,
an unpaired last byte is a missing word, a missing word is 0 (R75). -/
def loadWords : Nat → List Octet → Memory → Memory
  | w, high :: low :: rest, m =>
    if w < romSize then
      loadWords (w + 1) rest (Memory.write blankCell m (imageCell w) (imageWord high low))
    else m
  | _, _, m => m

/-- `load(image)` (R75, R366): fixed memory is the image, and the machine is ready; a second load is
refused. A load that fails is no transition: `ready` stays 0 (log 10). -/
def loadImage (s : State) (image : List Octet) : Host.Outcome State Fault Refusal :=
  if s.ready then .refused .imageAlreadyLoaded
  else .next { s with rom := loadWords 0 image [], ready := true }

/-- `key_pressed(code)` (R361). -/
def keyPressed (s : State) (code : Nat) : State :=
  chanWrite (raiseIrq s 5) chanKey (BitVec.ofNat 15 code)

/-- `read_memory(address)`: the word, or a refusal above 07777 (R362, R73). -/
def hostReadMemory (s : State) (address : Nat) : Except Refusal W16 :=
  if address ≤ 0o7777 then .ok (memRead s (BitVec.ofNat 12 address))
  else .error .hostAddressOutOfRange

/-- `write_memory(address, value)` (R363, R73): `MemWrite` with all its masks and side effects. -/
def hostWriteMemory (s : State) (address value : Nat) : Host.Outcome State Fault Refusal :=
  if address ≤ 0o7777 then .next (memWrite s (BitVec.ofNat 12 address) (BitVec.ofNat 16 value))
  else .refused .hostAddressOutOfRange

/-- `read_io(address)`: 0 outside 0..0777, below it too (R364, R81). -/
def hostReadIo (s : State) (address : Int) : W16 :=
  if address < 0 then 0#16 else ioRead s address.toNat

/-- `get_cycle_counter()`: the signed view of the low 32 bits (R365). -/
def getCycleCounter (s : State) : Int := (BitVec.ofNat 32 s.cycleCounter).toInt

/-- The operations of the host (R367). -/
inductive HostOp where
  /-- `step()`. -/
  | step
  /-- `key_pressed(code)`. -/
  | keyPressed (code : Nat)
  /-- `read_memory(address)`. -/
  | readMemory (address : Nat)
  /-- `write_memory(address, value)`. -/
  | writeMemory (address value : Nat)
  /-- `read_io(address)`. -/
  | readIo (address : Int)
  /-- `get_cycle_counter()`. -/
  | getCycleCounter
  /-- `load(image)`. -/
  | load (image : List (BitVec 8))
  deriving DecidableEq, Repr

/-- The host's transition relation (R367): each operation is atomic, and only `step`, `load` and a
memory address out of range have a precondition. Operations other than `step` are allowed before the
load. -/
def hostDo (s : State) : HostOp → Host.Outcome State Fault Refusal
  | .step => step s
  | .keyPressed code => .next (keyPressed s code)
  | .readMemory address =>
    match hostReadMemory s address with
    | .ok _ => .next s
    | .error r => .refused r
  | .writeMemory address value => hostWriteMemory s address value
  | .readIo _ => .next s
  | .getCycleCounter => .next s
  | .load image => loadImage s image

end Sys2Proof.Machine
end

