-- ==== Sys2Proof/Safety.lean ====
section
/-! DEFINITION. What claims about the machine are stated in: what an instruction leaves unchanged, what
a location reads as after a store, the invariant of the machine, and the diagnostic of a placeholder
instruction. -/

namespace Sys2Proof.Machine

/-! ## Frames -/

/-- Every place but the listed ones reads as before: registers, erasable and fixed memory. -/
def KeepsPlaces (s t : State) (written : List Place) : Prop :=
  ∀ p, p ∉ written → readPlace t p = readPlace s p

/-- Every cell of the channel array but the listed ones reads as before. -/
def KeepsChannels (s t : State) (written : List Nat) : Prop :=
  ∀ c, c ∉ written → chanRead t c = chanRead s c

/-- The interrupt state is as before. -/
def KeepsInterrupts (s t : State) : Prop :=
  t.intEnabled = s.intEnabled ∧ t.inIsr = s.inIsr ∧ t.irq = s.irq ∧ t.irqLast = s.irqLast

/-- The delay counters are as before. -/
def KeepsDelays (s t : State) : Prop :=
  t.pendFlag = s.pendFlag ∧ t.pendDelay = s.pendDelay ∧ t.extraDelay = s.extraDelay

/-- The counters of the engine, the warning filter and the ready state are as before. -/
def KeepsTimers (s t : State) : Prop :=
  t.cycleCounter = s.cycleCounter ∧ t.scalerCounter = s.scalerCounter ∧
    t.warningFilter = s.warningFilter ∧ t.warningGenerated = s.warningGenerated ∧
    t.ready = s.ready

/-- The downlink state is as before. -/
def KeepsDownlink (s t : State) : Prop :=
  t.downlinkLatch = s.downlinkLatch ∧ t.downruptArmed = s.downruptArmed ∧
    t.downruptTime = s.downruptTime

/-- No prefix is pending: no index value, no extracode mode, no substitution. -/
def NoPrefix (t : State) : Prop :=
  t.indexValue = 0#15 ∧ t.extracode = false ∧ t.substitute = false

/-- The frame of an instruction that writes the listed places, and no channel: everything else is as
before, and the prefixes are cleared (spec/41_execution_cycle.md R170). -/
def WritesOnly (s t : State) (written : List Place) : Prop :=
  KeepsPlaces s t written ∧ KeepsChannels s t [] ∧ KeepsInterrupts s t ∧ KeepsDelays s t ∧
    KeepsTimers s t ∧ KeepsDownlink s t ∧ NoPrefix t

/-- The places that a store to a place writes: itself, and for one of EB, FB and BB those that follow
it (spec/20_memory.md R64 to R66). -/
def writtenPlaces : Place → List Place
  | .reg n =>
    if n = 3 then [.reg 3, .reg 6]
    else if n = 4 then [.reg 4, .reg 6]
    else if n = 6 then [.reg 3, .reg 4, .reg 6]
    else [.reg n]
  | .ram bank offset => [.ram bank offset]
  | .rom bank offset => [.rom bank offset]

/-- The places that a store to `addr` writes (R61 to R66). -/
def storedPlaces (s : State) (addr : W12) : List Place := writtenPlaces (resolve s addr)

/-- What an address reads as after `MemWrite(addr, v)`, where it read `old` before (R62, R63). -/
def readBack (addr : W12) (v old : W16) : W16 :=
  if addr.toNat ≤ 2 then v
  else if addr.toNat = 3 then v &&& 0o003400#16
  else if addr.toNat = 4 then v &&& 0o076000#16
  else if addr.toNat = 5 then v &&& 0o007777#16
  else if addr.toNat = 6 then v &&& 0o076007#16
  else if addr.toNat = 7 then 0#16
  else if addr.toNat ≤ 0o1777 then v &&& 0o077777#16
  else old

/-- What an erasable address reads as after `Wr16(addr, v)` (R79). -/
def readBack16 (addr : W12) (v : W16) : W16 :=
  if addr.toNat ≤ 2 then v else readBack addr ((overflowCorrect v).setWidth 16) 0#16

/-- The word of an instruction, its mode and its cycle count, as its rule gives them. -/
def HasWord (i : Instr) (extracode : Bool) (word cycles : Nat) : Prop :=
  i.isExtracode = extracode ∧ (encode i).toNat = word ∧ config.mct i = cycles

/-! ## The invariant -/

/-- What holds of the machine at reset and after every Step and every host operation: the stores are
canonical, EB, FB and BB hold only their own bits and agree (R25 to R27), the delay counters, the
last slot, the latch and the warning filter are in their ranges (R39, R46, R49, R50), and no index
waits beside a substitution (R165). -/
structure Consistent (s : State) : Prop where
  /-- Erasable memory is canonical. -/
  ram : Memory.wf blankCell ramSize s.ram = true
  /-- Fixed memory is canonical. -/
  rom : Memory.wf blankCell romSize s.rom = true
  /-- The channel array is canonical. -/
  chan : Memory.wf config.ioReset chanSize s.chan = true
  /-- `EB = EB & 03400` (R25). -/
  eb : s.eb = s.eb &&& 0o03400#15
  /-- `FB = FB & 076000` (R26). -/
  fb : s.fb = s.fb &&& 0o76000#15
  /-- `BB = FB | (EB >> 8)` (R27). -/
  bb : s.bb = s.fb ||| (s.eb >>> 8)
  /-- `pend_delay` is 0 where nothing is charged (R38). -/
  idle : s.pendFlag = false → s.pendDelay = 0
  /-- `pend_delay` is at most 4 (R39). -/
  pendDelay : s.pendDelay ≤ 4
  /-- `irq[0]` is a slot number or 0 (R46). -/
  irqLast : s.irqLast ≤ 10
  /-- The latch is cleared when both bits come together (R84). -/
  downlinkLatch : s.downlinkLatch ≠ 3#2
  /-- `warning_filter` is at most `WF_MAX` (R49). -/
  warningFilter : s.warningFilter ≤ config.wfMax
  /-- The index value is 0 where the next word is substituted (R165). -/
  substitute : s.substitute = true → s.indexValue = 0#15

/-! ## The diagnostic of a placeholder -/

/-- The instructions that are accepted by the decoder and do nothing (spec/45_arithmetic_logic.md R268
to R270): AUG, DIM, SU. A claim about a program that runs one rests on a stub. -/
def isPlaceholder : Instr → Bool
  | .aug _ | .dim _ | .su _ => true
  | .xxalq | .xlq | .ret | .relint | .inhint | .extend | .resume => false
  | .tc _ | .ccs _ | .tcf _ | .das _ | .lxch _ | .incr _ | .ads _ | .ca _ | .cs _ => false
  | .index _ | .dxch _ | .ts _ | .xch _ | .ad _ | .mask _ => false
  | .read _ | .write _ | .rand _ | .wand _ | .ror _ | .wor _ | .rxor _ | .edrupt _ => false
  | .dv _ | .bzf _ | .msu _ | .qxch _ | .dca _ | .dcs _ => false
  | .indexTwo _ | .bzmf _ | .mp _ => false

/-- The diagnostic of a Step (R268): the placeholder instruction that it runs, if it runs one. An
observation outside the state (log 11). -/
def stepDiagnostic (s : State) : Option Instr :=
  match planStep s with
  | .run i _ => if isPlaceholder i then some i else none
  | .refuse _ => none
  | .wait _ => none
  | .enter _ => none

end Sys2Proof.Machine
end

