-- ==== Sys2Proof/Certificates/Slice0/Obligations.lean ====
section
/-! DEFINITION. The statements for the provers. Each says what an instruction or the machine does, by
the rules of spec/ its docstring names; `beginExecute s` is the state after the four writes that
precede every instruction's effect (spec/41_execution_cycle.md R170), which
`Obligations.FourWritesPrecedeEffect` states. -/

open Sys2Proof Sys2Proof.Machine

/-! ## Encoding (spec/30_encoding.md) -/

/-- Decoding the word of a well-formed instruction, in its mode, gives the instruction: no bit of an
address field is dropped (R101 to R108). -/
def Obligations.DecodeOfEncode : Prop :=
  ∀ i : Instr, i.wellFormed = true → decode i.isExtracode (encode i) = i

/-- Every word decodes, in both modes, to a well-formed instruction of that mode whose word it is: the
decoder is total and every word has one meaning in each mode (R103, R109). -/
def Obligations.EncodeOfDecode : Prop :=
  ∀ (x : Bool) (w : W15),
    (decode x w).wellFormed = true ∧ (decode x w).isExtracode = x ∧ encode (decode x w) = w

/-- Basic mode, code 0 (R104): the test is on the whole word. -/
def Obligations.LiteralWordsOfBasicMode : Prop :=
  ∀ w : W15, w.toNat < 0o10000 →
    decode false w =
      if w = 0#15 then .xxalq
      else if w = 1#15 then .xlq
      else if w = 2#15 then .ret
      else if w = 3#15 then .relint
      else if w = 4#15 then .inhint
      else if w = 6#15 then .extend
      else .tc (w.setWidth 12)

/-- Words of every family, written out from the spec's tables (R104 to R108), decode to the
instructions they stand for. -/
def Obligations.WrittenWordsDecode : Prop :=
  decode false 0o004000#15 = .tc 0o4000#12 ∧ decode false 0o010100#15 = .ccs 0o100#10 ∧
    decode false 0o014003#15 = .tcf 0o4003#12 ∧ decode false 0o050017#15 = .resume ∧
    decode true 0o050017#15 = .indexTwo 0o17#12 ∧ decode false 0o030100#15 = .ca 0o100#12 ∧
    decode false 0o052101#15 = .dxch 0o101#10 ∧ decode false 0o020101#15 = .das 0o101#10 ∧
    decode true 0o070100#15 = .mp 0o100#12 ∧ decode true 0o010100#15 = .dv 0o100#10 ∧
    decode true 0o064100#15 = .bzmf 0o4100#12 ∧ decode true 0o003012#15 = .wand 0o12#9 ∧
    decode true 0o000006#15 = .read 0o6#9 ∧ decode true 0o007000#15 = .edrupt 0#9

/-! ## Arithmetic (spec/40_arithmetic_primitives.md, spec/46_divide.md) -/

/-- Widening and narrowing (R132). -/
def Obligations.OverflowCorrectOfSignExtend : Prop :=
  (∀ v : W15, overflowCorrect (signExtend v) = v) ∧
    ∀ x : W16, signExtend (overflowCorrect x) = x ↔ ovf x = 0#15

/-- The laws of the adder on sign-extended words (R133, R134; the spec derives them in R135): exact in
range, -0 for a zero sum of other than two +0, and overflow with the sign kept out of range. -/
def Obligations.AdditionLaws : Prop :=
  ∀ a b : W15,
    let sum := wordToInt a + wordToInt b
    let r := add16 (signExtend a) (signExtend b)
    (-16383 ≤ sum ∧ sum ≤ 16383 ∧ sum ≠ 0 → r = signExtend (intToWord sum)) ∧
      (sum = 0 → r = if a = 0#15 ∧ b = 0#15 then 0#16 else 0o177777#16) ∧
      (16383 < sum → ovf r = 0o00001#15 ∧ r.getLsbD 15 = false ∧
        ((overflowCorrect r).toNat : Int) = sum - 16384) ∧
      (sum < -16383 → ovf r = 0o77776#15 ∧ r.getLsbD 15 = true ∧
        ((~~~(overflowCorrect r)).toNat : Int) = -sum - 16384)

/-- A pair and its decent form stand for the same integer, whatever the signs of the two words, and
the pair of a decent form has words of one sign (R139, R141 to R143). -/
def Obligations.PairAndDecentAgree : Prop :=
  ∀ msw lsw : W15,
    let d := pairToDecent msw lsw
    let p := decentToPair d
    decentToInt d = wordToInt msw * 16384 + wordToInt lsw ∧
      wordToInt p.1 * 16384 + wordToInt p.2 = decentToInt d ∧
      p.1.getLsbD 14 = p.2.getLsbD 14

/-- The product of two words that are not zeros is exact over its two words, and both carry its sign
(R266 with R139, R141, R142). -/
def Obligations.ProductIsExact : Prop :=
  ∀ op other : W15, isZero15 op = false → isZero15 other = false →
    let p := product op other
    wordToInt p.1 * 16384 + wordToInt p.2 = wordToInt op * wordToInt other ∧
      p.1.getLsbD 14 = (op.getLsbD 14 ^^ other.getLsbD 14) ∧ p.2.getLsbD 14 = p.1.getLsbD 14

/-- The divide procedure in range (R291; the spec derives the law, R293). (a) With the sign-agreeing
dividend's upper magnitude below the divisor's, A is the quotient truncated toward zero and L the
remainder; a zero quotient is -0 where the operand signs differ, and a zero remainder has the sign of
the dividend. (b) With the two magnitudes equal and not zero, and a zero below, A is the greatest
magnitude with the sign of the quotient and L the dividend's upper word. (c) With all three zeros, A is
the greatest magnitude, positive where the dividend's sign is the divisor's, and L stays. -/
def Obligations.DivideInRange : Prop :=
  ∀ a l k : W15,
    let dec := pairToDecent a l
    let upper := (decentToPair dec).1
    let lower := (decentToPair dec).2
    let dividend := decentToInt dec
    let divisor := wordToInt k
    let result := divSim (signExtend a) (signExtend l) (signExtend k)
    ((abs15 upper).toNat < (abs15 k).toNat →
      result =
        (if dividend.tdiv divisor ≠ 0 then signExtend (intToWord (dividend.tdiv divisor))
          else if dec.getLsbD 29 ≠ k.getLsbD 14 then 0o177777#16 else 0#16,
         if dividend.tmod divisor ≠ 0 then signExtend (intToWord (dividend.tmod divisor))
          else if dec.getLsbD 29 then 0o177777#16 else 0#16)) ∧
    (abs15 upper = abs15 k ∧ isZero15 k = false ∧ isZero15 lower = true →
      result = (if upper.getLsbD 14 = k.getLsbD 14 then 0o037777#16 else 0o140000#16,
        signExtend upper)) ∧
    (isZero15 upper = true ∧ isZero15 lower = true ∧ isZero15 k = true →
      result = (if dec.getLsbD 29 = k.getLsbD 14 then 0o037777#16 else 0o140000#16,
        signExtend l))

/-! ## Memory, banks and channels (spec/20_memory.md) -/

/-- What the addresses below fixed memory read (R61, R62, R67, R70): the registers up to 060, ZERO
reading 0; erasable banks 0 to 2 up to 01377, whatever EB; the bank of EB above. And every read returns
the most recent write to the same cell (R87): a store to memory beyond the registers is seen at every
address that leads to the same erasable cell, cut to 15 bits, and changes what no other address reads
as; a store to fixed memory changes nothing (R63, R67 to R72). -/
def Obligations.ReadSeesLastWrite : Prop :=
  (∀ s : State,
    memRead s 0#12 = s.a ∧ memRead s 1#12 = s.l ∧ memRead s 2#12 = s.q ∧
      memRead s 3#12 = s.eb.setWidth 16 ∧ memRead s 4#12 = s.fb.setWidth 16 ∧
      memRead s 5#12 = s.z.setWidth 16 ∧ memRead s 6#12 = s.bb.setWidth 16 ∧
      memRead s 7#12 = 0#16) ∧
  (∀ (s : State) (addr : W12),
    let offset : BitVec 8 := BitVec.ofNat 8 (addr.toNat % 0o400)
    (addr.toNat ≤ 0o60 → memRead s addr = readReg s addr.toNat) ∧
    (0o61 ≤ addr.toNat ∧ addr.toNat ≤ 0o1377 →
      memRead s addr = (ramRead s (BitVec.ofNat 3 (addr.toNat / 0o400)) offset).setWidth 16) ∧
    (0o1400 ≤ addr.toNat ∧ addr.toNat ≤ 0o1777 →
      memRead s addr = (ramRead s (BitVec.ofNat 3 (s.eb.toNat / 0o400)) offset).setWidth 16)) ∧
  ∀ (s : State) (d d' : W12) (v : W16), 0o60 < d.toNat →
    memRead (memWrite s d v) d' =
      if resolve s d' = resolve s d ∧ d.toNat ≤ 0o1777 then v &&& 0o077777#16 else memRead s d'

/-- Writes to EB, FB and BB keep the three consistent (R64, R65, R66). -/
def Obligations.BankRegisterWrites : Prop :=
  ∀ (s : State) (v : W16),
    ((memWrite s 3#12 v).eb = v.setWidth 15 &&& 0o03400#15 ∧
      (memWrite s 3#12 v).bb = (s.bb &&& 0o76000#15) ||| ((v.setWidth 15 &&& 0o03400#15) >>> 8) ∧
      KeepsPlaces s (memWrite s 3#12 v) [.reg 3, .reg 6]) ∧
    ((memWrite s 4#12 v).fb = v.setWidth 15 &&& 0o76000#15 ∧
      (memWrite s 4#12 v).bb = (s.bb &&& 0o00007#15) ||| (v.setWidth 15 &&& 0o76000#15) ∧
      KeepsPlaces s (memWrite s 4#12 v) [.reg 4, .reg 6]) ∧
    ((memWrite s 6#12 v).bb = v.setWidth 15 &&& 0o76007#15 ∧
      (memWrite s 6#12 v).eb = (v.setWidth 15 &&& 0o00007#15) <<< 8 ∧
      (memWrite s 6#12 v).fb = v.setWidth 15 &&& 0o76000#15 ∧
      KeepsPlaces s (memWrite s 6#12 v) [.reg 3, .reg 4, .reg 6])

/-- The fixed windows (R68, R69): the common window shows the bank of FB, by 8 higher where its top two
bits are set and channel 07 has mask 0100; above it stand banks 2 and 3, whatever the bank
registers. -/
def Obligations.FixedWindows : Prop :=
  ∀ (s : State) (addr : W12),
    (0o2000 ≤ addr.toNat ∧ addr.toNat ≤ 0o3777 →
      memRead s addr =
        (romRead s
          (s.fb.toNat / 0o2000 +
            if s.fb.getLsbD 14 && s.fb.getLsbD 13 && (chanRead s 7).getLsbD 6 then 8 else 0)
          (BitVec.ofNat 10 (addr.toNat % 0o2000))).setWidth 16) ∧
    (0o4000 ≤ addr.toNat ∧ addr.toNat ≤ 0o5777 →
      memRead s addr = (romRead s 2 (BitVec.ofNat 10 (addr.toNat % 0o2000))).setWidth 16) ∧
    (0o6000 ≤ addr.toNat →
      memRead s addr = (romRead s 3 (BitVec.ofNat 10 (addr.toNat % 0o2000))).setWidth 16)

/-- Channel reads, for every integer the host may give (R81), and channel writes with the downlink
latch (R82, R84). -/
def Obligations.ChannelAccess : Prop :=
  (∀ (s : State) (ch : Int),
    hostReadIo s ch =
      if ch < 0 ∨ 0o777 < ch then 0#16
      else if ch = 1 then s.l
      else if ch = 2 then s.q
      else (chanRead s ch.toNat).setWidth 16) ∧
  ∀ (s : State) (c : Nat) (v : W16),
    let t := ioWrite s c v
    (0o777 < c → t = s) ∧
    (c = 1 → t = { s with l := v }) ∧
    (c = 2 → t = { s with q := v }) ∧
    (c ≤ 0o777 ∧ c ≠ 1 ∧ c ≠ 2 →
      chanRead t c = v.setWidth 15 ∧ KeepsChannels s t [c] ∧ KeepsPlaces s t [] ∧
      KeepsInterrupts s t ∧ KeepsDelays s t ∧ KeepsTimers s t ∧
      t.indexValue = s.indexValue ∧ t.extracode = s.extracode ∧ t.substitute = s.substitute) ∧
    (c ≠ 0o34 ∧ c ≠ 0o35 → KeepsDownlink s t) ∧
    (c = 0o34 ∨ c = 0o35 →
      let latch := s.downlinkLatch ||| (if c = 0o34 then 1#2 else 2#2)
      (latch = 3#2 → t.downlinkLatch = 0#2 ∧ t.downruptArmed = true ∧
        t.downruptTime = s.cycleCounter + config.downruptDelay) ∧
      (latch ≠ 3#2 → t.downlinkLatch = latch ∧ t.downruptArmed = s.downruptArmed ∧
        t.downruptTime = s.downruptTime))

/-- The image load (R75): every fixed word is the image's pair without its parity bit, banks 0 and 2
and banks 1 and 3 changing places, 0 where a byte is missing; the machine is then ready, and nothing
else changes; a second load is refused, which the spec infers from its source's "loaded once"
(log 9). -/
def Obligations.LoadPlacesImage : Prop :=
  ∀ (s : State) (image : List (BitVec 8)),
    (s.ready = true → loadImage s image = .refused .imageAlreadyLoaded) ∧
    (s.ready = false → ∃ t, loadImage s image = .next t ∧
      t = { s with rom := t.rom, ready := true } ∧
      ∀ (i : Nat) (o : W10), i < 40 →
        let w := i * 0o2000 + o.toNat
        let bank := if i = 0 then 2 else if i = 1 then 3 else if i = 2 then 0
          else if i = 3 then 1 else i
        (romRead t bank o).toNat =
          if 2 * w + 1 < image.length then
            ((image[2 * w]?.getD 0#8).toNat * 256 + (image[2 * w + 1]?.getD 0#8).toNat) / 2
          else 0)

/-! ## What every instruction does first -/

/-- The four writes before an instruction's effect (spec/41_execution_cycle.md R170): the prefixes are
cleared, Z advances by 1 on 12 bits, and nothing else changes. -/
def Obligations.FourWritesPrecedeEffect : Prop :=
  ∀ s : State, (beginExecute s).z.toNat = (s.z.toNat + 1) % 0o10000 ∧
    WritesOnly s (beginExecute s) [.reg 5]

/-! ## Control transfer (spec/42_control_transfer.md) -/

/-- TC (R190). -/
def Obligations.TcTransfersAndLinks : Prop :=
  ∀ (k : W12) (s : State), HasWord (.tc k) false k.toNat 1 ∧
    ∃ t, exec (.tc k) s = .next t ∧ t.z = k ∧
      (k ≠ 2#12 → t.q = (s.z + 1#12).setWidth 16 ∧ WritesOnly s t [.reg 5, .reg 2]) ∧
      (k = 2#12 → WritesOnly s t [.reg 5])

/-- XXALQ, XLQ, RETURN (R191, R192, R193). -/
def Obligations.LiteralTransfers : Prop :=
  ∀ s : State,
    (HasWord .xxalq false 0 1 ∧ ∃ t, exec .xxalq s = .next t ∧ t.z = 0#12 ∧
      t.q = (s.z + 1#12).setWidth 16 ∧ WritesOnly s t [.reg 5, .reg 2]) ∧
    (HasWord .xlq false 1 1 ∧ ∃ t, exec .xlq s = .next t ∧ t.z = 1#12 ∧
      t.q = (s.z + 1#12).setWidth 16 ∧ WritesOnly s t [.reg 5, .reg 2]) ∧
    (HasWord .ret false 2 1 ∧ ∃ t, exec .ret s = .next t ∧ t.z = 2#12 ∧ WritesOnly s t [.reg 5])

/-- TCF (R194). -/
def Obligations.TcfTransfers : Prop :=
  ∀ (k : W12) (s : State), HasWord (.tcf k) false (0o10000 + k.toNat) 1 ∧
    ∃ t, exec (.tcf k) s = .next t ∧ t.z = k ∧ WritesOnly s t [.reg 5]

/-- CCS (R195): A is the magnitude less 1, or 0; the next word, or the one 1, 2 or 3 after it, follows
as the operand is above +0, +0, below -0 or -0. An operand in A, L or Q has 15 magnitude bits and its
sign in bit 15; with overflow it counts by that sign. -/
def Obligations.CcsCountsAndSkips : Prop :=
  ∀ (k : W10) (s : State), HasWord (.ccs k) false (0o10000 + k.toNat) 2 ∧
    ∃ t, exec (.ccs k) s = .next t ∧ WritesOnly s t [.reg 0, .reg 5] ∧
      (2 < k.toNat →
        let op := (memRead (beginExecute s) (k.setWidth 12)).setWidth 15
        t.a.toNat = (wordToInt op).natAbs - 1 ∧
        t.z = s.z + 1#12 +
          (if 0 < wordToInt op then 0#12 else if op = 0#15 then 1#12
            else if wordToInt op < 0 then 2#12 else 3#12)) ∧
      (k.toNat ≤ 2 →
        let v := memRead s (k.setWidth 12)
        t.a.toNat = (if v.getLsbD 15 then (~~~v).toNat else v.toNat) - 1 ∧
        t.z = s.z + 1#12 +
          (if v = 0#16 then 1#12 else if v = 0o177777#16 then 3#12
            else if v.getLsbD 15 then 2#12 else 0#12))

/-- BZF and BZMF (R196, R197): the branch is taken where A is a zero, or where it is +0 or has bit 15
set; else the fall-through delay is charged. -/
def Obligations.ZeroBranches : Prop :=
  ∀ (k : W12) (s : State),
    (HasWord (.bzf k) true (0o10000 + k.toNat) 1 ∧
      (s.a = 0#16 ∨ s.a = 0o177777#16 →
        ∃ t, exec (.bzf k) s = .next t ∧ t.z = k ∧ WritesOnly s t [.reg 5]) ∧
      (s.a ≠ 0#16 ∧ s.a ≠ 0o177777#16 →
        exec (.bzf k) s = .next { beginExecute s with
          extraDelay := s.extraDelay + config.branchFallthroughDelay })) ∧
    (HasWord (.bzmf k) true (0o60000 + k.toNat) 1 ∧
      (s.a = 0#16 ∨ s.a.getLsbD 15 = true →
        ∃ t, exec (.bzmf k) s = .next t ∧ t.z = k ∧ WritesOnly s t [.reg 5]) ∧
      (s.a ≠ 0#16 ∧ s.a.getLsbD 15 = false →
        exec (.bzmf k) s = .next { beginExecute s with
          extraDelay := s.extraDelay + config.branchFallthroughDelay }))

/-! ## Sequence control (spec/43_sequence_control.md) -/

/-- RELINT, INHINT, EXTEND (R210, R211, R212): one flag each. -/
def Obligations.FlagInstructions : Prop :=
  ∀ s : State,
    (HasWord .relint false 3 1 ∧
      exec .relint s = .next { beginExecute s with intEnabled := true }) ∧
    (HasWord .inhint false 4 1 ∧
      exec .inhint s = .next { beginExecute s with intEnabled := false }) ∧
    (HasWord .extend false 6 1 ∧
      exec .extend s = .next { beginExecute s with extracode := true })

/-- INDEX and INDEX_2 (R213, R215): the operand, A, L, Q being corrected, waits for the next fetch;
INDEX_2 also selects extracode mode; INDEX 017 is RESUME. -/
def Obligations.IndexPrefixes : Prop :=
  ∀ s : State,
    (∀ k : W10, HasWord (.index k) false (0o50000 + k.toNat) 2 ∧
      (k ≠ 0o17#10 → exec (.index k) s = .next { beginExecute s with
        indexValue :=
          if k.toNat ≤ 2 then overflowCorrect (memRead s (k.setWidth 12))
          else (memRead (beginExecute s) (k.setWidth 12)).setWidth 15 }) ∧
      (k = 0o17#10 → exec (.index k) s = exec .resume s)) ∧
    (∀ k : W12, HasWord (.indexTwo k) true (0o50000 + k.toNat) 2 ∧
      exec (.indexTwo k) s = .next { beginExecute s with
        extracode := true
        indexValue :=
          if k.toNat ≤ 2 then overflowCorrect (memRead s k)
          else (memRead (beginExecute s) k).setWidth 15 })

/-- RESUME (R214): three writes; the interrupt-enable flag and every saved register stay. -/
def Obligations.ResumeReturns : Prop :=
  ∀ s : State, HasWord .resume false 0o50017 2 ∧
    ∃ t, exec .resume s = .next t ∧
      t.z.toNat = ((plainReg s 0o15).toNat + 0o7777) % 0o10000 ∧
      t.inIsr = false ∧ t.substitute = true ∧ t.indexValue = 0#15 ∧ t.extracode = false ∧
      t.intEnabled = s.intEnabled ∧ t.irq = s.irq ∧ t.irqLast = s.irqLast ∧
      KeepsPlaces s t [.reg 5] ∧ KeepsChannels s t [] ∧ KeepsDelays s t ∧ KeepsTimers s t ∧
      KeepsDownlink s t

/-- EDRUPT (R216, R339): it enters the pending request of the lowest slot, or, with none pending,
address 0 with the requests as they are; ZRUPT and BRUPT are saved, the prefixes cleared, the service
flag set, one unit of extra delay charged. The rules place this entry at the fetch of EDRUPT; that it
is EDRUPT's meaning in `exec`, from the state of the fetch, is the model's choice (log 6). -/
def Obligations.EdruptAlwaysEnters : Prop :=
  ∀ (k : W9) (s : State), HasWord (.edrupt k) true (0o7000 + k.toNat) 3 ∧
    ∃ t, exec (.edrupt k) s = .next t ∧
      (∀ n, 1 ≤ n → n ≤ 10 → irqPending s n = true →
        (∀ m, 1 ≤ m → m < n → irqPending s m = false) →
        t.z.toNat = 0o4000 + 4 * n ∧ t.irqLast = n ∧ irqPending t n = false ∧
        ∀ m, m ≠ n → irqPending t m = irqPending s m) ∧
      ((∀ n, 1 ≤ n → n ≤ 10 → irqPending s n = false) →
        t.z = 0#12 ∧ t.irq = s.irq ∧ t.irqLast = s.irqLast) ∧
      (plainReg t 0o15).toNat = s.z.toNat + 1 ∧ (plainReg t 0o17).toNat = 0o7000 + k.toNat ∧
      t.inIsr = true ∧ t.intEnabled = s.intEnabled ∧ NoPrefix t ∧
      t.extraDelay = s.extraDelay + 1 ∧ t.pendFlag = s.pendFlag ∧ t.pendDelay = s.pendDelay ∧
      KeepsPlaces s t [.reg 5, .reg 0o15, .reg 0o17] ∧ KeepsChannels s t [] ∧ KeepsTimers s t ∧
      KeepsDownlink s t

/-! ## Load, store and exchange (spec/44_load_store_exchange.md) -/

/-- The 16-bit operand read (R78): all 16 bits of A, L and Q, and the sign-extended word of any other
address. CA and CS load it and its complement (R230, R231). -/
def Obligations.LoadsOfA : Prop :=
  (∀ (s : State) (k : W12), rd16 s k =
    if k = 0#12 then s.a else if k = 1#12 then s.l else if k = 2#12 then s.q
    else signExtend ((memRead s k).setWidth 15)) ∧
  ∀ (k : W12) (s : State),
    (HasWord (.ca k) false (0o30000 + k.toNat) 2 ∧
      ∃ t, exec (.ca k) s = .next t ∧ t.a = rd16 (beginExecute s) k ∧ t.z = s.z + 1#12 ∧
        WritesOnly s t [.reg 0, .reg 5]) ∧
    (HasWord (.cs k) false (0o40000 + k.toNat) 2 ∧
      ∃ t, exec (.cs k) s = .next t ∧ t.a = ~~~(rd16 (beginExecute s) k) ∧ t.z = s.z + 1#12 ∧
        WritesOnly s t [.reg 0, .reg 5])

/-- DCA and DCS (R232, R233): the second word, corrected, to L, then the first to A, which for field
2 is the L just written; field 1 is the pair (A, L) itself; field 0 is refused. -/
def Obligations.DoubleLoads : Prop :=
  ∀ (f : W12) (s : State),
    (HasWord (.dca f) true (0o30000 + f.toNat) 3 ∧
      (f = 0#12 → exec (.dca f) s = .refused .dcaFieldZero) ∧
      (f ≠ 0#12 → ∃ t, exec (.dca f) s = .next t ∧ t.z = s.z + 1#12 ∧
        WritesOnly s t [.reg 0, .reg 1, .reg 5] ∧
        t.l = signExtend (overflowCorrect (rd16 (beginExecute s) f)) ∧
        t.a = if f = 2#12 then t.l else rd16 (beginExecute s) (f - 1#12))) ∧
    (HasWord (.dcs f) true (0o40000 + f.toNat) 3 ∧
      (f = 0#12 → exec (.dcs f) s = .refused .dcsFieldZero) ∧
      (f ≠ 0#12 → ∃ t, exec (.dcs f) s = .next t ∧ t.z = s.z + 1#12 ∧
        WritesOnly s t [.reg 0, .reg 1, .reg 5] ∧
        t.l = signExtend (overflowCorrect (~~~(rd16 (beginExecute s) f))) ∧
        t.a = if f = 2#12 then ~~~t.l else ~~~(rd16 (beginExecute s) (f - 1#12))))

/-- TS (R234). TS A skips on overflow and changes nothing else; TS Z jumps; any other address takes A,
and where A has overflow A becomes +1 or -1 and the next word is skipped. -/
def Obligations.TsStoresAndSkips : Prop :=
  ∀ (k : W10) (s : State), HasWord (.ts k) false (0o54000 + k.toNat) 2 ∧
    let ovfl := s.a.getLsbD 15 != s.a.getLsbD 14
    let one : W16 := if s.a.getLsbD 15 then 0o177776#16 else 0o000001#16
    let next : W12 := s.z + 1#12 + (if ovfl then 1#12 else 0#12)
    ∃ t, exec (.ts k) s = .next t ∧
      (k = 0#10 → t.z = next ∧ WritesOnly s t [.reg 5]) ∧
      (k = 5#10 → t.z = s.a.setWidth 12 ∧ t.a = (if ovfl then one else s.a) ∧
        WritesOnly s t [.reg 0, .reg 5]) ∧
      (k ≠ 0#10 ∧ k ≠ 5#10 → t.z = next ∧ t.a = (if ovfl then one else s.a) ∧
        memRead t (k.setWidth 12) = readBack16 (k.setWidth 12) s.a ∧
        WritesOnly s t ([.reg 0, .reg 5] ++ storedPlaces s (k.setWidth 12)))

/-- XCH, LXCH, QXCH (R235, R237, R238): the register takes the word, the location the register's old
value; the register's own address changes nothing; an exchange with Z jumps. -/
def Obligations.Exchanges : Prop :=
  ∀ (k : W10) (s : State),
    let d : W12 := k.setWidth 12
    (HasWord (.xch k) false (0o56000 + k.toNat) 2 ∧
      (k = 0#10 → exec (.xch k) s = .next (beginExecute s)) ∧
      (k ≠ 0#10 → ∃ t, exec (.xch k) s = .next t ∧ t.a = rd16 (beginExecute s) d ∧
        memRead t d = readBack16 d s.a ∧ (k ≠ 5#10 → t.z = s.z + 1#12) ∧
        WritesOnly s t ([.reg 0, .reg 5] ++ storedPlaces s d))) ∧
    (HasWord (.lxch k) false (0o22000 + k.toNat) 2 ∧
      (k = 1#10 → exec (.lxch k) s = .next (beginExecute s)) ∧
      (k ≠ 1#10 → ∃ t, exec (.lxch k) s = .next t ∧ t.l = rd16 (beginExecute s) d ∧
        memRead t d = readBack16 d s.l ∧ (k ≠ 5#10 → t.z = s.z + 1#12) ∧
        WritesOnly s t ([.reg 1, .reg 5] ++ storedPlaces s d))) ∧
    (HasWord (.qxch k) true (0o22000 + k.toNat) 2 ∧
      (k = 2#10 → exec (.qxch k) s = .next (beginExecute s)) ∧
      (k ≠ 2#10 → ∃ t, exec (.qxch k) s = .next t ∧ t.q = rd16 (beginExecute s) d ∧
        memRead t d = readBack16 d s.q ∧ (k ≠ 5#10 → t.z = s.z + 1#12) ∧
        WritesOnly s t ([.reg 2, .reg 5] ++ storedPlaces s d)))

/-- DXCH (R239): L is exchanged with the second word first, then A with the first word; field 1 only
corrects L; field 0 is refused. The next state is written out as the two exchanges, and then what it
holds: for fields from 062 up, for the pair (L, Q), and for the two pairs that have Z in them. -/
def Obligations.DxchExchangesPair : Prop :=
  ∀ (f : W10) (s : State), HasWord (.dxch f) false (0o52000 + f.toNat) 3 ∧
    let d : W12 := f.setWidth 12
    let s1 := beginExecute s
    let s2 := { wr16 s1 d s.l with l := rd16 s1 d }
    (f = 0#10 → exec (.dxch f) s = .refused .dxchFieldZero) ∧
    (f = 1#10 → exec (.dxch f) s = .next { s1 with l := signExtend (overflowCorrect s.l) }) ∧
    (1 < f.toNat →
      let t := { wr16 s2 (d - 1#12) s.a with a := rd16 s2 (d - 1#12) }
      exec (.dxch f) s = .next t ∧
      (f ≠ 2#10 → t.l = rd16 s1 d) ∧
      (f = 2#10 → t.q = s.l ∧ t.l = s.a ∧ t.a = s.q) ∧
      (0o61 < f.toNat → memRead t d = (overflowCorrect s.l).setWidth 16 ∧
        memRead t (d - 1#12) = (overflowCorrect s.a).setWidth 16 ∧ t.z = s.z + 1#12 ∧
        t.a = rd16 s (d - 1#12) ∧ t.l = rd16 s d) ∧
      (f = 5#10 → t.z = (overflowCorrect s.l).setWidth 12 ∧
        t.fb = overflowCorrect s.a &&& 0o76000#15 ∧ t.l = signExtend ((s.z + 1#12).setWidth 15)) ∧
      (f = 6#10 → t.z = (overflowCorrect s.a).setWidth 12 ∧
        t.bb = overflowCorrect s.l &&& 0o76007#15 ∧ t.a = signExtend ((s.z + 1#12).setWidth 15)) ∧
      WritesOnly s t ([.reg 0, .reg 1, .reg 5] ++ storedPlaces s d ++ storedPlaces s (d - 1#12)))

/-! ## Arithmetic and logic (spec/45_arithmetic_logic.md) -/

/-- AD and MASK (R260, R264). -/
def Obligations.AccumulatorArithmetic : Prop :=
  ∀ (k : W12) (s : State),
    (HasWord (.ad k) false (0o60000 + k.toNat) 2 ∧
      ∃ t, exec (.ad k) s = .next t ∧ t.a = add16 s.a (rd16 (beginExecute s) k) ∧
        t.z = s.z + 1#12 ∧ WritesOnly s t [.reg 0, .reg 5]) ∧
    (HasWord (.mask k) false (0o70000 + k.toNat) 2 ∧
      ∃ t, exec (.mask k) s = .next t ∧
        t.a = (if k.toNat ≤ 2 then s.a &&& memRead s k
          else signExtend (overflowCorrect s.a &&& (memRead (beginExecute s) k).setWidth 15)) ∧
        t.z = s.z + 1#12 ∧ WritesOnly s t [.reg 0, .reg 5])

/-- ADS and INCR (R261, R262): the sum goes to the location, corrected where it is not A, L or Q; ADS
leaves it in A too. -/
def Obligations.StorageSums : Prop :=
  ∀ (k : W10) (s : State),
    let d : W12 := k.setWidth 12
    (HasWord (.ads k) false (0o26000 + k.toNat) 2 ∧
      ∃ t, exec (.ads k) s = .next t ∧ t.a = add16 s.a (rd16 (beginExecute s) d) ∧
        memRead t d = readBack16 d t.a ∧ (k ≠ 5#10 → t.z = s.z + 1#12) ∧
        WritesOnly s t ([.reg 0, .reg 5] ++ storedPlaces s d)) ∧
    (HasWord (.incr k) false (0o24000 + k.toNat) 2 ∧
      ∃ t, exec (.incr k) s = .next t ∧
        memRead t d = readBack16 d (add16 1#16 (rd16 (beginExecute s) d)) ∧
        (k ≠ 5#10 → t.z = s.z + 1#12) ∧
        WritesOnly s t ([.reg 5] ++ storedPlaces s d))

/-- DAS (R263): both halves are added, the lower one's overflow carries into the upper, the sums are
stored, lower first, and A holds the overflow of the whole and L is +0; field 1 doubles (A, L); field 0
is refused. -/
def Obligations.DasStoresSums : Prop :=
  ∀ (f : W10) (s : State), HasWord (.das f) false (0o20000 + f.toNat) 3 ∧
    let d : W12 := f.setWidth 12
    let s1 := beginExecute s
    let carry (msw lsw : W16) : W16 :=
      if ovf lsw = 0o00001#15 then add16 msw 0o000001#16
      else if ovf lsw = 0o77776#15 then add16 msw 0o177776#16 else msw
    (f = 0#10 → exec (.das f) s = .refused .dasFieldZero) ∧
    (f = 1#10 → ∃ t, exec (.das f) s = .next t ∧
      t.a = carry (add16 s.a s.a) (add16 s.l s.l) ∧
      t.l = signExtend (overflowCorrect (add16 s.l s.l)) ∧ t.z = s.z + 1#12 ∧
      WritesOnly s t [.reg 0, .reg 1, .reg 5]) ∧
    (1 < f.toNat →
      let lsw := add16 s.l (rd16 s1 d)
      let msw := carry (add16 s.a (rd16 s1 (d - 1#12))) lsw
      let ovfl : W16 := if ovf msw = 0o00001#15 then 0o000001#16
        else if ovf msw = 0o77776#15 then 0o177776#16 else 0#16
      let t := wr16 (wr16 { s1 with a := ovfl, l := 0#16 } d (signExtend (overflowCorrect lsw)))
        (d - 1#12) msw
      exec (.das f) s = .next t ∧ t.a = ovfl ∧ (f ≠ 2#10 → t.l = 0#16) ∧
      (0o61 < f.toNat → memRead t d = (overflowCorrect lsw).setWidth 16 ∧
        memRead t (d - 1#12) = (overflowCorrect msw).setWidth 16 ∧ t.z = s.z + 1#12) ∧
      WritesOnly s t ([.reg 0, .reg 1, .reg 5] ++ storedPlaces s d ++ storedPlaces s (d - 1#12)))

/-- DAS on a pair in memory adds the integers the pairs stand for (R263 with R139): with A and L
without overflow, the stored pair and the overflow left in A, weighted 2^28, make up the sum. -/
def Obligations.DasAddsDoublePrecision : Prop :=
  ∀ (f : W10) (s : State) (x y : W15), 0o61 < f.toNat → s.a = signExtend x → s.l = signExtend y →
    let d : W12 := f.setWidth 12
    let pair (u : State) : Int :=
      wordToInt ((memRead u (d - 1#12)).setWidth 15) * 16384 +
        wordToInt ((memRead u d).setWidth 15)
    ∃ t, exec (.das f) s = .next t ∧
      wordToInt (overflowCorrect t.a) * 268435456 + pair t =
        wordToInt x * 16384 + wordToInt y + pair s

/-- MSU (R265): the two's-complement difference, made one's-complement where bit 14 is set; with a
15-bit operand, on 15 bits; with A, L or Q on all bits, of which Q alone keeps 16. -/
def Obligations.MsuSubtractsModularly : Prop :=
  ∀ (k : W10) (s : State), HasWord (.msu k) true (0o20000 + k.toNat) 2 ∧
    let d : W12 := k.setWidth 12
    let ui : Nat := if k.toNat ≤ 2 then s.a.toNat else (overflowCorrect s.a).toNat
    let uj : Nat := if k.toNat ≤ 2 then 0o177777 - (memRead s d).toNat
      else 0o77777 - (memRead (beginExecute s) d).toNat
    let sum : Nat := ui + uj + 1
    let diff : Nat := if sum.testBit 14 then (sum ||| 0o100000) - 1 else sum
    ∃ t, exec (.msu k) s = .next t ∧ t.z = s.z + 1#12 ∧ WritesOnly s t [.reg 0, .reg 5] ∧
      t.a = if k.toNat = 2 then BitVec.ofNat 16 diff else signExtend (BitVec.ofNat 15 diff)

/-- MP (R266): the product of the corrected A and the operand, the upper word in A, the lower in L; the
rules for zeros. -/
def Obligations.MpMultiplies : Prop :=
  ∀ (k : W12) (s : State),
    let op := overflowCorrect s.a
    let other := if k.toNat ≤ 2 then overflowCorrect (memRead s k)
      else (memRead (beginExecute s) k).setWidth 15
    let minus (v : W15) : Bool := v.getLsbD 14
    HasWord (.mp k) true (0o70000 + k.toNat) 3 ∧ ∃ t, exec (.mp k) s = .next t ∧
      t.z = s.z + 1#12 ∧
      WritesOnly s t [.reg 0, .reg 1, .reg 5] ∧
      (isZero15 other = true → t.a = 0#16 ∧ t.l = 0#16) ∧
      (isZero15 other = false ∧ isZero15 op = true →
        let zero : W16 := if minus op != minus other then 0o177777#16 else 0#16
        t.a = zero ∧ t.l = zero) ∧
      (isZero15 other = false ∧ isZero15 op = false →
        wordToInt (overflowCorrect t.a) * 16384 + wordToInt (overflowCorrect t.l) =
          wordToInt op * wordToInt other ∧
        minus (overflowCorrect t.a) = (minus op != minus other) ∧
        minus (overflowCorrect t.l) = (minus op != minus other) ∧
        ovf t.a = 0#15 ∧ ovf t.l = 0#15)

/-- AUG, DIM and SU do nothing but what every instruction does (R268, R269, R270), and each is marked
as a placeholder; no other instruction is. -/
def Obligations.PlaceholdersDoNothing : Prop :=
  (∀ (k : W10) (s : State),
    HasWord (.aug k) true (0o24000 + k.toNat) 2 ∧ exec (.aug k) s = .next (beginExecute s) ∧
    HasWord (.dim k) true (0o26000 + k.toNat) 2 ∧ exec (.dim k) s = .next (beginExecute s) ∧
    HasWord (.su k) true (0o60000 + k.toNat) 2 ∧ exec (.su k) s = .next (beginExecute s)) ∧
  ∀ i : Instr, isPlaceholder i = true ↔ ∃ k, i = .aug k ∨ i = .dim k ∨ i = .su k

/-- DV (R290): A takes the quotient and L the remainder of the procedure of R291; a divisor in A or L
is refused. -/
def Obligations.DvDivides : Prop :=
  ∀ (k : W10) (s : State), HasWord (.dv k) true (0o10000 + k.toNat) 6 ∧
    (k.toNat ≤ 1 → exec (.dv k) s = .refused .dvDivisorInDividend) ∧
    (1 < k.toNat → ∃ t, exec (.dv k) s = .next t ∧
      (t.a, t.l) = divSim s.a s.l (rd16 (beginExecute s) (k.setWidth 12)) ∧ t.z = s.z + 1#12 ∧
      WritesOnly s t [.reg 0, .reg 1, .reg 5])

/-! ## I/O channel instructions (spec/47_io_instructions.md) -/

/-- READ, RAND, ROR, RXOR (R311, R313, R315, R317): A takes the channel, or A and the channel combined,
on 16 bits for L and Q and on 15 bits for any other channel; the channel is unchanged. -/
def Obligations.ChannelInputs : Prop :=
  ∀ (c : W9) (s : State),
    let wide := c.toNat = 1 ∨ c.toNat = 2
    let reg : W16 := if c.toNat = 1 then s.l else s.q
    let chan := chanRead s c.toNat
    let acc := overflowCorrect s.a
    (HasWord (.read c) true c.toNat 2 ∧ ∃ t, exec (.read c) s = .next t ∧
      (wide → t.a = reg) ∧ (¬wide → t.a = signExtend chan) ∧
      t.z = s.z + 1#12 ∧ WritesOnly s t [.reg 0, .reg 5]) ∧
    (HasWord (.rand c) true (0o2000 + c.toNat) 2 ∧ ∃ t, exec (.rand c) s = .next t ∧
      (wide → t.a = s.a &&& reg) ∧ (¬wide → t.a = signExtend (acc &&& chan)) ∧
      t.z = s.z + 1#12 ∧ WritesOnly s t [.reg 0, .reg 5]) ∧
    (HasWord (.ror c) true (0o4000 + c.toNat) 2 ∧ ∃ t, exec (.ror c) s = .next t ∧
      (wide → t.a = s.a ||| reg) ∧ (¬wide → t.a = signExtend (acc ||| chan)) ∧
      t.z = s.z + 1#12 ∧ WritesOnly s t [.reg 0, .reg 5]) ∧
    (HasWord (.rxor c) true (0o6000 + c.toNat) 2 ∧ ∃ t, exec (.rxor c) s = .next t ∧
      (wide → t.a = s.a ^^^ reg) ∧ (¬wide → t.a = signExtend (acc ^^^ chan)) ∧
      t.z = s.z + 1#12 ∧ WritesOnly s t [.reg 0, .reg 5])

/-- WRITE, WAND, WOR (R312, R314, R316): the value goes to L or Q on 16 bits, to any other channel on
15 bits through the channel write of R82, with its downlink effect; WAND and WOR leave it in A too,
WRITE leaves A. -/
def Obligations.ChannelOutputs : Prop :=
  ∀ (c : W9) (s : State),
    let wide := c.toNat = 1 ∨ c.toNat = 2
    let reg : W16 := if c.toNat = 1 then s.l else s.q
    let chan := chanRead s c.toNat
    let acc := overflowCorrect s.a
    let s1 := beginExecute s
    (HasWord (.write c) true (0o1000 + c.toNat) 2 ∧
      (wide → exec (.write c) s = .next (ioWrite s1 c.toNat s.a)) ∧
      (¬wide → exec (.write c) s = .next (ioWrite s1 c.toNat (acc.setWidth 16)))) ∧
    (HasWord (.wand c) true (0o3000 + c.toNat) 2 ∧
      (wide → exec (.wand c) s =
        .next (ioWrite { s1 with a := s.a &&& reg } c.toNat (s.a &&& reg))) ∧
      (¬wide → exec (.wand c) s = .next (ioWrite { s1 with a := signExtend (acc &&& chan) } c.toNat
        ((acc &&& chan).setWidth 16)))) ∧
    (HasWord (.wor c) true (0o5000 + c.toNat) 2 ∧
      (wide → exec (.wor c) s =
        .next (ioWrite { s1 with a := s.a ||| reg } c.toNat (s.a ||| reg))) ∧
      (¬wide → exec (.wor c) s = .next (ioWrite { s1 with a := signExtend (acc ||| chan) } c.toNat
        ((acc ||| chan).setWidth 16))))

/-! ## Step (spec/41_execution_cycle.md) and interrupts (spec/60_exceptions.md) -/

/-- A Step runs the decoded instruction: after the head and the timers, with no delay to consume, and
no interrupt to enter, it is `exec` of the instruction that the effective word decodes to, in the mode
of the extracode flag, and returns true; an instruction of one cycle at once, any at its second fetch,
with the charge flag cleared (R160, R165, R166, R169, R171, R173). EDRUPT enters whatever the interrupt
state and is never executed (R339, R171): that a Step makes this entry as `exec` of EDRUPT is the
model's choice (log 6). -/
def Obligations.StepRunsDecodedInstruction : Prop :=
  ∀ (s s1 : State) (i : Instr), s.ready = true → consumeDelay (stepHead s) = none →
    s1 = runTimers (stepHead s) → s1.extraDelay = 0 →
    i = decode s1.extracode (if s1.substitute then plainReg s1 0o17
      else overflowCorrect (add16 (signExtend s1.indexValue)
        (signExtend ((memRead s1 s1.z).setWidth 15)))) →
      (s1.pendFlag = true → (∀ k, i ≠ .edrupt k) →
        step s = exec i { s1 with pendFlag := false } ∧ stepReturns s = true) ∧
      (s1.pendFlag = false → config.mct i ≤ 1 →
        firstPending s1 = none ∨ eligible s1 (effectiveWord s1) = false →
        (∀ k, i ≠ .edrupt k) → step s = exec i s1 ∧ stepReturns s = true) ∧
      (∀ k, i = .edrupt k → step s = exec i s1 ∧ stepReturns s = true)

/-- Charging a multi-cycle instruction (R168): the first fetch sets `pend_flag` and `pend_delay` and
changes nothing else, so none of the instruction's effects is seen before it executes. -/
def Obligations.StepChargesMultiCycle : Prop :=
  ∀ s s1 : State, s.ready = true → consumeDelay (stepHead s) = none →
    s1 = runTimers (stepHead s) → s1.extraDelay = 0 → s1.pendFlag = false →
    1 < config.mct (decodedInstr s1) → (∀ k, decodedInstr s1 ≠ .edrupt k) →
    firstPending s1 = none ∨ eligible s1 (effectiveWord s1) = false →
      step s = .next { s1 with
        pendFlag := true, pendDelay := config.mct (decodedInstr s1) - 2 } ∧
      stepReturns s = false

/-- Consuming a delay (R162): one unit of one counter, the extra delay first, and nothing else but the
head of the Step; with no extra delay, and nothing charged or no unit of the charge left, the Step
goes on to the timers; where these leave extra delay, one unit of it is consumed and the Step ends
(R164). -/
def Obligations.StepConsumesOneDelay : Prop :=
  ∀ s : State, s.ready = true →
    (0 < s.extraDelay →
      step s = .next { stepHead s with extraDelay := s.extraDelay - 1 } ∧
      stepReturns s = false) ∧
    (s.extraDelay = 0 ∧ s.pendFlag = true ∧ 0 < s.pendDelay →
      step s = .next { stepHead s with pendDelay := s.pendDelay - 1 } ∧ stepReturns s = false) ∧
    (s.extraDelay = 0 ∧ (s.pendFlag = false ∨ s.pendDelay = 0) →
      planStep s = planAfterDelay (stepHead s)) ∧
    (∀ s1 : State, s1 = runTimers (stepHead s) → consumeDelay (stepHead s) = none →
      0 < s1.extraDelay →
        step s = .next { s1 with extraDelay := s1.extraDelay - 1 } ∧ stepReturns s = false)

/-- The head of a Step (R161): a due downrupt request is raised and the timer disarmed; the cycle and
scaler counters advance in every Step that gives a next state, and the cycle counter by exactly 1. -/
def Obligations.StepCountsCycles : Prop :=
  (∀ s : State,
    let due := s.downruptArmed = true ∧ s.downruptTime ≤ s.cycleCounter
    let t := stepHead s
    (due → irqPending t 8 = true ∧ t.downruptArmed = false ∧
      ∀ n, n ≠ 8 → irqPending t n = irqPending s n) ∧
    (¬due → t.irq = s.irq ∧ t.downruptArmed = s.downruptArmed) ∧
    t.cycleCounter = s.cycleCounter + 1 ∧
    t.scalerCounter = s.scalerCounter + config.scalerIncrement) ∧
  ∀ s t : State, step s = .next t → t.cycleCounter = s.cycleCounter + 1

/-- Interrupt entry (R335, R336, R338): where the fetched instruction is not EDRUPT and every condition
of eligibility holds, the pending request of the lowest slot is entered: it is cleared and recorded, Z
is its vector, ZRUPT and BRUPT hold the return address and the effective word, the prefixes are
cleared, the service flag is set and one unit of extra delay charged; all else, the other requests
among it, stays. -/
def Obligations.StepEntersLowestRequest : Prop :=
  ∀ (s s1 : State) (n : Nat), s.ready = true → consumeDelay (stepHead s) = none →
    s1 = runTimers (stepHead s) → s1.extraDelay = 0 → (∀ k, decodedInstr s1 ≠ .edrupt k) →
    s1.pendFlag = false → s1.intEnabled = true → s1.inIsr = false → s1.extracode = false →
    s1.a.getLsbD 15 = s1.a.getLsbD 14 → effectiveWord s1 ≠ 3#15 → effectiveWord s1 ≠ 4#15 →
    effectiveWord s1 ≠ 6#15 → s1.indexValue = 0#15 →
    1 ≤ n → n ≤ 10 → irqPending s1 n = true → (∀ m, 1 ≤ m → m < n → irqPending s1 m = false) →
      ∃ t, step s = .next t ∧ stepReturns s = true ∧ t.z.toNat = 0o4000 + 4 * n ∧
        t.irqLast = n ∧ irqPending t n = false ∧
        (∀ m, m ≠ n → irqPending t m = irqPending s1 m) ∧
        (plainReg t 0o15).toNat = s1.z.toNat + 1 ∧ plainReg t 0o17 = effectiveWord s1 ∧
        NoPrefix t ∧ t.inIsr = true ∧ t.intEnabled = true ∧ t.extraDelay = 1 ∧
        t.pendFlag = false ∧ t.pendDelay = s1.pendDelay ∧
        KeepsPlaces s1 t [.reg 5, .reg 0o15, .reg 0o17] ∧ KeepsChannels s1 t [] ∧
        KeepsTimers s1 t ∧ KeepsDownlink s1 t

/-- What holds interrupts off (R335): no Step enters an interrupt in place of an instruction while
interrupts are inhibited, a handler runs, extracode mode or an index is pending, an instruction is
charged, or A has overflow, nor in place of the protected words 3, 4 and 6 (RELINT, INHINT, EXTEND). -/
def Obligations.InterruptsAreHeldOff : Prop :=
  ∀ s t : State, planStep s = .enter t →
    s.intEnabled = true ∧ s.inIsr = false ∧ s.extracode = false ∧ s.indexValue = 0#15 ∧
      s.pendFlag = false ∧ s.extraDelay = 0 ∧ s.a.getLsbD 15 = s.a.getLsbD 14 ∧
      (let iw := effectiveWord (runTimers (stepHead s))
       iw ≠ 3#15 ∧ iw ≠ 4#15 ∧ iw ≠ 6#15) ∧
      ∃ n, 1 ≤ n ∧ n ≤ 10 ∧ t.z.toNat = 0o4000 + 4 * n ∧ t.irqLast = n ∧ irqPending t n = false

/-- A RESUME that follows an entry, with ZRUPT and BRUPT as the entry left them, comes back to the
interrupted instruction: Z is its address again and the next instruction is its word, in basic mode
(R214, R336). -/
def Obligations.ResumeUndoesEntry : Prop :=
  ∀ (s u : State) (pc0 : W12) (iw : W15),
    plainReg u 0o15 = plainReg (saveInterrupted s pc0 iw) 0o15 →
    plainReg u 0o17 = plainReg (saveInterrupted s pc0 iw) 0o17 →
      ∃ t, exec .resume u = .next t ∧ t.z = pc0 ∧ decodedInstr t = decode false iw ∧
        t.inIsr = false

/-- What a Step that completes nothing leaves (R162, R164, R168, R346): every place but TIME1 to TIME5,
and every channel but the scaler's 03 and 04, is as before, and so are the prefixes and the
interrupt-enable and service flags. -/
def Obligations.WaitingStepKeepsRegisters : Prop :=
  ∀ s t : State, step s = .next t → stepReturns s = false →
    KeepsPlaces s t [.reg 0o24, .reg 0o25, .reg 0o26, .reg 0o27, .reg 0o30] ∧
      KeepsChannels s t [3, 4] ∧ t.indexValue = s.indexValue ∧ t.extracode = s.extracode ∧
      t.substitute = s.substitute ∧ t.intEnabled = s.intEnabled ∧ t.inIsr = s.inIsr ∧
      t.irqLast = s.irqLast

/-- A pending request stays pending until it is vectored (R334, which the spec derives): a Step clears no request but the one
it enters. -/
def Obligations.RequestsStayPending : Prop :=
  ∀ (s t : State) (n : Nat), step s = .next t → irqPending s n = true →
    irqPending t n = true ∨ (t.irqLast = n ∧ t.inIsr = true ∧ t.z.toNat = 0o4000 + 4 * n)

/-- Fixed memory is changed by no Step (R36, R72), whatever instruction runs. -/
def Obligations.StepKeepsFixedMemory : Prop :=
  ∀ s t : State, step s = .next t → t.rom = s.rom ∧ t.ready = true

/-- Who writes the interrupt flags (R44, R45): a Step changes `int_enabled` only by running RELINT or
INHINT, sets `in_isr` only by entering an interrupt, and clears it only by running RESUME. -/
def Obligations.InterruptFlagWriters : Prop :=
  ∀ s t : State, step s = .next t →
    (t.intEnabled ≠ s.intEnabled → ∃ u, planStep s = .run .relint u ∨ planStep s = .run .inhint u) ∧
    (s.inIsr = true ∧ t.inIsr = false → ∃ u, planStep s = .run .resume u) ∧
    (s.inIsr = false ∧ t.inIsr = true →
      planStep s = .enter t ∨ ∃ u k, planStep s = .run (.edrupt k) u)

/-- A Step before the load is refused (R394). A Step has a next state but in the listed cases (R174):
before the load, and where the instruction that runs is a double-word instruction with address field 0
or a DV addressed to A or L; and no Step faults (R330). -/
def Obligations.StepRefusesOnlyListedCases : Prop :=
  (∀ s : State, s.ready = false → step s = .refused .stepBeforeLoad) ∧
  ∀ s : State,
    (∃ t, step s = .next t) ∨
    (s.ready = false ∧ step s = .refused .stepBeforeLoad) ∨
    ∃ u,
      (planStep s = .run (.dca 0#12) u ∧ step s = .refused .dcaFieldZero) ∨
      (planStep s = .run (.dcs 0#12) u ∧ step s = .refused .dcsFieldZero) ∨
      (planStep s = .run (.dxch 0#10) u ∧ step s = .refused .dxchFieldZero) ∨
      (planStep s = .run (.das 0#10) u ∧ step s = .refused .dasFieldZero) ∨
      ((planStep s = .run (.dv 0#10) u ∨ planStep s = .run (.dv 1#10) u) ∧
        step s = .refused .dvDivisorInDividend)

/-! ## Timers (spec/60_exceptions.md) -/

/-- The timer loop performs every pass that is due (R163, R48): after it the scaler counter is below
the threshold, by a multiple of the threshold lower, one for each pass. -/
def Obligations.TimerLoopRunsEveryPass : Prop :=
  ∀ s : State,
    (runTimers s).scalerCounter = s.scalerCounter % config.scalerThreshold ∧
    { runTimers s with scalerCounter := 0 } =
      (timerPass^[s.scalerCounter / config.scalerThreshold]) { s with scalerCounter := 0 }

/-- The timer pass at the 10 ms phase (R346 to R349, R145): TIME1 counts, its overflow counts TIME2, then
TIME3 counts and its overflow raises slot 3; one unit of extra delay for each increment; no other
counter, request or place changes. -/
def Obligations.TenMillisecondPhase : Prop :=
  ∀ s : State,
    let inc (v : W15) : W15 :=
      if v = 0o37777#15 then 0#15 else if v = 0o77777#15 then 1#15 else v + 1#15
    let t := timerPass s
    chanRead t 4 &&& config.phaseMask = config.phaseT1T3 →
      let t1 := plainReg s 0o25
      let t2 := plainReg s 0o24
      let t3 := plainReg s 0o26
      plainReg t 0o25 = inc t1 ∧
      plainReg t 0o24 = (if t1 = 0o37777#15 then inc t2 else t2) ∧
      plainReg t 0o26 = inc t3 ∧
      t.extraDelay = s.extraDelay + (if t1 = 0o37777#15 then 3 else 2) ∧
      (t3 = 0o37777#15 → irqPending t 3 = true) ∧
      (∀ n, n ≠ 3 ∨ t3 ≠ 0o37777#15 → irqPending t n = irqPending s n) ∧
      KeepsPlaces s t [.reg 0o24, .reg 0o25, .reg 0o26] ∧ KeepsChannels s t [3, 4]

/-- The timer pass at the phases of TIME5 and TIME4, and at no phase (R346, R350, R145): one counter, its
request on overflow, one unit of extra delay; or none of it. -/
def Obligations.OffsetPhases : Prop :=
  ∀ s : State,
    let inc (v : W15) : W15 :=
      if v = 0o37777#15 then 0#15 else if v = 0o77777#15 then 1#15 else v + 1#15
    let t := timerPass s
    let phase := chanRead t 4 &&& config.phaseMask
    let t5 := plainReg s 0o30
    let t4 := plainReg s 0o27
    (phase = config.phaseT5 →
      plainReg t 0o30 = inc t5 ∧ t.extraDelay = s.extraDelay + 1 ∧
      (∀ n, irqPending t n = (irqPending s n || (n == 2 && t5 == 0o37777#15))) ∧
      KeepsPlaces s t [.reg 0o30] ∧ KeepsChannels s t [3, 4]) ∧
    (phase = config.phaseT4 →
      plainReg t 0o27 = inc t4 ∧ t.extraDelay = s.extraDelay + 1 ∧
      (∀ n, irqPending t n = (irqPending s n || (n == 4 && t4 == 0o37777#15))) ∧
      KeepsPlaces s t [.reg 0o27] ∧ KeepsChannels s t [3, 4]) ∧
    (phase ≠ config.phaseT1T3 ∧ phase ≠ config.phaseT5 ∧ phase ≠ config.phaseT4 →
      t.extraDelay = s.extraDelay ∧ t.irq = s.irq ∧ KeepsPlaces s t [] ∧ KeepsChannels s t [3, 4])

/-- The timer pass's scaler channels and warning filter (R346, R351): channel 04 counts and at its
modulus returns to 0 and carries into channel 03, and no other channel changes; where the period bits
of the new count are 0 the filter is charged to its ceiling or discharged to 0, and the one-shot flag
is clear. -/
def Obligations.ScalerAndWarningFilter : Prop :=
  ∀ s : State,
    let t := timerPass s
    let low := (chanRead s 4).toNat + 1
    let warned := s.warningGenerated = true ∨ (chanRead s 0o13).getLsbD 9 = true
    (low ≠ config.scalerLoModulus →
      (chanRead t 4).toNat = low ∧ chanRead t 3 = chanRead s 3) ∧
    (low = config.scalerLoModulus →
      chanRead t 4 = 0#15 ∧ chanRead t 3 = chanRead s 3 + 1#15) ∧
    KeepsChannels s t [3, 4] ∧
    (chanRead t 4 &&& config.wfPeriodMask = 0#15 → t.warningGenerated = false ∧
      (warned → t.warningFilter = min (s.warningFilter + config.wfCharge) config.wfMax) ∧
      (¬warned → t.warningFilter = s.warningFilter - config.wfDischarge)) ∧
    (chanRead t 4 &&& config.wfPeriodMask ≠ 0#15 →
      t.warningFilter = s.warningFilter ∧ t.warningGenerated = s.warningGenerated)

/-! ## Reset, the invariant, the host (spec/70_reset_and_hazards.md, spec/60_exceptions.md) -/

/-- The state after reset (R390), for either value of `RESET_INT_ENABLED`, which R392 leaves open and
the state takes as an argument; `State.reset` is one of the two. -/
def Obligations.ResetValues : Prop :=
  (∃ b, State.reset = State.resetWith b) ∧ ∀ b : Bool,
    let s := State.resetWith b
    (∀ n, n ≠ 5 → readReg s n = 0#16) ∧ s.z = 0o4000#12 ∧
    (∀ bank o, ramRead s bank o = 0#15) ∧ (∀ bank o, romRead s bank o = 0#15) ∧
    (∀ c, chanRead s c = if c = 0o30 then 0o37777#15
      else if c = 0o31 ∨ c = 0o32 ∨ c = 0o33 then 0o77777#15 else 0#15) ∧
    s.pendFlag = false ∧ s.pendDelay = 0 ∧ s.extraDelay = 0 ∧ NoPrefix s ∧ s.intEnabled = b ∧
    s.inIsr = false ∧ (∀ n, irqPending s n = false) ∧ s.irqLast = 0 ∧ s.cycleCounter = 0 ∧
    s.scalerCounter = 0 ∧ s.warningFilter = 0 ∧ s.warningGenerated = false ∧
    s.downlinkLatch = 0#2 ∧ s.downruptArmed = false ∧ s.downruptTime = 0 ∧ s.ready = false

/-- The invariant holds at reset, for either value of `RESET_INT_ENABLED`. -/
def Obligations.ResetIsConsistent : Prop :=
  Consistent State.reset ∧ ∀ b : Bool, Consistent (State.resetWith b)

/-- Every Step keeps the invariant: EB, FB and BB hold only their own bits and agree (R25 to R27), the
stores stay canonical, the delay counter, the last slot, the latch and the warning filter stay in their
ranges, and no index waits beside a substitution. -/
def Obligations.StepKeepsConsistent : Prop :=
  ∀ s t : State, Consistent s → step s = .next t → Consistent t

/-- Every operation of the host keeps the invariant (R360 to R367). -/
def Obligations.HostKeepsConsistent : Prop :=
  ∀ (s t : State) (op : HostOp), op ≠ .step → Consistent s → hostDo s op = .next t → Consistent t

/-- The key press (R361): slot 5 is raised and channel 015 takes the code; a host store is `MemWrite`,
refused above 07777 (R363, R73); the cycle counter's view is signed on 32 bits (R365). -/
def Obligations.HostOperations : Prop :=
  ∀ s : State,
    (∀ code, irqPending (keyPressed s code) 5 = true ∧
      chanRead (keyPressed s code) 0o15 = BitVec.ofNat 15 code ∧
      (∀ n, n ≠ 5 → irqPending (keyPressed s code) n = irqPending s n) ∧
      KeepsChannels s (keyPressed s code) [0o15] ∧ KeepsPlaces s (keyPressed s code) []) ∧
    (∀ address value, address ≤ 0o7777 →
      hostReadMemory s address = .ok (memRead s (BitVec.ofNat 12 address)) ∧
      hostWriteMemory s address value =
        .next (memWrite s (BitVec.ofNat 12 address) (BitVec.ofNat 16 value))) ∧
    (∀ address value, 0o7777 < address →
      hostReadMemory s address = .error .hostAddressOutOfRange ∧
      hostWriteMemory s address value = .refused .hostAddressOutOfRange) ∧
    getCycleCounter s =
      if s.cycleCounter % 4294967296 < 2147483648 then ((s.cycleCounter % 4294967296 : Nat) : Int)
      else ((s.cycleCounter % 4294967296 : Nat) : Int) - 4294967296
end

