-- ==== Sys2Proof/Laws/Encoding.lean ====
section
/-! SUPPORT. The words of the four formats (spec/30_encoding.md R102), bit by bit and as numbers. -/

namespace Sys2Proof

/-- The bits of a word in format F12. -/
theorem wordF12_getLsbD (code : BitVec 3) (k12 : W12) (i : Nat) :
    (wordF12 code k12).getLsbD i = if i < 12 then k12.getLsbD i else code.getLsbD (i - 12) := by
  unfold wordF12; exact BitVec.getLsbD_append

/-- The bits of a word in format F10. -/
theorem wordF10_getLsbD (code : BitVec 3) (qc : BitVec 2) (k10 : W10) (i : Nat) :
    (wordF10 code qc k10).getLsbD i =
      if i < 10 then k10.getLsbD i
      else if i - 10 < 2 then qc.getLsbD (i - 10) else code.getLsbD (i - 10 - 2) := by
  unfold wordF10
  refine BitVec.getLsbD_append.trans ?_
  simp only [BitVec.getLsbD_append]

/-- The bits of a word in format F9. -/
theorem wordF9_getLsbD (pc : BitVec 3) (k9 : W9) (i : Nat) :
    (wordF9 pc k9).getLsbD i =
      if i < 9 then k9.getLsbD i else if i - 9 < 3 then pc.getLsbD (i - 9) else false := by
  unfold wordF9
  refine BitVec.getLsbD_append.trans ?_
  simp only [BitVec.getLsbD_append, BitVec.getLsbD_zero]

/-- A word in format F12, as a number. -/
theorem wordF12_toNat (code : BitVec 3) (k12 : W12) :
    (wordF12 code k12).toNat = code.toNat * 0o10000 + k12.toNat := by
  have := k12.isLt
  simp only [wordF12, BitVec.toNat_append]
  rw [← Nat.shiftLeft_add_eq_or_of_lt (by omega), Nat.shiftLeft_eq]

/-- A word in format F10, as a number. -/
theorem wordF10_toNat (code : BitVec 3) (qc : BitVec 2) (k10 : W10) :
    (wordF10 code qc k10).toNat = code.toNat * 0o10000 + qc.toNat * 0o2000 + k10.toNat := by
  have := k10.isLt
  have := qc.isLt
  simp only [wordF10, BitVec.toNat_append]
  rw [← Nat.shiftLeft_add_eq_or_of_lt (by omega), ← Nat.shiftLeft_add_eq_or_of_lt (by omega)]
  simp only [Nat.shiftLeft_eq]
  omega

/-- A word in format F9, as a number. -/
theorem wordF9_toNat (pc : BitVec 3) (k9 : W9) :
    (wordF9 pc k9).toNat = pc.toNat * 0o1000 + k9.toNat := by
  have := k9.isLt
  have := pc.isLt
  simp only [wordF9, BitVec.toNat_append]
  rw [← Nat.shiftLeft_add_eq_or_of_lt (by omega), ← Nat.shiftLeft_add_eq_or_of_lt (by omega)]
  simp only [Nat.shiftLeft_eq]
  simp

end Sys2Proof
end

