-- ==== Sys2Proof/Laws/Memory.lean ====
section
/-! SUPPORT. The laws of a store of cells: a read after a write, the canonical form kept by every
write, and equal contents in canonical form are equal lists. -/

namespace Sys2Proof.Machine

variable {content : Nat → W15} {size : Nat}

theorem Memory.read_erase (m : Memory) (n k : Nat) :
    Memory.read content (Memory.erase m n) k =
      if k = n then content n else Memory.read content m k := by
  induction m with
  | nil => simp only [erase, read]; split <;> simp_all
  | cons e rest ih =>
    obtain ⟨j, w⟩ := e
    by_cases hj : j = n
    · subst hj
      simp only [erase, if_true, ih, read]
      split
      · rfl
      · rename_i h; rw [if_neg (Ne.symm h)]
    · simp only [erase, if_neg hj, read, ih]
      split
      · rename_i h; subst h; rw [if_neg hj]
      · rfl

theorem Memory.read_insert_same (m : Memory) (n : Nat) (v : W15) (h : ∀ e ∈ m, e.1 ≠ n) :
    Memory.read content (Memory.insert m n v) n = v := by
  induction m with
  | nil => simp [insert, read]
  | cons e rest ih =>
    obtain ⟨j, w⟩ := e
    simp only [insert]
    split
    · rw [read, if_neg (h (j, w) (by simp))]
      exact ih (fun e he => h e (by simp [he]))
    · simp [read]

theorem Memory.read_insert_other (m : Memory) {n k : Nat} (v : W15) (hk : k ≠ n) :
    Memory.read content (Memory.insert m n v) k = Memory.read content m k := by
  induction m with
  | nil => simp [insert, read, Ne.symm hk]
  | cons e rest ih =>
    obtain ⟨j, w⟩ := e
    simp only [insert]
    split
    · simp only [read, ih]
    · simp only [read, if_neg (Ne.symm hk)]

theorem Memory.not_mem_erase (m : Memory) (n : Nat) : ∀ e ∈ Memory.erase m n, e.1 ≠ n := by
  induction m with
  | nil => intro e he; cases he
  | cons d rest ih =>
    obtain ⟨j, w⟩ := d
    intro e he
    simp only [erase] at he
    split at he
    · exact ih e he
    · rename_i hj
      rcases List.mem_cons.mp he with rfl | he
      · exact hj
      · exact ih e he

/-- A read of the cell just written gives the value, a read of any other cell what it gave before. -/
theorem Memory.read_write (m : Memory) (n k : Nat) (v : W15) :
    Memory.read content (Memory.write content m n v) k =
      if k = n then v else Memory.read content m k := by
  unfold Memory.write
  split
  · rename_i h; rw [Memory.read_erase, h]
  · by_cases hk : k = n
    · rw [if_pos hk, hk, Memory.read_insert_same _ _ _ (Memory.not_mem_erase m n)]
    · rw [if_neg hk, Memory.read_insert_other _ _ hk, Memory.read_erase, if_neg hk]

@[simp] theorem Memory.read_write_same (m : Memory) (n : Nat) (v : W15) :
    Memory.read content (Memory.write content m n v) n = v := by
  rw [Memory.read_write, if_pos rfl]

theorem Memory.read_write_other (m : Memory) {n k : Nat} (v : W15) (h : k ≠ n) :
    Memory.read content (Memory.write content m n v) k = Memory.read content m k := by
  rw [Memory.read_write, if_neg h]

theorem Memory.wfFrom_mono {m : Memory} {low low' : Nat} (h : low ≤ low')
    (hm : Memory.wfFrom content size low' m = true) :
    Memory.wfFrom content size low m = true := by
  cases m with
  | nil => rfl
  | cons e rest =>
    simp only [wfFrom, Bool.and_eq_true, decide_eq_true_eq] at hm ⊢
    exact ⟨⟨⟨by omega, hm.1.1.2⟩, hm.1.2⟩, hm.2⟩

theorem Memory.wfFrom_erase {m : Memory} {low : Nat} (n : Nat)
    (hm : Memory.wfFrom content size low m = true) :
    Memory.wfFrom content size low (Memory.erase m n) = true := by
  induction m generalizing low with
  | nil => rfl
  | cons e rest ih =>
    obtain ⟨j, w⟩ := e
    simp only [wfFrom, Bool.and_eq_true, decide_eq_true_eq] at hm
    simp only [erase]
    split
    · exact Memory.wfFrom_mono (by omega) (ih hm.2)
    · simp only [wfFrom, Bool.and_eq_true, decide_eq_true_eq]
      exact ⟨hm.1, ih hm.2⟩

theorem Memory.wfFrom_insert {m : Memory} {low n : Nat} {v : W15} (hn : n < size)
    (hv : v ≠ content n) (hlow : low ≤ n) (hm : Memory.wfFrom content size low m = true)
    (hkey : ∀ e ∈ m, e.1 ≠ n) :
    Memory.wfFrom content size low (Memory.insert m n v) = true := by
  induction m generalizing low with
  | nil => simp [insert, wfFrom, hlow, hn, hv]
  | cons e rest ih =>
    obtain ⟨j, w⟩ := e
    simp only [wfFrom, Bool.and_eq_true, decide_eq_true_eq] at hm
    have hj : j ≠ n := hkey (j, w) (by simp)
    simp only [insert]
    split
    · rename_i hlt
      simp only [wfFrom, Bool.and_eq_true, decide_eq_true_eq]
      exact ⟨hm.1, ih hlt hm.2 (fun e he => hkey e (by simp [he]))⟩
    · simp only [wfFrom, Bool.and_eq_true, decide_eq_true_eq]
      exact ⟨⟨⟨hlow, hn⟩, hv⟩, ⟨⟨by omega, hm.1.1.2⟩, hm.1.2⟩, hm.2⟩

/-- A write keeps the canonical form. -/
theorem Memory.wf_write {m : Memory} {n : Nat} (v : W15) (hn : n < size)
    (hm : Memory.wf content size m = true) :
    Memory.wf content size (Memory.write content m n v) = true := by
  unfold Memory.write
  split
  · exact Memory.wfFrom_erase n hm
  · rename_i hv
    exact Memory.wfFrom_insert hn hv (Nat.zero_le n) (Memory.wfFrom_erase n hm)
      (Memory.not_mem_erase m n)

theorem Memory.read_below {m : Memory} {low k : Nat}
    (hm : Memory.wfFrom content size low m = true) (hk : k < low) :
    Memory.read content m k = content k := by
  induction m generalizing low with
  | nil => rfl
  | cons e rest ih =>
    obtain ⟨j, w⟩ := e
    simp only [wfFrom, Bool.and_eq_true, decide_eq_true_eq] at hm
    rw [read, if_neg (by omega)]
    exact ih hm.2 (by omega)

theorem Memory.eq_of_read_from {m m' : Memory} {low : Nat}
    (hm : Memory.wfFrom content size low m = true)
    (hm' : Memory.wfFrom content size low m' = true)
    (h : ∀ k, Memory.read content m k = Memory.read content m' k) : m = m' := by
  induction m generalizing m' low with
  | nil =>
    cases m' with
    | nil => rfl
    | cons e rest =>
      obtain ⟨j, w⟩ := e
      simp only [wfFrom, Bool.and_eq_true, decide_eq_true_eq] at hm'
      exact absurd (by simpa [read] using (h j).symm) hm'.1.2
  | cons e rest ih =>
    obtain ⟨j, w⟩ := e
    simp only [wfFrom, Bool.and_eq_true, decide_eq_true_eq] at hm
    cases m' with
    | nil => exact absurd (by simpa [read] using h j) hm.1.2
    | cons e' rest' =>
      obtain ⟨j', w'⟩ := e'
      simp only [wfFrom, Bool.and_eq_true, decide_eq_true_eq] at hm'
      have hjj : j = j' := by
        rcases Nat.lt_trichotomy j j' with hlt | heq | hgt
        · have hj := h j
          rw [read, if_pos rfl, read, if_neg (by omega), Memory.read_below hm'.2 (by omega)] at hj
          exact absurd hj hm.1.2
        · exact heq
        · have hj := h j'
          rw [read, if_neg (by omega), read, if_pos rfl, Memory.read_below hm.2 (by omega)] at hj
          exact absurd hj.symm hm'.1.2
      subst hjj
      have hw : w = w' := by simpa [read] using h j
      subst hw
      have hrest : rest = rest' := by
        refine ih hm.2 hm'.2 (fun k => ?_)
        by_cases hk : k = j
        · subst hk
          rw [Memory.read_below hm.2 (by omega), Memory.read_below hm'.2 (by omega)]
        · simpa [read, Ne.symm hk] using h k
      rw [hrest]

/-- Two canonical stores that read alike are equal. -/
theorem Memory.eq_of_read {m m' : Memory} (hm : Memory.wf content size m = true)
    (hm' : Memory.wf content size m' = true)
    (h : ∀ k, Memory.read content m k = Memory.read content m' k) : m = m' :=
  Memory.eq_of_read_from hm hm' h

end Sys2Proof.Machine
end

