-- ==== Sys2Proof/Laws/State.lean ====
section
/-! SUPPORT. One lemma for each field under each named update of the state: what the update leaves
and what it sets. No later proof unfolds a record update. -/

namespace Sys2Proof.Machine

/-! ### beginExecute -/

@[simp] theorem beginExecute_a (s : State) : (beginExecute s).a = s.a := rfl
@[simp] theorem beginExecute_l (s : State) : (beginExecute s).l = s.l := rfl
@[simp] theorem beginExecute_q (s : State) : (beginExecute s).q = s.q := rfl
@[simp] theorem beginExecute_eb (s : State) : (beginExecute s).eb = s.eb := rfl
@[simp] theorem beginExecute_fb (s : State) : (beginExecute s).fb = s.fb := rfl
@[simp] theorem beginExecute_z (s : State) : (beginExecute s).z = s.z + 1#12 := rfl
@[simp] theorem beginExecute_bb (s : State) : (beginExecute s).bb = s.bb := rfl
@[simp] theorem beginExecute_file (s : State) : (beginExecute s).file = s.file := rfl
@[simp] theorem beginExecute_ram (s : State) : (beginExecute s).ram = s.ram := rfl
@[simp] theorem beginExecute_rom (s : State) : (beginExecute s).rom = s.rom := rfl
@[simp] theorem beginExecute_chan (s : State) : (beginExecute s).chan = s.chan := rfl
@[simp] theorem beginExecute_pendFlag (s : State) : (beginExecute s).pendFlag = s.pendFlag := rfl
@[simp] theorem beginExecute_pendDelay (s : State) : (beginExecute s).pendDelay = s.pendDelay := rfl
@[simp] theorem beginExecute_extraDelay (s : State) : (beginExecute s).extraDelay = s.extraDelay := rfl
@[simp] theorem beginExecute_indexValue (s : State) : (beginExecute s).indexValue = 0#15 := rfl
@[simp] theorem beginExecute_substitute (s : State) : (beginExecute s).substitute = false := rfl
@[simp] theorem beginExecute_extracode (s : State) : (beginExecute s).extracode = false := rfl
@[simp] theorem beginExecute_intEnabled (s : State) : (beginExecute s).intEnabled = s.intEnabled := rfl
@[simp] theorem beginExecute_inIsr (s : State) : (beginExecute s).inIsr = s.inIsr := rfl
@[simp] theorem beginExecute_irq (s : State) : (beginExecute s).irq = s.irq := rfl
@[simp] theorem beginExecute_irqLast (s : State) : (beginExecute s).irqLast = s.irqLast := rfl
@[simp] theorem beginExecute_cycleCounter (s : State) : (beginExecute s).cycleCounter = s.cycleCounter := rfl
@[simp] theorem beginExecute_scalerCounter (s : State) : (beginExecute s).scalerCounter = s.scalerCounter := rfl
@[simp] theorem beginExecute_warningFilter (s : State) : (beginExecute s).warningFilter = s.warningFilter := rfl
@[simp] theorem beginExecute_warningGenerated (s : State) : (beginExecute s).warningGenerated = s.warningGenerated := rfl
@[simp] theorem beginExecute_downlinkLatch (s : State) : (beginExecute s).downlinkLatch = s.downlinkLatch := rfl
@[simp] theorem beginExecute_downruptArmed (s : State) : (beginExecute s).downruptArmed = s.downruptArmed := rfl
@[simp] theorem beginExecute_downruptTime (s : State) : (beginExecute s).downruptTime = s.downruptTime := rfl
@[simp] theorem beginExecute_ready (s : State) : (beginExecute s).ready = s.ready := rfl

/-! ### skipWords -/

@[simp] theorem skipWords_a (s : State) (k : Nat) : (skipWords s k).a = s.a := rfl
@[simp] theorem skipWords_l (s : State) (k : Nat) : (skipWords s k).l = s.l := rfl
@[simp] theorem skipWords_q (s : State) (k : Nat) : (skipWords s k).q = s.q := rfl
@[simp] theorem skipWords_eb (s : State) (k : Nat) : (skipWords s k).eb = s.eb := rfl
@[simp] theorem skipWords_fb (s : State) (k : Nat) : (skipWords s k).fb = s.fb := rfl
@[simp] theorem skipWords_z (s : State) (k : Nat) : (skipWords s k).z = s.z + BitVec.ofNat 12 k := rfl
@[simp] theorem skipWords_bb (s : State) (k : Nat) : (skipWords s k).bb = s.bb := rfl
@[simp] theorem skipWords_file (s : State) (k : Nat) : (skipWords s k).file = s.file := rfl
@[simp] theorem skipWords_ram (s : State) (k : Nat) : (skipWords s k).ram = s.ram := rfl
@[simp] theorem skipWords_rom (s : State) (k : Nat) : (skipWords s k).rom = s.rom := rfl
@[simp] theorem skipWords_chan (s : State) (k : Nat) : (skipWords s k).chan = s.chan := rfl
@[simp] theorem skipWords_pendFlag (s : State) (k : Nat) : (skipWords s k).pendFlag = s.pendFlag := rfl
@[simp] theorem skipWords_pendDelay (s : State) (k : Nat) : (skipWords s k).pendDelay = s.pendDelay := rfl
@[simp] theorem skipWords_extraDelay (s : State) (k : Nat) : (skipWords s k).extraDelay = s.extraDelay := rfl
@[simp] theorem skipWords_indexValue (s : State) (k : Nat) : (skipWords s k).indexValue = s.indexValue := rfl
@[simp] theorem skipWords_substitute (s : State) (k : Nat) : (skipWords s k).substitute = s.substitute := rfl
@[simp] theorem skipWords_extracode (s : State) (k : Nat) : (skipWords s k).extracode = s.extracode := rfl
@[simp] theorem skipWords_intEnabled (s : State) (k : Nat) : (skipWords s k).intEnabled = s.intEnabled := rfl
@[simp] theorem skipWords_inIsr (s : State) (k : Nat) : (skipWords s k).inIsr = s.inIsr := rfl
@[simp] theorem skipWords_irq (s : State) (k : Nat) : (skipWords s k).irq = s.irq := rfl
@[simp] theorem skipWords_irqLast (s : State) (k : Nat) : (skipWords s k).irqLast = s.irqLast := rfl
@[simp] theorem skipWords_cycleCounter (s : State) (k : Nat) : (skipWords s k).cycleCounter = s.cycleCounter := rfl
@[simp] theorem skipWords_scalerCounter (s : State) (k : Nat) : (skipWords s k).scalerCounter = s.scalerCounter := rfl
@[simp] theorem skipWords_warningFilter (s : State) (k : Nat) : (skipWords s k).warningFilter = s.warningFilter := rfl
@[simp] theorem skipWords_warningGenerated (s : State) (k : Nat) : (skipWords s k).warningGenerated = s.warningGenerated := rfl
@[simp] theorem skipWords_downlinkLatch (s : State) (k : Nat) : (skipWords s k).downlinkLatch = s.downlinkLatch := rfl
@[simp] theorem skipWords_downruptArmed (s : State) (k : Nat) : (skipWords s k).downruptArmed = s.downruptArmed := rfl
@[simp] theorem skipWords_downruptTime (s : State) (k : Nat) : (skipWords s k).downruptTime = s.downruptTime := rfl
@[simp] theorem skipWords_ready (s : State) (k : Nat) : (skipWords s k).ready = s.ready := rfl

/-! ### writeEB -/

@[simp] theorem writeEB_a (s : State) (v : W15) : (writeEB s v).a = s.a := rfl
@[simp] theorem writeEB_l (s : State) (v : W15) : (writeEB s v).l = s.l := rfl
@[simp] theorem writeEB_q (s : State) (v : W15) : (writeEB s v).q = s.q := rfl
@[simp] theorem writeEB_eb (s : State) (v : W15) : (writeEB s v).eb = v &&& 0o03400#15 := rfl
@[simp] theorem writeEB_fb (s : State) (v : W15) : (writeEB s v).fb = s.fb := rfl
@[simp] theorem writeEB_z (s : State) (v : W15) : (writeEB s v).z = s.z := rfl
@[simp] theorem writeEB_bb (s : State) (v : W15) : (writeEB s v).bb = (s.bb &&& 0o76000#15) ||| ((v &&& 0o03400#15) >>> 8) := rfl
@[simp] theorem writeEB_file (s : State) (v : W15) : (writeEB s v).file = s.file := rfl
@[simp] theorem writeEB_ram (s : State) (v : W15) : (writeEB s v).ram = s.ram := rfl
@[simp] theorem writeEB_rom (s : State) (v : W15) : (writeEB s v).rom = s.rom := rfl
@[simp] theorem writeEB_chan (s : State) (v : W15) : (writeEB s v).chan = s.chan := rfl
@[simp] theorem writeEB_pendFlag (s : State) (v : W15) : (writeEB s v).pendFlag = s.pendFlag := rfl
@[simp] theorem writeEB_pendDelay (s : State) (v : W15) : (writeEB s v).pendDelay = s.pendDelay := rfl
@[simp] theorem writeEB_extraDelay (s : State) (v : W15) : (writeEB s v).extraDelay = s.extraDelay := rfl
@[simp] theorem writeEB_indexValue (s : State) (v : W15) : (writeEB s v).indexValue = s.indexValue := rfl
@[simp] theorem writeEB_substitute (s : State) (v : W15) : (writeEB s v).substitute = s.substitute := rfl
@[simp] theorem writeEB_extracode (s : State) (v : W15) : (writeEB s v).extracode = s.extracode := rfl
@[simp] theorem writeEB_intEnabled (s : State) (v : W15) : (writeEB s v).intEnabled = s.intEnabled := rfl
@[simp] theorem writeEB_inIsr (s : State) (v : W15) : (writeEB s v).inIsr = s.inIsr := rfl
@[simp] theorem writeEB_irq (s : State) (v : W15) : (writeEB s v).irq = s.irq := rfl
@[simp] theorem writeEB_irqLast (s : State) (v : W15) : (writeEB s v).irqLast = s.irqLast := rfl
@[simp] theorem writeEB_cycleCounter (s : State) (v : W15) : (writeEB s v).cycleCounter = s.cycleCounter := rfl
@[simp] theorem writeEB_scalerCounter (s : State) (v : W15) : (writeEB s v).scalerCounter = s.scalerCounter := rfl
@[simp] theorem writeEB_warningFilter (s : State) (v : W15) : (writeEB s v).warningFilter = s.warningFilter := rfl
@[simp] theorem writeEB_warningGenerated (s : State) (v : W15) : (writeEB s v).warningGenerated = s.warningGenerated := rfl
@[simp] theorem writeEB_downlinkLatch (s : State) (v : W15) : (writeEB s v).downlinkLatch = s.downlinkLatch := rfl
@[simp] theorem writeEB_downruptArmed (s : State) (v : W15) : (writeEB s v).downruptArmed = s.downruptArmed := rfl
@[simp] theorem writeEB_downruptTime (s : State) (v : W15) : (writeEB s v).downruptTime = s.downruptTime := rfl
@[simp] theorem writeEB_ready (s : State) (v : W15) : (writeEB s v).ready = s.ready := rfl

/-! ### writeFB -/

@[simp] theorem writeFB_a (s : State) (v : W15) : (writeFB s v).a = s.a := rfl
@[simp] theorem writeFB_l (s : State) (v : W15) : (writeFB s v).l = s.l := rfl
@[simp] theorem writeFB_q (s : State) (v : W15) : (writeFB s v).q = s.q := rfl
@[simp] theorem writeFB_eb (s : State) (v : W15) : (writeFB s v).eb = s.eb := rfl
@[simp] theorem writeFB_fb (s : State) (v : W15) : (writeFB s v).fb = v &&& 0o76000#15 := rfl
@[simp] theorem writeFB_z (s : State) (v : W15) : (writeFB s v).z = s.z := rfl
@[simp] theorem writeFB_bb (s : State) (v : W15) : (writeFB s v).bb = (s.bb &&& 0o00007#15) ||| (v &&& 0o76000#15) := rfl
@[simp] theorem writeFB_file (s : State) (v : W15) : (writeFB s v).file = s.file := rfl
@[simp] theorem writeFB_ram (s : State) (v : W15) : (writeFB s v).ram = s.ram := rfl
@[simp] theorem writeFB_rom (s : State) (v : W15) : (writeFB s v).rom = s.rom := rfl
@[simp] theorem writeFB_chan (s : State) (v : W15) : (writeFB s v).chan = s.chan := rfl
@[simp] theorem writeFB_pendFlag (s : State) (v : W15) : (writeFB s v).pendFlag = s.pendFlag := rfl
@[simp] theorem writeFB_pendDelay (s : State) (v : W15) : (writeFB s v).pendDelay = s.pendDelay := rfl
@[simp] theorem writeFB_extraDelay (s : State) (v : W15) : (writeFB s v).extraDelay = s.extraDelay := rfl
@[simp] theorem writeFB_indexValue (s : State) (v : W15) : (writeFB s v).indexValue = s.indexValue := rfl
@[simp] theorem writeFB_substitute (s : State) (v : W15) : (writeFB s v).substitute = s.substitute := rfl
@[simp] theorem writeFB_extracode (s : State) (v : W15) : (writeFB s v).extracode = s.extracode := rfl
@[simp] theorem writeFB_intEnabled (s : State) (v : W15) : (writeFB s v).intEnabled = s.intEnabled := rfl
@[simp] theorem writeFB_inIsr (s : State) (v : W15) : (writeFB s v).inIsr = s.inIsr := rfl
@[simp] theorem writeFB_irq (s : State) (v : W15) : (writeFB s v).irq = s.irq := rfl
@[simp] theorem writeFB_irqLast (s : State) (v : W15) : (writeFB s v).irqLast = s.irqLast := rfl
@[simp] theorem writeFB_cycleCounter (s : State) (v : W15) : (writeFB s v).cycleCounter = s.cycleCounter := rfl
@[simp] theorem writeFB_scalerCounter (s : State) (v : W15) : (writeFB s v).scalerCounter = s.scalerCounter := rfl
@[simp] theorem writeFB_warningFilter (s : State) (v : W15) : (writeFB s v).warningFilter = s.warningFilter := rfl
@[simp] theorem writeFB_warningGenerated (s : State) (v : W15) : (writeFB s v).warningGenerated = s.warningGenerated := rfl
@[simp] theorem writeFB_downlinkLatch (s : State) (v : W15) : (writeFB s v).downlinkLatch = s.downlinkLatch := rfl
@[simp] theorem writeFB_downruptArmed (s : State) (v : W15) : (writeFB s v).downruptArmed = s.downruptArmed := rfl
@[simp] theorem writeFB_downruptTime (s : State) (v : W15) : (writeFB s v).downruptTime = s.downruptTime := rfl
@[simp] theorem writeFB_ready (s : State) (v : W15) : (writeFB s v).ready = s.ready := rfl

/-! ### writeBB -/

@[simp] theorem writeBB_a (s : State) (v : W15) : (writeBB s v).a = s.a := rfl
@[simp] theorem writeBB_l (s : State) (v : W15) : (writeBB s v).l = s.l := rfl
@[simp] theorem writeBB_q (s : State) (v : W15) : (writeBB s v).q = s.q := rfl
@[simp] theorem writeBB_eb (s : State) (v : W15) : (writeBB s v).eb = (v &&& 0o00007#15) <<< 8 := rfl
@[simp] theorem writeBB_fb (s : State) (v : W15) : (writeBB s v).fb = v &&& 0o76000#15 := rfl
@[simp] theorem writeBB_z (s : State) (v : W15) : (writeBB s v).z = s.z := rfl
@[simp] theorem writeBB_bb (s : State) (v : W15) : (writeBB s v).bb = v &&& 0o76007#15 := rfl
@[simp] theorem writeBB_file (s : State) (v : W15) : (writeBB s v).file = s.file := rfl
@[simp] theorem writeBB_ram (s : State) (v : W15) : (writeBB s v).ram = s.ram := rfl
@[simp] theorem writeBB_rom (s : State) (v : W15) : (writeBB s v).rom = s.rom := rfl
@[simp] theorem writeBB_chan (s : State) (v : W15) : (writeBB s v).chan = s.chan := rfl
@[simp] theorem writeBB_pendFlag (s : State) (v : W15) : (writeBB s v).pendFlag = s.pendFlag := rfl
@[simp] theorem writeBB_pendDelay (s : State) (v : W15) : (writeBB s v).pendDelay = s.pendDelay := rfl
@[simp] theorem writeBB_extraDelay (s : State) (v : W15) : (writeBB s v).extraDelay = s.extraDelay := rfl
@[simp] theorem writeBB_indexValue (s : State) (v : W15) : (writeBB s v).indexValue = s.indexValue := rfl
@[simp] theorem writeBB_substitute (s : State) (v : W15) : (writeBB s v).substitute = s.substitute := rfl
@[simp] theorem writeBB_extracode (s : State) (v : W15) : (writeBB s v).extracode = s.extracode := rfl
@[simp] theorem writeBB_intEnabled (s : State) (v : W15) : (writeBB s v).intEnabled = s.intEnabled := rfl
@[simp] theorem writeBB_inIsr (s : State) (v : W15) : (writeBB s v).inIsr = s.inIsr := rfl
@[simp] theorem writeBB_irq (s : State) (v : W15) : (writeBB s v).irq = s.irq := rfl
@[simp] theorem writeBB_irqLast (s : State) (v : W15) : (writeBB s v).irqLast = s.irqLast := rfl
@[simp] theorem writeBB_cycleCounter (s : State) (v : W15) : (writeBB s v).cycleCounter = s.cycleCounter := rfl
@[simp] theorem writeBB_scalerCounter (s : State) (v : W15) : (writeBB s v).scalerCounter = s.scalerCounter := rfl
@[simp] theorem writeBB_warningFilter (s : State) (v : W15) : (writeBB s v).warningFilter = s.warningFilter := rfl
@[simp] theorem writeBB_warningGenerated (s : State) (v : W15) : (writeBB s v).warningGenerated = s.warningGenerated := rfl
@[simp] theorem writeBB_downlinkLatch (s : State) (v : W15) : (writeBB s v).downlinkLatch = s.downlinkLatch := rfl
@[simp] theorem writeBB_downruptArmed (s : State) (v : W15) : (writeBB s v).downruptArmed = s.downruptArmed := rfl
@[simp] theorem writeBB_downruptTime (s : State) (v : W15) : (writeBB s v).downruptTime = s.downruptTime := rfl
@[simp] theorem writeBB_ready (s : State) (v : W15) : (writeBB s v).ready = s.ready := rfl

/-! ### ramWrite -/

@[simp] theorem ramWrite_a (s : State) (b : BitVec 3) (o : BitVec 8) (v : W15) : (ramWrite s b o v).a = s.a := rfl
@[simp] theorem ramWrite_l (s : State) (b : BitVec 3) (o : BitVec 8) (v : W15) : (ramWrite s b o v).l = s.l := rfl
@[simp] theorem ramWrite_q (s : State) (b : BitVec 3) (o : BitVec 8) (v : W15) : (ramWrite s b o v).q = s.q := rfl
@[simp] theorem ramWrite_eb (s : State) (b : BitVec 3) (o : BitVec 8) (v : W15) : (ramWrite s b o v).eb = s.eb := rfl
@[simp] theorem ramWrite_fb (s : State) (b : BitVec 3) (o : BitVec 8) (v : W15) : (ramWrite s b o v).fb = s.fb := rfl
@[simp] theorem ramWrite_z (s : State) (b : BitVec 3) (o : BitVec 8) (v : W15) : (ramWrite s b o v).z = s.z := rfl
@[simp] theorem ramWrite_bb (s : State) (b : BitVec 3) (o : BitVec 8) (v : W15) : (ramWrite s b o v).bb = s.bb := rfl
@[simp] theorem ramWrite_file (s : State) (b : BitVec 3) (o : BitVec 8) (v : W15) : (ramWrite s b o v).file = s.file := rfl
@[simp] theorem ramWrite_ram (s : State) (b : BitVec 3) (o : BitVec 8) (v : W15) : (ramWrite s b o v).ram = Memory.write blankCell s.ram (ramCell b o) v := rfl
@[simp] theorem ramWrite_rom (s : State) (b : BitVec 3) (o : BitVec 8) (v : W15) : (ramWrite s b o v).rom = s.rom := rfl
@[simp] theorem ramWrite_chan (s : State) (b : BitVec 3) (o : BitVec 8) (v : W15) : (ramWrite s b o v).chan = s.chan := rfl
@[simp] theorem ramWrite_pendFlag (s : State) (b : BitVec 3) (o : BitVec 8) (v : W15) : (ramWrite s b o v).pendFlag = s.pendFlag := rfl
@[simp] theorem ramWrite_pendDelay (s : State) (b : BitVec 3) (o : BitVec 8) (v : W15) : (ramWrite s b o v).pendDelay = s.pendDelay := rfl
@[simp] theorem ramWrite_extraDelay (s : State) (b : BitVec 3) (o : BitVec 8) (v : W15) : (ramWrite s b o v).extraDelay = s.extraDelay := rfl
@[simp] theorem ramWrite_indexValue (s : State) (b : BitVec 3) (o : BitVec 8) (v : W15) : (ramWrite s b o v).indexValue = s.indexValue := rfl
@[simp] theorem ramWrite_substitute (s : State) (b : BitVec 3) (o : BitVec 8) (v : W15) : (ramWrite s b o v).substitute = s.substitute := rfl
@[simp] theorem ramWrite_extracode (s : State) (b : BitVec 3) (o : BitVec 8) (v : W15) : (ramWrite s b o v).extracode = s.extracode := rfl
@[simp] theorem ramWrite_intEnabled (s : State) (b : BitVec 3) (o : BitVec 8) (v : W15) : (ramWrite s b o v).intEnabled = s.intEnabled := rfl
@[simp] theorem ramWrite_inIsr (s : State) (b : BitVec 3) (o : BitVec 8) (v : W15) : (ramWrite s b o v).inIsr = s.inIsr := rfl
@[simp] theorem ramWrite_irq (s : State) (b : BitVec 3) (o : BitVec 8) (v : W15) : (ramWrite s b o v).irq = s.irq := rfl
@[simp] theorem ramWrite_irqLast (s : State) (b : BitVec 3) (o : BitVec 8) (v : W15) : (ramWrite s b o v).irqLast = s.irqLast := rfl
@[simp] theorem ramWrite_cycleCounter (s : State) (b : BitVec 3) (o : BitVec 8) (v : W15) : (ramWrite s b o v).cycleCounter = s.cycleCounter := rfl
@[simp] theorem ramWrite_scalerCounter (s : State) (b : BitVec 3) (o : BitVec 8) (v : W15) : (ramWrite s b o v).scalerCounter = s.scalerCounter := rfl
@[simp] theorem ramWrite_warningFilter (s : State) (b : BitVec 3) (o : BitVec 8) (v : W15) : (ramWrite s b o v).warningFilter = s.warningFilter := rfl
@[simp] theorem ramWrite_warningGenerated (s : State) (b : BitVec 3) (o : BitVec 8) (v : W15) : (ramWrite s b o v).warningGenerated = s.warningGenerated := rfl
@[simp] theorem ramWrite_downlinkLatch (s : State) (b : BitVec 3) (o : BitVec 8) (v : W15) : (ramWrite s b o v).downlinkLatch = s.downlinkLatch := rfl
@[simp] theorem ramWrite_downruptArmed (s : State) (b : BitVec 3) (o : BitVec 8) (v : W15) : (ramWrite s b o v).downruptArmed = s.downruptArmed := rfl
@[simp] theorem ramWrite_downruptTime (s : State) (b : BitVec 3) (o : BitVec 8) (v : W15) : (ramWrite s b o v).downruptTime = s.downruptTime := rfl
@[simp] theorem ramWrite_ready (s : State) (b : BitVec 3) (o : BitVec 8) (v : W15) : (ramWrite s b o v).ready = s.ready := rfl

/-! ### chanWrite -/

@[simp] theorem chanWrite_a (s : State) (c : Nat) (v : W15) : (chanWrite s c v).a = s.a := rfl
@[simp] theorem chanWrite_l (s : State) (c : Nat) (v : W15) : (chanWrite s c v).l = s.l := rfl
@[simp] theorem chanWrite_q (s : State) (c : Nat) (v : W15) : (chanWrite s c v).q = s.q := rfl
@[simp] theorem chanWrite_eb (s : State) (c : Nat) (v : W15) : (chanWrite s c v).eb = s.eb := rfl
@[simp] theorem chanWrite_fb (s : State) (c : Nat) (v : W15) : (chanWrite s c v).fb = s.fb := rfl
@[simp] theorem chanWrite_z (s : State) (c : Nat) (v : W15) : (chanWrite s c v).z = s.z := rfl
@[simp] theorem chanWrite_bb (s : State) (c : Nat) (v : W15) : (chanWrite s c v).bb = s.bb := rfl
@[simp] theorem chanWrite_file (s : State) (c : Nat) (v : W15) : (chanWrite s c v).file = s.file := rfl
@[simp] theorem chanWrite_ram (s : State) (c : Nat) (v : W15) : (chanWrite s c v).ram = s.ram := rfl
@[simp] theorem chanWrite_rom (s : State) (c : Nat) (v : W15) : (chanWrite s c v).rom = s.rom := rfl
@[simp] theorem chanWrite_chan (s : State) (c : Nat) (v : W15) : (chanWrite s c v).chan = Memory.write config.ioReset s.chan c v := rfl
@[simp] theorem chanWrite_pendFlag (s : State) (c : Nat) (v : W15) : (chanWrite s c v).pendFlag = s.pendFlag := rfl
@[simp] theorem chanWrite_pendDelay (s : State) (c : Nat) (v : W15) : (chanWrite s c v).pendDelay = s.pendDelay := rfl
@[simp] theorem chanWrite_extraDelay (s : State) (c : Nat) (v : W15) : (chanWrite s c v).extraDelay = s.extraDelay := rfl
@[simp] theorem chanWrite_indexValue (s : State) (c : Nat) (v : W15) : (chanWrite s c v).indexValue = s.indexValue := rfl
@[simp] theorem chanWrite_substitute (s : State) (c : Nat) (v : W15) : (chanWrite s c v).substitute = s.substitute := rfl
@[simp] theorem chanWrite_extracode (s : State) (c : Nat) (v : W15) : (chanWrite s c v).extracode = s.extracode := rfl
@[simp] theorem chanWrite_intEnabled (s : State) (c : Nat) (v : W15) : (chanWrite s c v).intEnabled = s.intEnabled := rfl
@[simp] theorem chanWrite_inIsr (s : State) (c : Nat) (v : W15) : (chanWrite s c v).inIsr = s.inIsr := rfl
@[simp] theorem chanWrite_irq (s : State) (c : Nat) (v : W15) : (chanWrite s c v).irq = s.irq := rfl
@[simp] theorem chanWrite_irqLast (s : State) (c : Nat) (v : W15) : (chanWrite s c v).irqLast = s.irqLast := rfl
@[simp] theorem chanWrite_cycleCounter (s : State) (c : Nat) (v : W15) : (chanWrite s c v).cycleCounter = s.cycleCounter := rfl
@[simp] theorem chanWrite_scalerCounter (s : State) (c : Nat) (v : W15) : (chanWrite s c v).scalerCounter = s.scalerCounter := rfl
@[simp] theorem chanWrite_warningFilter (s : State) (c : Nat) (v : W15) : (chanWrite s c v).warningFilter = s.warningFilter := rfl
@[simp] theorem chanWrite_warningGenerated (s : State) (c : Nat) (v : W15) : (chanWrite s c v).warningGenerated = s.warningGenerated := rfl
@[simp] theorem chanWrite_downlinkLatch (s : State) (c : Nat) (v : W15) : (chanWrite s c v).downlinkLatch = s.downlinkLatch := rfl
@[simp] theorem chanWrite_downruptArmed (s : State) (c : Nat) (v : W15) : (chanWrite s c v).downruptArmed = s.downruptArmed := rfl
@[simp] theorem chanWrite_downruptTime (s : State) (c : Nat) (v : W15) : (chanWrite s c v).downruptTime = s.downruptTime := rfl
@[simp] theorem chanWrite_ready (s : State) (c : Nat) (v : W15) : (chanWrite s c v).ready = s.ready := rfl

/-! ### fileWrite -/

@[simp] theorem fileWrite_a (s : State) (k : Nat) (v : W15) : (fileWrite s k v).a = s.a := rfl
@[simp] theorem fileWrite_l (s : State) (k : Nat) (v : W15) : (fileWrite s k v).l = s.l := rfl
@[simp] theorem fileWrite_q (s : State) (k : Nat) (v : W15) : (fileWrite s k v).q = s.q := rfl
@[simp] theorem fileWrite_eb (s : State) (k : Nat) (v : W15) : (fileWrite s k v).eb = s.eb := rfl
@[simp] theorem fileWrite_fb (s : State) (k : Nat) (v : W15) : (fileWrite s k v).fb = s.fb := rfl
@[simp] theorem fileWrite_z (s : State) (k : Nat) (v : W15) : (fileWrite s k v).z = s.z := rfl
@[simp] theorem fileWrite_bb (s : State) (k : Nat) (v : W15) : (fileWrite s k v).bb = s.bb := rfl
@[simp] theorem fileWrite_file (s : State) (k : Nat) (v : W15) : (fileWrite s k v).file = s.file.setIfInBounds k v := rfl
@[simp] theorem fileWrite_ram (s : State) (k : Nat) (v : W15) : (fileWrite s k v).ram = s.ram := rfl
@[simp] theorem fileWrite_rom (s : State) (k : Nat) (v : W15) : (fileWrite s k v).rom = s.rom := rfl
@[simp] theorem fileWrite_chan (s : State) (k : Nat) (v : W15) : (fileWrite s k v).chan = s.chan := rfl
@[simp] theorem fileWrite_pendFlag (s : State) (k : Nat) (v : W15) : (fileWrite s k v).pendFlag = s.pendFlag := rfl
@[simp] theorem fileWrite_pendDelay (s : State) (k : Nat) (v : W15) : (fileWrite s k v).pendDelay = s.pendDelay := rfl
@[simp] theorem fileWrite_extraDelay (s : State) (k : Nat) (v : W15) : (fileWrite s k v).extraDelay = s.extraDelay := rfl
@[simp] theorem fileWrite_indexValue (s : State) (k : Nat) (v : W15) : (fileWrite s k v).indexValue = s.indexValue := rfl
@[simp] theorem fileWrite_substitute (s : State) (k : Nat) (v : W15) : (fileWrite s k v).substitute = s.substitute := rfl
@[simp] theorem fileWrite_extracode (s : State) (k : Nat) (v : W15) : (fileWrite s k v).extracode = s.extracode := rfl
@[simp] theorem fileWrite_intEnabled (s : State) (k : Nat) (v : W15) : (fileWrite s k v).intEnabled = s.intEnabled := rfl
@[simp] theorem fileWrite_inIsr (s : State) (k : Nat) (v : W15) : (fileWrite s k v).inIsr = s.inIsr := rfl
@[simp] theorem fileWrite_irq (s : State) (k : Nat) (v : W15) : (fileWrite s k v).irq = s.irq := rfl
@[simp] theorem fileWrite_irqLast (s : State) (k : Nat) (v : W15) : (fileWrite s k v).irqLast = s.irqLast := rfl
@[simp] theorem fileWrite_cycleCounter (s : State) (k : Nat) (v : W15) : (fileWrite s k v).cycleCounter = s.cycleCounter := rfl
@[simp] theorem fileWrite_scalerCounter (s : State) (k : Nat) (v : W15) : (fileWrite s k v).scalerCounter = s.scalerCounter := rfl
@[simp] theorem fileWrite_warningFilter (s : State) (k : Nat) (v : W15) : (fileWrite s k v).warningFilter = s.warningFilter := rfl
@[simp] theorem fileWrite_warningGenerated (s : State) (k : Nat) (v : W15) : (fileWrite s k v).warningGenerated = s.warningGenerated := rfl
@[simp] theorem fileWrite_downlinkLatch (s : State) (k : Nat) (v : W15) : (fileWrite s k v).downlinkLatch = s.downlinkLatch := rfl
@[simp] theorem fileWrite_downruptArmed (s : State) (k : Nat) (v : W15) : (fileWrite s k v).downruptArmed = s.downruptArmed := rfl
@[simp] theorem fileWrite_downruptTime (s : State) (k : Nat) (v : W15) : (fileWrite s k v).downruptTime = s.downruptTime := rfl
@[simp] theorem fileWrite_ready (s : State) (k : Nat) (v : W15) : (fileWrite s k v).ready = s.ready := rfl

/-! ### setPlainReg -/

@[simp] theorem setPlainReg_a (s : State) (n : Nat) (v : W15) : (setPlainReg s n v).a = s.a := rfl
@[simp] theorem setPlainReg_l (s : State) (n : Nat) (v : W15) : (setPlainReg s n v).l = s.l := rfl
@[simp] theorem setPlainReg_q (s : State) (n : Nat) (v : W15) : (setPlainReg s n v).q = s.q := rfl
@[simp] theorem setPlainReg_eb (s : State) (n : Nat) (v : W15) : (setPlainReg s n v).eb = s.eb := rfl
@[simp] theorem setPlainReg_fb (s : State) (n : Nat) (v : W15) : (setPlainReg s n v).fb = s.fb := rfl
@[simp] theorem setPlainReg_z (s : State) (n : Nat) (v : W15) : (setPlainReg s n v).z = s.z := rfl
@[simp] theorem setPlainReg_bb (s : State) (n : Nat) (v : W15) : (setPlainReg s n v).bb = s.bb := rfl
@[simp] theorem setPlainReg_file (s : State) (n : Nat) (v : W15) : (setPlainReg s n v).file = s.file.setIfInBounds (n - 0o10) v := rfl
@[simp] theorem setPlainReg_ram (s : State) (n : Nat) (v : W15) : (setPlainReg s n v).ram = s.ram := rfl
@[simp] theorem setPlainReg_rom (s : State) (n : Nat) (v : W15) : (setPlainReg s n v).rom = s.rom := rfl
@[simp] theorem setPlainReg_chan (s : State) (n : Nat) (v : W15) : (setPlainReg s n v).chan = s.chan := rfl
@[simp] theorem setPlainReg_pendFlag (s : State) (n : Nat) (v : W15) : (setPlainReg s n v).pendFlag = s.pendFlag := rfl
@[simp] theorem setPlainReg_pendDelay (s : State) (n : Nat) (v : W15) : (setPlainReg s n v).pendDelay = s.pendDelay := rfl
@[simp] theorem setPlainReg_extraDelay (s : State) (n : Nat) (v : W15) : (setPlainReg s n v).extraDelay = s.extraDelay := rfl
@[simp] theorem setPlainReg_indexValue (s : State) (n : Nat) (v : W15) : (setPlainReg s n v).indexValue = s.indexValue := rfl
@[simp] theorem setPlainReg_substitute (s : State) (n : Nat) (v : W15) : (setPlainReg s n v).substitute = s.substitute := rfl
@[simp] theorem setPlainReg_extracode (s : State) (n : Nat) (v : W15) : (setPlainReg s n v).extracode = s.extracode := rfl
@[simp] theorem setPlainReg_intEnabled (s : State) (n : Nat) (v : W15) : (setPlainReg s n v).intEnabled = s.intEnabled := rfl
@[simp] theorem setPlainReg_inIsr (s : State) (n : Nat) (v : W15) : (setPlainReg s n v).inIsr = s.inIsr := rfl
@[simp] theorem setPlainReg_irq (s : State) (n : Nat) (v : W15) : (setPlainReg s n v).irq = s.irq := rfl
@[simp] theorem setPlainReg_irqLast (s : State) (n : Nat) (v : W15) : (setPlainReg s n v).irqLast = s.irqLast := rfl
@[simp] theorem setPlainReg_cycleCounter (s : State) (n : Nat) (v : W15) : (setPlainReg s n v).cycleCounter = s.cycleCounter := rfl
@[simp] theorem setPlainReg_scalerCounter (s : State) (n : Nat) (v : W15) : (setPlainReg s n v).scalerCounter = s.scalerCounter := rfl
@[simp] theorem setPlainReg_warningFilter (s : State) (n : Nat) (v : W15) : (setPlainReg s n v).warningFilter = s.warningFilter := rfl
@[simp] theorem setPlainReg_warningGenerated (s : State) (n : Nat) (v : W15) : (setPlainReg s n v).warningGenerated = s.warningGenerated := rfl
@[simp] theorem setPlainReg_downlinkLatch (s : State) (n : Nat) (v : W15) : (setPlainReg s n v).downlinkLatch = s.downlinkLatch := rfl
@[simp] theorem setPlainReg_downruptArmed (s : State) (n : Nat) (v : W15) : (setPlainReg s n v).downruptArmed = s.downruptArmed := rfl
@[simp] theorem setPlainReg_downruptTime (s : State) (n : Nat) (v : W15) : (setPlainReg s n v).downruptTime = s.downruptTime := rfl
@[simp] theorem setPlainReg_ready (s : State) (n : Nat) (v : W15) : (setPlainReg s n v).ready = s.ready := rfl

/-! ### addExtraDelay -/

@[simp] theorem addExtraDelay_a (s : State) : (addExtraDelay s).a = s.a := rfl
@[simp] theorem addExtraDelay_l (s : State) : (addExtraDelay s).l = s.l := rfl
@[simp] theorem addExtraDelay_q (s : State) : (addExtraDelay s).q = s.q := rfl
@[simp] theorem addExtraDelay_eb (s : State) : (addExtraDelay s).eb = s.eb := rfl
@[simp] theorem addExtraDelay_fb (s : State) : (addExtraDelay s).fb = s.fb := rfl
@[simp] theorem addExtraDelay_z (s : State) : (addExtraDelay s).z = s.z := rfl
@[simp] theorem addExtraDelay_bb (s : State) : (addExtraDelay s).bb = s.bb := rfl
@[simp] theorem addExtraDelay_file (s : State) : (addExtraDelay s).file = s.file := rfl
@[simp] theorem addExtraDelay_ram (s : State) : (addExtraDelay s).ram = s.ram := rfl
@[simp] theorem addExtraDelay_rom (s : State) : (addExtraDelay s).rom = s.rom := rfl
@[simp] theorem addExtraDelay_chan (s : State) : (addExtraDelay s).chan = s.chan := rfl
@[simp] theorem addExtraDelay_pendFlag (s : State) : (addExtraDelay s).pendFlag = s.pendFlag := rfl
@[simp] theorem addExtraDelay_pendDelay (s : State) : (addExtraDelay s).pendDelay = s.pendDelay := rfl
@[simp] theorem addExtraDelay_extraDelay (s : State) : (addExtraDelay s).extraDelay = s.extraDelay + 1 := rfl
@[simp] theorem addExtraDelay_indexValue (s : State) : (addExtraDelay s).indexValue = s.indexValue := rfl
@[simp] theorem addExtraDelay_substitute (s : State) : (addExtraDelay s).substitute = s.substitute := rfl
@[simp] theorem addExtraDelay_extracode (s : State) : (addExtraDelay s).extracode = s.extracode := rfl
@[simp] theorem addExtraDelay_intEnabled (s : State) : (addExtraDelay s).intEnabled = s.intEnabled := rfl
@[simp] theorem addExtraDelay_inIsr (s : State) : (addExtraDelay s).inIsr = s.inIsr := rfl
@[simp] theorem addExtraDelay_irq (s : State) : (addExtraDelay s).irq = s.irq := rfl
@[simp] theorem addExtraDelay_irqLast (s : State) : (addExtraDelay s).irqLast = s.irqLast := rfl
@[simp] theorem addExtraDelay_cycleCounter (s : State) : (addExtraDelay s).cycleCounter = s.cycleCounter := rfl
@[simp] theorem addExtraDelay_scalerCounter (s : State) : (addExtraDelay s).scalerCounter = s.scalerCounter := rfl
@[simp] theorem addExtraDelay_warningFilter (s : State) : (addExtraDelay s).warningFilter = s.warningFilter := rfl
@[simp] theorem addExtraDelay_warningGenerated (s : State) : (addExtraDelay s).warningGenerated = s.warningGenerated := rfl
@[simp] theorem addExtraDelay_downlinkLatch (s : State) : (addExtraDelay s).downlinkLatch = s.downlinkLatch := rfl
@[simp] theorem addExtraDelay_downruptArmed (s : State) : (addExtraDelay s).downruptArmed = s.downruptArmed := rfl
@[simp] theorem addExtraDelay_downruptTime (s : State) : (addExtraDelay s).downruptTime = s.downruptTime := rfl
@[simp] theorem addExtraDelay_ready (s : State) : (addExtraDelay s).ready = s.ready := rfl

/-! ### saveInterrupted -/

@[simp] theorem saveInterrupted_a (s : State) (pc0 : W12) (iw : W15) : (saveInterrupted s pc0 iw).a = s.a := rfl
@[simp] theorem saveInterrupted_l (s : State) (pc0 : W12) (iw : W15) : (saveInterrupted s pc0 iw).l = s.l := rfl
@[simp] theorem saveInterrupted_q (s : State) (pc0 : W12) (iw : W15) : (saveInterrupted s pc0 iw).q = s.q := rfl
@[simp] theorem saveInterrupted_eb (s : State) (pc0 : W12) (iw : W15) : (saveInterrupted s pc0 iw).eb = s.eb := rfl
@[simp] theorem saveInterrupted_fb (s : State) (pc0 : W12) (iw : W15) : (saveInterrupted s pc0 iw).fb = s.fb := rfl
@[simp] theorem saveInterrupted_z (s : State) (pc0 : W12) (iw : W15) : (saveInterrupted s pc0 iw).z = s.z := rfl
@[simp] theorem saveInterrupted_bb (s : State) (pc0 : W12) (iw : W15) : (saveInterrupted s pc0 iw).bb = s.bb := rfl
@[simp] theorem saveInterrupted_ram (s : State) (pc0 : W12) (iw : W15) : (saveInterrupted s pc0 iw).ram = s.ram := rfl
@[simp] theorem saveInterrupted_rom (s : State) (pc0 : W12) (iw : W15) : (saveInterrupted s pc0 iw).rom = s.rom := rfl
@[simp] theorem saveInterrupted_chan (s : State) (pc0 : W12) (iw : W15) : (saveInterrupted s pc0 iw).chan = s.chan := rfl
@[simp] theorem saveInterrupted_pendFlag (s : State) (pc0 : W12) (iw : W15) : (saveInterrupted s pc0 iw).pendFlag = s.pendFlag := rfl
@[simp] theorem saveInterrupted_pendDelay (s : State) (pc0 : W12) (iw : W15) : (saveInterrupted s pc0 iw).pendDelay = s.pendDelay := rfl
@[simp] theorem saveInterrupted_extraDelay (s : State) (pc0 : W12) (iw : W15) : (saveInterrupted s pc0 iw).extraDelay = s.extraDelay + 1 := rfl
@[simp] theorem saveInterrupted_indexValue (s : State) (pc0 : W12) (iw : W15) : (saveInterrupted s pc0 iw).indexValue = 0#15 := rfl
@[simp] theorem saveInterrupted_substitute (s : State) (pc0 : W12) (iw : W15) : (saveInterrupted s pc0 iw).substitute = false := rfl
@[simp] theorem saveInterrupted_extracode (s : State) (pc0 : W12) (iw : W15) : (saveInterrupted s pc0 iw).extracode = false := rfl
@[simp] theorem saveInterrupted_intEnabled (s : State) (pc0 : W12) (iw : W15) : (saveInterrupted s pc0 iw).intEnabled = s.intEnabled := rfl
@[simp] theorem saveInterrupted_inIsr (s : State) (pc0 : W12) (iw : W15) : (saveInterrupted s pc0 iw).inIsr = true := rfl
@[simp] theorem saveInterrupted_irq (s : State) (pc0 : W12) (iw : W15) : (saveInterrupted s pc0 iw).irq = s.irq := rfl
@[simp] theorem saveInterrupted_irqLast (s : State) (pc0 : W12) (iw : W15) : (saveInterrupted s pc0 iw).irqLast = s.irqLast := rfl
@[simp] theorem saveInterrupted_cycleCounter (s : State) (pc0 : W12) (iw : W15) : (saveInterrupted s pc0 iw).cycleCounter = s.cycleCounter := rfl
@[simp] theorem saveInterrupted_scalerCounter (s : State) (pc0 : W12) (iw : W15) : (saveInterrupted s pc0 iw).scalerCounter = s.scalerCounter := rfl
@[simp] theorem saveInterrupted_warningFilter (s : State) (pc0 : W12) (iw : W15) : (saveInterrupted s pc0 iw).warningFilter = s.warningFilter := rfl
@[simp] theorem saveInterrupted_warningGenerated (s : State) (pc0 : W12) (iw : W15) : (saveInterrupted s pc0 iw).warningGenerated = s.warningGenerated := rfl
@[simp] theorem saveInterrupted_downlinkLatch (s : State) (pc0 : W12) (iw : W15) : (saveInterrupted s pc0 iw).downlinkLatch = s.downlinkLatch := rfl
@[simp] theorem saveInterrupted_downruptArmed (s : State) (pc0 : W12) (iw : W15) : (saveInterrupted s pc0 iw).downruptArmed = s.downruptArmed := rfl
@[simp] theorem saveInterrupted_downruptTime (s : State) (pc0 : W12) (iw : W15) : (saveInterrupted s pc0 iw).downruptTime = s.downruptTime := rfl
@[simp] theorem saveInterrupted_ready (s : State) (pc0 : W12) (iw : W15) : (saveInterrupted s pc0 iw).ready = s.ready := rfl

/-! ### returnFromInterrupt -/

@[simp] theorem returnFromInterrupt_a (s : State) : (returnFromInterrupt s).a = s.a := rfl
@[simp] theorem returnFromInterrupt_l (s : State) : (returnFromInterrupt s).l = s.l := rfl
@[simp] theorem returnFromInterrupt_q (s : State) : (returnFromInterrupt s).q = s.q := rfl
@[simp] theorem returnFromInterrupt_eb (s : State) : (returnFromInterrupt s).eb = s.eb := rfl
@[simp] theorem returnFromInterrupt_fb (s : State) : (returnFromInterrupt s).fb = s.fb := rfl
@[simp] theorem returnFromInterrupt_z (s : State) : (returnFromInterrupt s).z = (plainReg s regZrupt - 1#15).setWidth 12 := rfl
@[simp] theorem returnFromInterrupt_bb (s : State) : (returnFromInterrupt s).bb = s.bb := rfl
@[simp] theorem returnFromInterrupt_file (s : State) : (returnFromInterrupt s).file = s.file := rfl
@[simp] theorem returnFromInterrupt_ram (s : State) : (returnFromInterrupt s).ram = s.ram := rfl
@[simp] theorem returnFromInterrupt_rom (s : State) : (returnFromInterrupt s).rom = s.rom := rfl
@[simp] theorem returnFromInterrupt_chan (s : State) : (returnFromInterrupt s).chan = s.chan := rfl
@[simp] theorem returnFromInterrupt_pendFlag (s : State) : (returnFromInterrupt s).pendFlag = s.pendFlag := rfl
@[simp] theorem returnFromInterrupt_pendDelay (s : State) : (returnFromInterrupt s).pendDelay = s.pendDelay := rfl
@[simp] theorem returnFromInterrupt_extraDelay (s : State) : (returnFromInterrupt s).extraDelay = s.extraDelay := rfl
@[simp] theorem returnFromInterrupt_indexValue (s : State) : (returnFromInterrupt s).indexValue = s.indexValue := rfl
@[simp] theorem returnFromInterrupt_substitute (s : State) : (returnFromInterrupt s).substitute = true := rfl
@[simp] theorem returnFromInterrupt_extracode (s : State) : (returnFromInterrupt s).extracode = s.extracode := rfl
@[simp] theorem returnFromInterrupt_intEnabled (s : State) : (returnFromInterrupt s).intEnabled = s.intEnabled := rfl
@[simp] theorem returnFromInterrupt_inIsr (s : State) : (returnFromInterrupt s).inIsr = false := rfl
@[simp] theorem returnFromInterrupt_irq (s : State) : (returnFromInterrupt s).irq = s.irq := rfl
@[simp] theorem returnFromInterrupt_irqLast (s : State) : (returnFromInterrupt s).irqLast = s.irqLast := rfl
@[simp] theorem returnFromInterrupt_cycleCounter (s : State) : (returnFromInterrupt s).cycleCounter = s.cycleCounter := rfl
@[simp] theorem returnFromInterrupt_scalerCounter (s : State) : (returnFromInterrupt s).scalerCounter = s.scalerCounter := rfl
@[simp] theorem returnFromInterrupt_warningFilter (s : State) : (returnFromInterrupt s).warningFilter = s.warningFilter := rfl
@[simp] theorem returnFromInterrupt_warningGenerated (s : State) : (returnFromInterrupt s).warningGenerated = s.warningGenerated := rfl
@[simp] theorem returnFromInterrupt_downlinkLatch (s : State) : (returnFromInterrupt s).downlinkLatch = s.downlinkLatch := rfl
@[simp] theorem returnFromInterrupt_downruptArmed (s : State) : (returnFromInterrupt s).downruptArmed = s.downruptArmed := rfl
@[simp] theorem returnFromInterrupt_downruptTime (s : State) : (returnFromInterrupt s).downruptTime = s.downruptTime := rfl
@[simp] theorem returnFromInterrupt_ready (s : State) : (returnFromInterrupt s).ready = s.ready := rfl

/-! ### setIrq -/

@[simp] theorem setIrq_a (s : State) (n : Nat) (b : Bool) : (setIrq s n b).a = s.a := by cases n <;> rfl
@[simp] theorem setIrq_l (s : State) (n : Nat) (b : Bool) : (setIrq s n b).l = s.l := by cases n <;> rfl
@[simp] theorem setIrq_q (s : State) (n : Nat) (b : Bool) : (setIrq s n b).q = s.q := by cases n <;> rfl
@[simp] theorem setIrq_eb (s : State) (n : Nat) (b : Bool) : (setIrq s n b).eb = s.eb := by cases n <;> rfl
@[simp] theorem setIrq_fb (s : State) (n : Nat) (b : Bool) : (setIrq s n b).fb = s.fb := by cases n <;> rfl
@[simp] theorem setIrq_z (s : State) (n : Nat) (b : Bool) : (setIrq s n b).z = s.z := by cases n <;> rfl
@[simp] theorem setIrq_bb (s : State) (n : Nat) (b : Bool) : (setIrq s n b).bb = s.bb := by cases n <;> rfl
@[simp] theorem setIrq_file (s : State) (n : Nat) (b : Bool) : (setIrq s n b).file = s.file := by cases n <;> rfl
@[simp] theorem setIrq_ram (s : State) (n : Nat) (b : Bool) : (setIrq s n b).ram = s.ram := by cases n <;> rfl
@[simp] theorem setIrq_rom (s : State) (n : Nat) (b : Bool) : (setIrq s n b).rom = s.rom := by cases n <;> rfl
@[simp] theorem setIrq_chan (s : State) (n : Nat) (b : Bool) : (setIrq s n b).chan = s.chan := by cases n <;> rfl
@[simp] theorem setIrq_pendFlag (s : State) (n : Nat) (b : Bool) : (setIrq s n b).pendFlag = s.pendFlag := by cases n <;> rfl
@[simp] theorem setIrq_pendDelay (s : State) (n : Nat) (b : Bool) : (setIrq s n b).pendDelay = s.pendDelay := by cases n <;> rfl
@[simp] theorem setIrq_extraDelay (s : State) (n : Nat) (b : Bool) : (setIrq s n b).extraDelay = s.extraDelay := by cases n <;> rfl
@[simp] theorem setIrq_indexValue (s : State) (n : Nat) (b : Bool) : (setIrq s n b).indexValue = s.indexValue := by cases n <;> rfl
@[simp] theorem setIrq_substitute (s : State) (n : Nat) (b : Bool) : (setIrq s n b).substitute = s.substitute := by cases n <;> rfl
@[simp] theorem setIrq_extracode (s : State) (n : Nat) (b : Bool) : (setIrq s n b).extracode = s.extracode := by cases n <;> rfl
@[simp] theorem setIrq_intEnabled (s : State) (n : Nat) (b : Bool) : (setIrq s n b).intEnabled = s.intEnabled := by cases n <;> rfl
@[simp] theorem setIrq_inIsr (s : State) (n : Nat) (b : Bool) : (setIrq s n b).inIsr = s.inIsr := by cases n <;> rfl
@[simp] theorem setIrq_irqLast (s : State) (n : Nat) (b : Bool) : (setIrq s n b).irqLast = s.irqLast := by cases n <;> rfl
@[simp] theorem setIrq_cycleCounter (s : State) (n : Nat) (b : Bool) : (setIrq s n b).cycleCounter = s.cycleCounter := by cases n <;> rfl
@[simp] theorem setIrq_scalerCounter (s : State) (n : Nat) (b : Bool) : (setIrq s n b).scalerCounter = s.scalerCounter := by cases n <;> rfl
@[simp] theorem setIrq_warningFilter (s : State) (n : Nat) (b : Bool) : (setIrq s n b).warningFilter = s.warningFilter := by cases n <;> rfl
@[simp] theorem setIrq_warningGenerated (s : State) (n : Nat) (b : Bool) : (setIrq s n b).warningGenerated = s.warningGenerated := by cases n <;> rfl
@[simp] theorem setIrq_downlinkLatch (s : State) (n : Nat) (b : Bool) : (setIrq s n b).downlinkLatch = s.downlinkLatch := by cases n <;> rfl
@[simp] theorem setIrq_downruptArmed (s : State) (n : Nat) (b : Bool) : (setIrq s n b).downruptArmed = s.downruptArmed := by cases n <;> rfl
@[simp] theorem setIrq_downruptTime (s : State) (n : Nat) (b : Bool) : (setIrq s n b).downruptTime = s.downruptTime := by cases n <;> rfl
@[simp] theorem setIrq_ready (s : State) (n : Nat) (b : Bool) : (setIrq s n b).ready = s.ready := by cases n <;> rfl

/-! ### raiseIrq -/

@[simp] theorem raiseIrq_a (s : State) (n : Nat) : (raiseIrq s n).a = s.a := by cases n <;> rfl
@[simp] theorem raiseIrq_l (s : State) (n : Nat) : (raiseIrq s n).l = s.l := by cases n <;> rfl
@[simp] theorem raiseIrq_q (s : State) (n : Nat) : (raiseIrq s n).q = s.q := by cases n <;> rfl
@[simp] theorem raiseIrq_eb (s : State) (n : Nat) : (raiseIrq s n).eb = s.eb := by cases n <;> rfl
@[simp] theorem raiseIrq_fb (s : State) (n : Nat) : (raiseIrq s n).fb = s.fb := by cases n <;> rfl
@[simp] theorem raiseIrq_z (s : State) (n : Nat) : (raiseIrq s n).z = s.z := by cases n <;> rfl
@[simp] theorem raiseIrq_bb (s : State) (n : Nat) : (raiseIrq s n).bb = s.bb := by cases n <;> rfl
@[simp] theorem raiseIrq_file (s : State) (n : Nat) : (raiseIrq s n).file = s.file := by cases n <;> rfl
@[simp] theorem raiseIrq_ram (s : State) (n : Nat) : (raiseIrq s n).ram = s.ram := by cases n <;> rfl
@[simp] theorem raiseIrq_rom (s : State) (n : Nat) : (raiseIrq s n).rom = s.rom := by cases n <;> rfl
@[simp] theorem raiseIrq_chan (s : State) (n : Nat) : (raiseIrq s n).chan = s.chan := by cases n <;> rfl
@[simp] theorem raiseIrq_pendFlag (s : State) (n : Nat) : (raiseIrq s n).pendFlag = s.pendFlag := by cases n <;> rfl
@[simp] theorem raiseIrq_pendDelay (s : State) (n : Nat) : (raiseIrq s n).pendDelay = s.pendDelay := by cases n <;> rfl
@[simp] theorem raiseIrq_extraDelay (s : State) (n : Nat) : (raiseIrq s n).extraDelay = s.extraDelay := by cases n <;> rfl
@[simp] theorem raiseIrq_indexValue (s : State) (n : Nat) : (raiseIrq s n).indexValue = s.indexValue := by cases n <;> rfl
@[simp] theorem raiseIrq_substitute (s : State) (n : Nat) : (raiseIrq s n).substitute = s.substitute := by cases n <;> rfl
@[simp] theorem raiseIrq_extracode (s : State) (n : Nat) : (raiseIrq s n).extracode = s.extracode := by cases n <;> rfl
@[simp] theorem raiseIrq_intEnabled (s : State) (n : Nat) : (raiseIrq s n).intEnabled = s.intEnabled := by cases n <;> rfl
@[simp] theorem raiseIrq_inIsr (s : State) (n : Nat) : (raiseIrq s n).inIsr = s.inIsr := by cases n <;> rfl
@[simp] theorem raiseIrq_irqLast (s : State) (n : Nat) : (raiseIrq s n).irqLast = s.irqLast := by cases n <;> rfl
@[simp] theorem raiseIrq_cycleCounter (s : State) (n : Nat) : (raiseIrq s n).cycleCounter = s.cycleCounter := by cases n <;> rfl
@[simp] theorem raiseIrq_scalerCounter (s : State) (n : Nat) : (raiseIrq s n).scalerCounter = s.scalerCounter := by cases n <;> rfl
@[simp] theorem raiseIrq_warningFilter (s : State) (n : Nat) : (raiseIrq s n).warningFilter = s.warningFilter := by cases n <;> rfl
@[simp] theorem raiseIrq_warningGenerated (s : State) (n : Nat) : (raiseIrq s n).warningGenerated = s.warningGenerated := by cases n <;> rfl
@[simp] theorem raiseIrq_downlinkLatch (s : State) (n : Nat) : (raiseIrq s n).downlinkLatch = s.downlinkLatch := by cases n <;> rfl
@[simp] theorem raiseIrq_downruptArmed (s : State) (n : Nat) : (raiseIrq s n).downruptArmed = s.downruptArmed := by cases n <;> rfl
@[simp] theorem raiseIrq_downruptTime (s : State) (n : Nat) : (raiseIrq s n).downruptTime = s.downruptTime := by cases n <;> rfl
@[simp] theorem raiseIrq_ready (s : State) (n : Nat) : (raiseIrq s n).ready = s.ready := by cases n <;> rfl

/-! ### takeRequest -/

@[simp] theorem takeRequest_a (s : State) (n : Nat) : (takeRequest s n).a = s.a := by cases n <;> rfl
@[simp] theorem takeRequest_l (s : State) (n : Nat) : (takeRequest s n).l = s.l := by cases n <;> rfl
@[simp] theorem takeRequest_q (s : State) (n : Nat) : (takeRequest s n).q = s.q := by cases n <;> rfl
@[simp] theorem takeRequest_eb (s : State) (n : Nat) : (takeRequest s n).eb = s.eb := by cases n <;> rfl
@[simp] theorem takeRequest_fb (s : State) (n : Nat) : (takeRequest s n).fb = s.fb := by cases n <;> rfl
@[simp] theorem takeRequest_z (s : State) (n : Nat) : (takeRequest s n).z = vectorAddress n := by cases n <;> rfl
@[simp] theorem takeRequest_bb (s : State) (n : Nat) : (takeRequest s n).bb = s.bb := by cases n <;> rfl
@[simp] theorem takeRequest_file (s : State) (n : Nat) : (takeRequest s n).file = s.file := by cases n <;> rfl
@[simp] theorem takeRequest_ram (s : State) (n : Nat) : (takeRequest s n).ram = s.ram := by cases n <;> rfl
@[simp] theorem takeRequest_rom (s : State) (n : Nat) : (takeRequest s n).rom = s.rom := by cases n <;> rfl
@[simp] theorem takeRequest_chan (s : State) (n : Nat) : (takeRequest s n).chan = s.chan := by cases n <;> rfl
@[simp] theorem takeRequest_pendFlag (s : State) (n : Nat) : (takeRequest s n).pendFlag = s.pendFlag := by cases n <;> rfl
@[simp] theorem takeRequest_pendDelay (s : State) (n : Nat) : (takeRequest s n).pendDelay = s.pendDelay := by cases n <;> rfl
@[simp] theorem takeRequest_extraDelay (s : State) (n : Nat) : (takeRequest s n).extraDelay = s.extraDelay := by cases n <;> rfl
@[simp] theorem takeRequest_indexValue (s : State) (n : Nat) : (takeRequest s n).indexValue = s.indexValue := by cases n <;> rfl
@[simp] theorem takeRequest_substitute (s : State) (n : Nat) : (takeRequest s n).substitute = s.substitute := by cases n <;> rfl
@[simp] theorem takeRequest_extracode (s : State) (n : Nat) : (takeRequest s n).extracode = s.extracode := by cases n <;> rfl
@[simp] theorem takeRequest_intEnabled (s : State) (n : Nat) : (takeRequest s n).intEnabled = s.intEnabled := by cases n <;> rfl
@[simp] theorem takeRequest_inIsr (s : State) (n : Nat) : (takeRequest s n).inIsr = s.inIsr := by cases n <;> rfl
@[simp] theorem takeRequest_irqLast (s : State) (n : Nat) : (takeRequest s n).irqLast = n := by cases n <;> rfl
@[simp] theorem takeRequest_cycleCounter (s : State) (n : Nat) : (takeRequest s n).cycleCounter = s.cycleCounter := by cases n <;> rfl
@[simp] theorem takeRequest_scalerCounter (s : State) (n : Nat) : (takeRequest s n).scalerCounter = s.scalerCounter := by cases n <;> rfl
@[simp] theorem takeRequest_warningFilter (s : State) (n : Nat) : (takeRequest s n).warningFilter = s.warningFilter := by cases n <;> rfl
@[simp] theorem takeRequest_warningGenerated (s : State) (n : Nat) : (takeRequest s n).warningGenerated = s.warningGenerated := by cases n <;> rfl
@[simp] theorem takeRequest_downlinkLatch (s : State) (n : Nat) : (takeRequest s n).downlinkLatch = s.downlinkLatch := by cases n <;> rfl
@[simp] theorem takeRequest_downruptArmed (s : State) (n : Nat) : (takeRequest s n).downruptArmed = s.downruptArmed := by cases n <;> rfl
@[simp] theorem takeRequest_downruptTime (s : State) (n : Nat) : (takeRequest s n).downruptTime = s.downruptTime := by cases n <;> rfl
@[simp] theorem takeRequest_ready (s : State) (n : Nat) : (takeRequest s n).ready = s.ready := by cases n <;> rfl

/-! ### latchDownlink -/

@[simp] theorem latchDownlink_a (s : State) (c : Nat) : (latchDownlink s c).a = s.a := by unfold latchDownlink; dsimp only; split <;> rfl
@[simp] theorem latchDownlink_l (s : State) (c : Nat) : (latchDownlink s c).l = s.l := by unfold latchDownlink; dsimp only; split <;> rfl
@[simp] theorem latchDownlink_q (s : State) (c : Nat) : (latchDownlink s c).q = s.q := by unfold latchDownlink; dsimp only; split <;> rfl
@[simp] theorem latchDownlink_eb (s : State) (c : Nat) : (latchDownlink s c).eb = s.eb := by unfold latchDownlink; dsimp only; split <;> rfl
@[simp] theorem latchDownlink_fb (s : State) (c : Nat) : (latchDownlink s c).fb = s.fb := by unfold latchDownlink; dsimp only; split <;> rfl
@[simp] theorem latchDownlink_z (s : State) (c : Nat) : (latchDownlink s c).z = s.z := by unfold latchDownlink; dsimp only; split <;> rfl
@[simp] theorem latchDownlink_bb (s : State) (c : Nat) : (latchDownlink s c).bb = s.bb := by unfold latchDownlink; dsimp only; split <;> rfl
@[simp] theorem latchDownlink_file (s : State) (c : Nat) : (latchDownlink s c).file = s.file := by unfold latchDownlink; dsimp only; split <;> rfl
@[simp] theorem latchDownlink_ram (s : State) (c : Nat) : (latchDownlink s c).ram = s.ram := by unfold latchDownlink; dsimp only; split <;> rfl
@[simp] theorem latchDownlink_rom (s : State) (c : Nat) : (latchDownlink s c).rom = s.rom := by unfold latchDownlink; dsimp only; split <;> rfl
@[simp] theorem latchDownlink_chan (s : State) (c : Nat) : (latchDownlink s c).chan = s.chan := by unfold latchDownlink; dsimp only; split <;> rfl
@[simp] theorem latchDownlink_pendFlag (s : State) (c : Nat) : (latchDownlink s c).pendFlag = s.pendFlag := by unfold latchDownlink; dsimp only; split <;> rfl
@[simp] theorem latchDownlink_pendDelay (s : State) (c : Nat) : (latchDownlink s c).pendDelay = s.pendDelay := by unfold latchDownlink; dsimp only; split <;> rfl
@[simp] theorem latchDownlink_extraDelay (s : State) (c : Nat) : (latchDownlink s c).extraDelay = s.extraDelay := by unfold latchDownlink; dsimp only; split <;> rfl
@[simp] theorem latchDownlink_indexValue (s : State) (c : Nat) : (latchDownlink s c).indexValue = s.indexValue := by unfold latchDownlink; dsimp only; split <;> rfl
@[simp] theorem latchDownlink_substitute (s : State) (c : Nat) : (latchDownlink s c).substitute = s.substitute := by unfold latchDownlink; dsimp only; split <;> rfl
@[simp] theorem latchDownlink_extracode (s : State) (c : Nat) : (latchDownlink s c).extracode = s.extracode := by unfold latchDownlink; dsimp only; split <;> rfl
@[simp] theorem latchDownlink_intEnabled (s : State) (c : Nat) : (latchDownlink s c).intEnabled = s.intEnabled := by unfold latchDownlink; dsimp only; split <;> rfl
@[simp] theorem latchDownlink_inIsr (s : State) (c : Nat) : (latchDownlink s c).inIsr = s.inIsr := by unfold latchDownlink; dsimp only; split <;> rfl
@[simp] theorem latchDownlink_irq (s : State) (c : Nat) : (latchDownlink s c).irq = s.irq := by unfold latchDownlink; dsimp only; split <;> rfl
@[simp] theorem latchDownlink_irqLast (s : State) (c : Nat) : (latchDownlink s c).irqLast = s.irqLast := by unfold latchDownlink; dsimp only; split <;> rfl
@[simp] theorem latchDownlink_cycleCounter (s : State) (c : Nat) : (latchDownlink s c).cycleCounter = s.cycleCounter := by unfold latchDownlink; dsimp only; split <;> rfl
@[simp] theorem latchDownlink_scalerCounter (s : State) (c : Nat) : (latchDownlink s c).scalerCounter = s.scalerCounter := by unfold latchDownlink; dsimp only; split <;> rfl
@[simp] theorem latchDownlink_warningFilter (s : State) (c : Nat) : (latchDownlink s c).warningFilter = s.warningFilter := by unfold latchDownlink; dsimp only; split <;> rfl
@[simp] theorem latchDownlink_warningGenerated (s : State) (c : Nat) : (latchDownlink s c).warningGenerated = s.warningGenerated := by unfold latchDownlink; dsimp only; split <;> rfl
@[simp] theorem latchDownlink_ready (s : State) (c : Nat) : (latchDownlink s c).ready = s.ready := by unfold latchDownlink; dsimp only; split <;> rfl

/-! ### writeReg -/

@[simp] theorem writeReg_ram (s : State) (n : Nat) (v : W16) : (writeReg s n v).ram = s.ram := by unfold writeReg; split <;> rfl
@[simp] theorem writeReg_rom (s : State) (n : Nat) (v : W16) : (writeReg s n v).rom = s.rom := by unfold writeReg; split <;> rfl
@[simp] theorem writeReg_chan (s : State) (n : Nat) (v : W16) : (writeReg s n v).chan = s.chan := by unfold writeReg; split <;> rfl
@[simp] theorem writeReg_pendFlag (s : State) (n : Nat) (v : W16) : (writeReg s n v).pendFlag = s.pendFlag := by unfold writeReg; split <;> rfl
@[simp] theorem writeReg_pendDelay (s : State) (n : Nat) (v : W16) : (writeReg s n v).pendDelay = s.pendDelay := by unfold writeReg; split <;> rfl
@[simp] theorem writeReg_extraDelay (s : State) (n : Nat) (v : W16) : (writeReg s n v).extraDelay = s.extraDelay := by unfold writeReg; split <;> rfl
@[simp] theorem writeReg_indexValue (s : State) (n : Nat) (v : W16) : (writeReg s n v).indexValue = s.indexValue := by unfold writeReg; split <;> rfl
@[simp] theorem writeReg_substitute (s : State) (n : Nat) (v : W16) : (writeReg s n v).substitute = s.substitute := by unfold writeReg; split <;> rfl
@[simp] theorem writeReg_extracode (s : State) (n : Nat) (v : W16) : (writeReg s n v).extracode = s.extracode := by unfold writeReg; split <;> rfl
@[simp] theorem writeReg_intEnabled (s : State) (n : Nat) (v : W16) : (writeReg s n v).intEnabled = s.intEnabled := by unfold writeReg; split <;> rfl
@[simp] theorem writeReg_inIsr (s : State) (n : Nat) (v : W16) : (writeReg s n v).inIsr = s.inIsr := by unfold writeReg; split <;> rfl
@[simp] theorem writeReg_irq (s : State) (n : Nat) (v : W16) : (writeReg s n v).irq = s.irq := by unfold writeReg; split <;> rfl
@[simp] theorem writeReg_irqLast (s : State) (n : Nat) (v : W16) : (writeReg s n v).irqLast = s.irqLast := by unfold writeReg; split <;> rfl
@[simp] theorem writeReg_cycleCounter (s : State) (n : Nat) (v : W16) : (writeReg s n v).cycleCounter = s.cycleCounter := by unfold writeReg; split <;> rfl
@[simp] theorem writeReg_scalerCounter (s : State) (n : Nat) (v : W16) : (writeReg s n v).scalerCounter = s.scalerCounter := by unfold writeReg; split <;> rfl
@[simp] theorem writeReg_warningFilter (s : State) (n : Nat) (v : W16) : (writeReg s n v).warningFilter = s.warningFilter := by unfold writeReg; split <;> rfl
@[simp] theorem writeReg_warningGenerated (s : State) (n : Nat) (v : W16) : (writeReg s n v).warningGenerated = s.warningGenerated := by unfold writeReg; split <;> rfl
@[simp] theorem writeReg_downlinkLatch (s : State) (n : Nat) (v : W16) : (writeReg s n v).downlinkLatch = s.downlinkLatch := by unfold writeReg; split <;> rfl
@[simp] theorem writeReg_downruptArmed (s : State) (n : Nat) (v : W16) : (writeReg s n v).downruptArmed = s.downruptArmed := by unfold writeReg; split <;> rfl
@[simp] theorem writeReg_downruptTime (s : State) (n : Nat) (v : W16) : (writeReg s n v).downruptTime = s.downruptTime := by unfold writeReg; split <;> rfl
@[simp] theorem writeReg_ready (s : State) (n : Nat) (v : W16) : (writeReg s n v).ready = s.ready := by unfold writeReg; split <;> rfl

/-! ### writePlace -/

@[simp] theorem writePlace_rom (s : State) (p : Place) (v : W16) : (writePlace s p v).rom = s.rom := by cases p <;> simp [writePlace]
@[simp] theorem writePlace_chan (s : State) (p : Place) (v : W16) : (writePlace s p v).chan = s.chan := by cases p <;> simp [writePlace]
@[simp] theorem writePlace_pendFlag (s : State) (p : Place) (v : W16) : (writePlace s p v).pendFlag = s.pendFlag := by cases p <;> simp [writePlace]
@[simp] theorem writePlace_pendDelay (s : State) (p : Place) (v : W16) : (writePlace s p v).pendDelay = s.pendDelay := by cases p <;> simp [writePlace]
@[simp] theorem writePlace_extraDelay (s : State) (p : Place) (v : W16) : (writePlace s p v).extraDelay = s.extraDelay := by cases p <;> simp [writePlace]
@[simp] theorem writePlace_indexValue (s : State) (p : Place) (v : W16) : (writePlace s p v).indexValue = s.indexValue := by cases p <;> simp [writePlace]
@[simp] theorem writePlace_substitute (s : State) (p : Place) (v : W16) : (writePlace s p v).substitute = s.substitute := by cases p <;> simp [writePlace]
@[simp] theorem writePlace_extracode (s : State) (p : Place) (v : W16) : (writePlace s p v).extracode = s.extracode := by cases p <;> simp [writePlace]
@[simp] theorem writePlace_intEnabled (s : State) (p : Place) (v : W16) : (writePlace s p v).intEnabled = s.intEnabled := by cases p <;> simp [writePlace]
@[simp] theorem writePlace_inIsr (s : State) (p : Place) (v : W16) : (writePlace s p v).inIsr = s.inIsr := by cases p <;> simp [writePlace]
@[simp] theorem writePlace_irq (s : State) (p : Place) (v : W16) : (writePlace s p v).irq = s.irq := by cases p <;> simp [writePlace]
@[simp] theorem writePlace_irqLast (s : State) (p : Place) (v : W16) : (writePlace s p v).irqLast = s.irqLast := by cases p <;> simp [writePlace]
@[simp] theorem writePlace_cycleCounter (s : State) (p : Place) (v : W16) : (writePlace s p v).cycleCounter = s.cycleCounter := by cases p <;> simp [writePlace]
@[simp] theorem writePlace_scalerCounter (s : State) (p : Place) (v : W16) : (writePlace s p v).scalerCounter = s.scalerCounter := by cases p <;> simp [writePlace]
@[simp] theorem writePlace_warningFilter (s : State) (p : Place) (v : W16) : (writePlace s p v).warningFilter = s.warningFilter := by cases p <;> simp [writePlace]
@[simp] theorem writePlace_warningGenerated (s : State) (p : Place) (v : W16) : (writePlace s p v).warningGenerated = s.warningGenerated := by cases p <;> simp [writePlace]
@[simp] theorem writePlace_downlinkLatch (s : State) (p : Place) (v : W16) : (writePlace s p v).downlinkLatch = s.downlinkLatch := by cases p <;> simp [writePlace]
@[simp] theorem writePlace_downruptArmed (s : State) (p : Place) (v : W16) : (writePlace s p v).downruptArmed = s.downruptArmed := by cases p <;> simp [writePlace]
@[simp] theorem writePlace_downruptTime (s : State) (p : Place) (v : W16) : (writePlace s p v).downruptTime = s.downruptTime := by cases p <;> simp [writePlace]
@[simp] theorem writePlace_ready (s : State) (p : Place) (v : W16) : (writePlace s p v).ready = s.ready := by cases p <;> simp [writePlace]

/-! ### memWrite -/

@[simp] theorem memWrite_rom (s : State) (d : W12) (v : W16) : (memWrite s d v).rom = s.rom := by simp [memWrite]
@[simp] theorem memWrite_chan (s : State) (d : W12) (v : W16) : (memWrite s d v).chan = s.chan := by simp [memWrite]
@[simp] theorem memWrite_pendFlag (s : State) (d : W12) (v : W16) : (memWrite s d v).pendFlag = s.pendFlag := by simp [memWrite]
@[simp] theorem memWrite_pendDelay (s : State) (d : W12) (v : W16) : (memWrite s d v).pendDelay = s.pendDelay := by simp [memWrite]
@[simp] theorem memWrite_extraDelay (s : State) (d : W12) (v : W16) : (memWrite s d v).extraDelay = s.extraDelay := by simp [memWrite]
@[simp] theorem memWrite_indexValue (s : State) (d : W12) (v : W16) : (memWrite s d v).indexValue = s.indexValue := by simp [memWrite]
@[simp] theorem memWrite_substitute (s : State) (d : W12) (v : W16) : (memWrite s d v).substitute = s.substitute := by simp [memWrite]
@[simp] theorem memWrite_extracode (s : State) (d : W12) (v : W16) : (memWrite s d v).extracode = s.extracode := by simp [memWrite]
@[simp] theorem memWrite_intEnabled (s : State) (d : W12) (v : W16) : (memWrite s d v).intEnabled = s.intEnabled := by simp [memWrite]
@[simp] theorem memWrite_inIsr (s : State) (d : W12) (v : W16) : (memWrite s d v).inIsr = s.inIsr := by simp [memWrite]
@[simp] theorem memWrite_irq (s : State) (d : W12) (v : W16) : (memWrite s d v).irq = s.irq := by simp [memWrite]
@[simp] theorem memWrite_irqLast (s : State) (d : W12) (v : W16) : (memWrite s d v).irqLast = s.irqLast := by simp [memWrite]
@[simp] theorem memWrite_cycleCounter (s : State) (d : W12) (v : W16) : (memWrite s d v).cycleCounter = s.cycleCounter := by simp [memWrite]
@[simp] theorem memWrite_scalerCounter (s : State) (d : W12) (v : W16) : (memWrite s d v).scalerCounter = s.scalerCounter := by simp [memWrite]
@[simp] theorem memWrite_warningFilter (s : State) (d : W12) (v : W16) : (memWrite s d v).warningFilter = s.warningFilter := by simp [memWrite]
@[simp] theorem memWrite_warningGenerated (s : State) (d : W12) (v : W16) : (memWrite s d v).warningGenerated = s.warningGenerated := by simp [memWrite]
@[simp] theorem memWrite_downlinkLatch (s : State) (d : W12) (v : W16) : (memWrite s d v).downlinkLatch = s.downlinkLatch := by simp [memWrite]
@[simp] theorem memWrite_downruptArmed (s : State) (d : W12) (v : W16) : (memWrite s d v).downruptArmed = s.downruptArmed := by simp [memWrite]
@[simp] theorem memWrite_downruptTime (s : State) (d : W12) (v : W16) : (memWrite s d v).downruptTime = s.downruptTime := by simp [memWrite]
@[simp] theorem memWrite_ready (s : State) (d : W12) (v : W16) : (memWrite s d v).ready = s.ready := by simp [memWrite]

/-! ### wr16 -/

@[simp] theorem wr16_rom (s : State) (d : W12) (v : W16) : (wr16 s d v).rom = s.rom := by unfold wr16; split <;> simp
@[simp] theorem wr16_chan (s : State) (d : W12) (v : W16) : (wr16 s d v).chan = s.chan := by unfold wr16; split <;> simp
@[simp] theorem wr16_pendFlag (s : State) (d : W12) (v : W16) : (wr16 s d v).pendFlag = s.pendFlag := by unfold wr16; split <;> simp
@[simp] theorem wr16_pendDelay (s : State) (d : W12) (v : W16) : (wr16 s d v).pendDelay = s.pendDelay := by unfold wr16; split <;> simp
@[simp] theorem wr16_extraDelay (s : State) (d : W12) (v : W16) : (wr16 s d v).extraDelay = s.extraDelay := by unfold wr16; split <;> simp
@[simp] theorem wr16_indexValue (s : State) (d : W12) (v : W16) : (wr16 s d v).indexValue = s.indexValue := by unfold wr16; split <;> simp
@[simp] theorem wr16_substitute (s : State) (d : W12) (v : W16) : (wr16 s d v).substitute = s.substitute := by unfold wr16; split <;> simp
@[simp] theorem wr16_extracode (s : State) (d : W12) (v : W16) : (wr16 s d v).extracode = s.extracode := by unfold wr16; split <;> simp
@[simp] theorem wr16_intEnabled (s : State) (d : W12) (v : W16) : (wr16 s d v).intEnabled = s.intEnabled := by unfold wr16; split <;> simp
@[simp] theorem wr16_inIsr (s : State) (d : W12) (v : W16) : (wr16 s d v).inIsr = s.inIsr := by unfold wr16; split <;> simp
@[simp] theorem wr16_irq (s : State) (d : W12) (v : W16) : (wr16 s d v).irq = s.irq := by unfold wr16; split <;> simp
@[simp] theorem wr16_irqLast (s : State) (d : W12) (v : W16) : (wr16 s d v).irqLast = s.irqLast := by unfold wr16; split <;> simp
@[simp] theorem wr16_cycleCounter (s : State) (d : W12) (v : W16) : (wr16 s d v).cycleCounter = s.cycleCounter := by unfold wr16; split <;> simp
@[simp] theorem wr16_scalerCounter (s : State) (d : W12) (v : W16) : (wr16 s d v).scalerCounter = s.scalerCounter := by unfold wr16; split <;> simp
@[simp] theorem wr16_warningFilter (s : State) (d : W12) (v : W16) : (wr16 s d v).warningFilter = s.warningFilter := by unfold wr16; split <;> simp
@[simp] theorem wr16_warningGenerated (s : State) (d : W12) (v : W16) : (wr16 s d v).warningGenerated = s.warningGenerated := by unfold wr16; split <;> simp
@[simp] theorem wr16_downlinkLatch (s : State) (d : W12) (v : W16) : (wr16 s d v).downlinkLatch = s.downlinkLatch := by unfold wr16; split <;> simp
@[simp] theorem wr16_downruptArmed (s : State) (d : W12) (v : W16) : (wr16 s d v).downruptArmed = s.downruptArmed := by unfold wr16; split <;> simp
@[simp] theorem wr16_downruptTime (s : State) (d : W12) (v : W16) : (wr16 s d v).downruptTime = s.downruptTime := by unfold wr16; split <;> simp
@[simp] theorem wr16_ready (s : State) (d : W12) (v : W16) : (wr16 s d v).ready = s.ready := by unfold wr16; split <;> simp

/-! ### exchangeA -/

@[simp] theorem exchangeA_rom (s : State) (d : W12) : (exchangeA s d).rom = s.rom := by simp [exchangeA]
@[simp] theorem exchangeA_chan (s : State) (d : W12) : (exchangeA s d).chan = s.chan := by simp [exchangeA]
@[simp] theorem exchangeA_pendFlag (s : State) (d : W12) : (exchangeA s d).pendFlag = s.pendFlag := by simp [exchangeA]
@[simp] theorem exchangeA_pendDelay (s : State) (d : W12) : (exchangeA s d).pendDelay = s.pendDelay := by simp [exchangeA]
@[simp] theorem exchangeA_extraDelay (s : State) (d : W12) : (exchangeA s d).extraDelay = s.extraDelay := by simp [exchangeA]
@[simp] theorem exchangeA_indexValue (s : State) (d : W12) : (exchangeA s d).indexValue = s.indexValue := by simp [exchangeA]
@[simp] theorem exchangeA_substitute (s : State) (d : W12) : (exchangeA s d).substitute = s.substitute := by simp [exchangeA]
@[simp] theorem exchangeA_extracode (s : State) (d : W12) : (exchangeA s d).extracode = s.extracode := by simp [exchangeA]
@[simp] theorem exchangeA_intEnabled (s : State) (d : W12) : (exchangeA s d).intEnabled = s.intEnabled := by simp [exchangeA]
@[simp] theorem exchangeA_inIsr (s : State) (d : W12) : (exchangeA s d).inIsr = s.inIsr := by simp [exchangeA]
@[simp] theorem exchangeA_irq (s : State) (d : W12) : (exchangeA s d).irq = s.irq := by simp [exchangeA]
@[simp] theorem exchangeA_irqLast (s : State) (d : W12) : (exchangeA s d).irqLast = s.irqLast := by simp [exchangeA]
@[simp] theorem exchangeA_cycleCounter (s : State) (d : W12) : (exchangeA s d).cycleCounter = s.cycleCounter := by simp [exchangeA]
@[simp] theorem exchangeA_scalerCounter (s : State) (d : W12) : (exchangeA s d).scalerCounter = s.scalerCounter := by simp [exchangeA]
@[simp] theorem exchangeA_warningFilter (s : State) (d : W12) : (exchangeA s d).warningFilter = s.warningFilter := by simp [exchangeA]
@[simp] theorem exchangeA_warningGenerated (s : State) (d : W12) : (exchangeA s d).warningGenerated = s.warningGenerated := by simp [exchangeA]
@[simp] theorem exchangeA_downlinkLatch (s : State) (d : W12) : (exchangeA s d).downlinkLatch = s.downlinkLatch := by simp [exchangeA]
@[simp] theorem exchangeA_downruptArmed (s : State) (d : W12) : (exchangeA s d).downruptArmed = s.downruptArmed := by simp [exchangeA]
@[simp] theorem exchangeA_downruptTime (s : State) (d : W12) : (exchangeA s d).downruptTime = s.downruptTime := by simp [exchangeA]
@[simp] theorem exchangeA_ready (s : State) (d : W12) : (exchangeA s d).ready = s.ready := by simp [exchangeA]

/-! ### exchangeL -/

@[simp] theorem exchangeL_rom (s : State) (d : W12) : (exchangeL s d).rom = s.rom := by simp [exchangeL]
@[simp] theorem exchangeL_chan (s : State) (d : W12) : (exchangeL s d).chan = s.chan := by simp [exchangeL]
@[simp] theorem exchangeL_pendFlag (s : State) (d : W12) : (exchangeL s d).pendFlag = s.pendFlag := by simp [exchangeL]
@[simp] theorem exchangeL_pendDelay (s : State) (d : W12) : (exchangeL s d).pendDelay = s.pendDelay := by simp [exchangeL]
@[simp] theorem exchangeL_extraDelay (s : State) (d : W12) : (exchangeL s d).extraDelay = s.extraDelay := by simp [exchangeL]
@[simp] theorem exchangeL_indexValue (s : State) (d : W12) : (exchangeL s d).indexValue = s.indexValue := by simp [exchangeL]
@[simp] theorem exchangeL_substitute (s : State) (d : W12) : (exchangeL s d).substitute = s.substitute := by simp [exchangeL]
@[simp] theorem exchangeL_extracode (s : State) (d : W12) : (exchangeL s d).extracode = s.extracode := by simp [exchangeL]
@[simp] theorem exchangeL_intEnabled (s : State) (d : W12) : (exchangeL s d).intEnabled = s.intEnabled := by simp [exchangeL]
@[simp] theorem exchangeL_inIsr (s : State) (d : W12) : (exchangeL s d).inIsr = s.inIsr := by simp [exchangeL]
@[simp] theorem exchangeL_irq (s : State) (d : W12) : (exchangeL s d).irq = s.irq := by simp [exchangeL]
@[simp] theorem exchangeL_irqLast (s : State) (d : W12) : (exchangeL s d).irqLast = s.irqLast := by simp [exchangeL]
@[simp] theorem exchangeL_cycleCounter (s : State) (d : W12) : (exchangeL s d).cycleCounter = s.cycleCounter := by simp [exchangeL]
@[simp] theorem exchangeL_scalerCounter (s : State) (d : W12) : (exchangeL s d).scalerCounter = s.scalerCounter := by simp [exchangeL]
@[simp] theorem exchangeL_warningFilter (s : State) (d : W12) : (exchangeL s d).warningFilter = s.warningFilter := by simp [exchangeL]
@[simp] theorem exchangeL_warningGenerated (s : State) (d : W12) : (exchangeL s d).warningGenerated = s.warningGenerated := by simp [exchangeL]
@[simp] theorem exchangeL_downlinkLatch (s : State) (d : W12) : (exchangeL s d).downlinkLatch = s.downlinkLatch := by simp [exchangeL]
@[simp] theorem exchangeL_downruptArmed (s : State) (d : W12) : (exchangeL s d).downruptArmed = s.downruptArmed := by simp [exchangeL]
@[simp] theorem exchangeL_downruptTime (s : State) (d : W12) : (exchangeL s d).downruptTime = s.downruptTime := by simp [exchangeL]
@[simp] theorem exchangeL_ready (s : State) (d : W12) : (exchangeL s d).ready = s.ready := by simp [exchangeL]

/-! ### exchangeQ -/

@[simp] theorem exchangeQ_rom (s : State) (d : W12) : (exchangeQ s d).rom = s.rom := by simp [exchangeQ]
@[simp] theorem exchangeQ_chan (s : State) (d : W12) : (exchangeQ s d).chan = s.chan := by simp [exchangeQ]
@[simp] theorem exchangeQ_pendFlag (s : State) (d : W12) : (exchangeQ s d).pendFlag = s.pendFlag := by simp [exchangeQ]
@[simp] theorem exchangeQ_pendDelay (s : State) (d : W12) : (exchangeQ s d).pendDelay = s.pendDelay := by simp [exchangeQ]
@[simp] theorem exchangeQ_extraDelay (s : State) (d : W12) : (exchangeQ s d).extraDelay = s.extraDelay := by simp [exchangeQ]
@[simp] theorem exchangeQ_indexValue (s : State) (d : W12) : (exchangeQ s d).indexValue = s.indexValue := by simp [exchangeQ]
@[simp] theorem exchangeQ_substitute (s : State) (d : W12) : (exchangeQ s d).substitute = s.substitute := by simp [exchangeQ]
@[simp] theorem exchangeQ_extracode (s : State) (d : W12) : (exchangeQ s d).extracode = s.extracode := by simp [exchangeQ]
@[simp] theorem exchangeQ_intEnabled (s : State) (d : W12) : (exchangeQ s d).intEnabled = s.intEnabled := by simp [exchangeQ]
@[simp] theorem exchangeQ_inIsr (s : State) (d : W12) : (exchangeQ s d).inIsr = s.inIsr := by simp [exchangeQ]
@[simp] theorem exchangeQ_irq (s : State) (d : W12) : (exchangeQ s d).irq = s.irq := by simp [exchangeQ]
@[simp] theorem exchangeQ_irqLast (s : State) (d : W12) : (exchangeQ s d).irqLast = s.irqLast := by simp [exchangeQ]
@[simp] theorem exchangeQ_cycleCounter (s : State) (d : W12) : (exchangeQ s d).cycleCounter = s.cycleCounter := by simp [exchangeQ]
@[simp] theorem exchangeQ_scalerCounter (s : State) (d : W12) : (exchangeQ s d).scalerCounter = s.scalerCounter := by simp [exchangeQ]
@[simp] theorem exchangeQ_warningFilter (s : State) (d : W12) : (exchangeQ s d).warningFilter = s.warningFilter := by simp [exchangeQ]
@[simp] theorem exchangeQ_warningGenerated (s : State) (d : W12) : (exchangeQ s d).warningGenerated = s.warningGenerated := by simp [exchangeQ]
@[simp] theorem exchangeQ_downlinkLatch (s : State) (d : W12) : (exchangeQ s d).downlinkLatch = s.downlinkLatch := by simp [exchangeQ]
@[simp] theorem exchangeQ_downruptArmed (s : State) (d : W12) : (exchangeQ s d).downruptArmed = s.downruptArmed := by simp [exchangeQ]
@[simp] theorem exchangeQ_downruptTime (s : State) (d : W12) : (exchangeQ s d).downruptTime = s.downruptTime := by simp [exchangeQ]
@[simp] theorem exchangeQ_ready (s : State) (d : W12) : (exchangeQ s d).ready = s.ready := by simp [exchangeQ]

/-! ### ioWrite -/

@[simp] theorem ioWrite_a (s : State) (c : Nat) (v : W16) : (ioWrite s c v).a = s.a := by unfold ioWrite; split_ifs <;> simp
@[simp] theorem ioWrite_eb (s : State) (c : Nat) (v : W16) : (ioWrite s c v).eb = s.eb := by unfold ioWrite; split_ifs <;> simp
@[simp] theorem ioWrite_fb (s : State) (c : Nat) (v : W16) : (ioWrite s c v).fb = s.fb := by unfold ioWrite; split_ifs <;> simp
@[simp] theorem ioWrite_z (s : State) (c : Nat) (v : W16) : (ioWrite s c v).z = s.z := by unfold ioWrite; split_ifs <;> simp
@[simp] theorem ioWrite_bb (s : State) (c : Nat) (v : W16) : (ioWrite s c v).bb = s.bb := by unfold ioWrite; split_ifs <;> simp
@[simp] theorem ioWrite_file (s : State) (c : Nat) (v : W16) : (ioWrite s c v).file = s.file := by unfold ioWrite; split_ifs <;> simp
@[simp] theorem ioWrite_ram (s : State) (c : Nat) (v : W16) : (ioWrite s c v).ram = s.ram := by unfold ioWrite; split_ifs <;> simp
@[simp] theorem ioWrite_rom (s : State) (c : Nat) (v : W16) : (ioWrite s c v).rom = s.rom := by unfold ioWrite; split_ifs <;> simp
@[simp] theorem ioWrite_pendFlag (s : State) (c : Nat) (v : W16) : (ioWrite s c v).pendFlag = s.pendFlag := by unfold ioWrite; split_ifs <;> simp
@[simp] theorem ioWrite_pendDelay (s : State) (c : Nat) (v : W16) : (ioWrite s c v).pendDelay = s.pendDelay := by unfold ioWrite; split_ifs <;> simp
@[simp] theorem ioWrite_extraDelay (s : State) (c : Nat) (v : W16) : (ioWrite s c v).extraDelay = s.extraDelay := by unfold ioWrite; split_ifs <;> simp
@[simp] theorem ioWrite_indexValue (s : State) (c : Nat) (v : W16) : (ioWrite s c v).indexValue = s.indexValue := by unfold ioWrite; split_ifs <;> simp
@[simp] theorem ioWrite_substitute (s : State) (c : Nat) (v : W16) : (ioWrite s c v).substitute = s.substitute := by unfold ioWrite; split_ifs <;> simp
@[simp] theorem ioWrite_extracode (s : State) (c : Nat) (v : W16) : (ioWrite s c v).extracode = s.extracode := by unfold ioWrite; split_ifs <;> simp
@[simp] theorem ioWrite_intEnabled (s : State) (c : Nat) (v : W16) : (ioWrite s c v).intEnabled = s.intEnabled := by unfold ioWrite; split_ifs <;> simp
@[simp] theorem ioWrite_inIsr (s : State) (c : Nat) (v : W16) : (ioWrite s c v).inIsr = s.inIsr := by unfold ioWrite; split_ifs <;> simp
@[simp] theorem ioWrite_irq (s : State) (c : Nat) (v : W16) : (ioWrite s c v).irq = s.irq := by unfold ioWrite; split_ifs <;> simp
@[simp] theorem ioWrite_irqLast (s : State) (c : Nat) (v : W16) : (ioWrite s c v).irqLast = s.irqLast := by unfold ioWrite; split_ifs <;> simp
@[simp] theorem ioWrite_cycleCounter (s : State) (c : Nat) (v : W16) : (ioWrite s c v).cycleCounter = s.cycleCounter := by unfold ioWrite; split_ifs <;> simp
@[simp] theorem ioWrite_scalerCounter (s : State) (c : Nat) (v : W16) : (ioWrite s c v).scalerCounter = s.scalerCounter := by unfold ioWrite; split_ifs <;> simp
@[simp] theorem ioWrite_warningFilter (s : State) (c : Nat) (v : W16) : (ioWrite s c v).warningFilter = s.warningFilter := by unfold ioWrite; split_ifs <;> simp
@[simp] theorem ioWrite_warningGenerated (s : State) (c : Nat) (v : W16) : (ioWrite s c v).warningGenerated = s.warningGenerated := by unfold ioWrite; split_ifs <;> simp
@[simp] theorem ioWrite_ready (s : State) (c : Nat) (v : W16) : (ioWrite s c v).ready = s.ready := by unfold ioWrite; split_ifs <;> simp

/-! ### channelStore -/

@[simp] theorem channelStore_a (s : State) (k : W9) (v : W16) : (channelStore s k v).a = s.a := by unfold channelStore; split <;> simp
@[simp] theorem channelStore_eb (s : State) (k : W9) (v : W16) : (channelStore s k v).eb = s.eb := by unfold channelStore; split <;> simp
@[simp] theorem channelStore_fb (s : State) (k : W9) (v : W16) : (channelStore s k v).fb = s.fb := by unfold channelStore; split <;> simp
@[simp] theorem channelStore_z (s : State) (k : W9) (v : W16) : (channelStore s k v).z = s.z := by unfold channelStore; split <;> simp
@[simp] theorem channelStore_bb (s : State) (k : W9) (v : W16) : (channelStore s k v).bb = s.bb := by unfold channelStore; split <;> simp
@[simp] theorem channelStore_file (s : State) (k : W9) (v : W16) : (channelStore s k v).file = s.file := by unfold channelStore; split <;> simp
@[simp] theorem channelStore_ram (s : State) (k : W9) (v : W16) : (channelStore s k v).ram = s.ram := by unfold channelStore; split <;> simp
@[simp] theorem channelStore_rom (s : State) (k : W9) (v : W16) : (channelStore s k v).rom = s.rom := by unfold channelStore; split <;> simp
@[simp] theorem channelStore_pendFlag (s : State) (k : W9) (v : W16) : (channelStore s k v).pendFlag = s.pendFlag := by unfold channelStore; split <;> simp
@[simp] theorem channelStore_pendDelay (s : State) (k : W9) (v : W16) : (channelStore s k v).pendDelay = s.pendDelay := by unfold channelStore; split <;> simp
@[simp] theorem channelStore_extraDelay (s : State) (k : W9) (v : W16) : (channelStore s k v).extraDelay = s.extraDelay := by unfold channelStore; split <;> simp
@[simp] theorem channelStore_indexValue (s : State) (k : W9) (v : W16) : (channelStore s k v).indexValue = s.indexValue := by unfold channelStore; split <;> simp
@[simp] theorem channelStore_substitute (s : State) (k : W9) (v : W16) : (channelStore s k v).substitute = s.substitute := by unfold channelStore; split <;> simp
@[simp] theorem channelStore_extracode (s : State) (k : W9) (v : W16) : (channelStore s k v).extracode = s.extracode := by unfold channelStore; split <;> simp
@[simp] theorem channelStore_intEnabled (s : State) (k : W9) (v : W16) : (channelStore s k v).intEnabled = s.intEnabled := by unfold channelStore; split <;> simp
@[simp] theorem channelStore_inIsr (s : State) (k : W9) (v : W16) : (channelStore s k v).inIsr = s.inIsr := by unfold channelStore; split <;> simp
@[simp] theorem channelStore_irq (s : State) (k : W9) (v : W16) : (channelStore s k v).irq = s.irq := by unfold channelStore; split <;> simp
@[simp] theorem channelStore_irqLast (s : State) (k : W9) (v : W16) : (channelStore s k v).irqLast = s.irqLast := by unfold channelStore; split <;> simp
@[simp] theorem channelStore_cycleCounter (s : State) (k : W9) (v : W16) : (channelStore s k v).cycleCounter = s.cycleCounter := by unfold channelStore; split <;> simp
@[simp] theorem channelStore_scalerCounter (s : State) (k : W9) (v : W16) : (channelStore s k v).scalerCounter = s.scalerCounter := by unfold channelStore; split <;> simp
@[simp] theorem channelStore_warningFilter (s : State) (k : W9) (v : W16) : (channelStore s k v).warningFilter = s.warningFilter := by unfold channelStore; split <;> simp
@[simp] theorem channelStore_warningGenerated (s : State) (k : W9) (v : W16) : (channelStore s k v).warningGenerated = s.warningGenerated := by unfold channelStore; split <;> simp
@[simp] theorem channelStore_ready (s : State) (k : W9) (v : W16) : (channelStore s k v).ready = s.ready := by unfold channelStore; split <;> simp

end Sys2Proof.Machine
end

