-- ==== Sys2Proof/Laws/Ops.lean ====
section
/-! SUPPORT. What each shared operation can do, said once: reads after writes, and frames. -/

namespace Sys2Proof.Machine

/-! ## Channels, ram cells, file cells -/

theorem chanRead_chanWrite (s : State) (c k : Nat) (v : W15) :
    chanRead (chanWrite s c v) k = if k = c then v else chanRead s k :=
  Memory.read_write _ _ _ _

theorem chanRead_congr {s t : State} (h : t.chan = s.chan) (c : Nat) :
    chanRead t c = chanRead s c := by
  unfold chanRead; rw [h]

theorem ramCell_inj {b b' : BitVec 3} {o o' : BitVec 8} (h : ramCell b o = ramCell b' o') :
    b = b' ∧ o = o' := by
  unfold ramCell at h
  have := o.isLt
  have := o'.isLt
  exact ⟨BitVec.eq_of_toNat_eq (by omega), BitVec.eq_of_toNat_eq (by omega)⟩

theorem ramCell_lt (b : BitVec 3) (o : BitVec 8) : ramCell b o < ramSize := by
  unfold ramCell ramSize
  have := b.isLt
  have := o.isLt
  omega

theorem ramRead_ramWrite (s : State) (b b' : BitVec 3) (o o' : BitVec 8) (v : W15) :
    ramRead (ramWrite s b o v) b' o' = if b' = b ∧ o' = o then v else ramRead s b' o' := by
  unfold ramRead ramWrite
  rw [Memory.read_write]
  by_cases h : ramCell b' o' = ramCell b o
  · rw [if_pos h, if_pos (ramCell_inj h)]
  · rw [if_neg h, if_neg (fun hh => h (by rw [hh.1, hh.2]))]

theorem ramRead_congr {s t : State} (h : t.ram = s.ram) (b : BitVec 3) (o : BitVec 8) :
    ramRead t b o = ramRead s b o := by
  unfold ramRead; rw [h]

theorem romRead_congr {s t : State} (h : t.rom = s.rom) (b : Nat) (o : W10) :
    romRead t b o = romRead s b o := by
  unfold romRead; rw [h]

theorem fileRead_fileWrite (s : State) (k j : Nat) (v : W15) :
    fileRead (fileWrite s k v) j = if j = k ∧ k < 41 then v else fileRead s j := by
  unfold fileRead
  rw [fileWrite_file, Vector.getElem?_setIfInBounds]
  by_cases hjk : k = j
  · subst hjk
    by_cases hk : k < 41
    · simp [hk]
    · simp [hk]
  · rw [if_neg hjk, if_neg (fun h => hjk h.1.symm)]

theorem fileRead_congr {s t : State} (h : t.file = s.file) (k : Nat) :
    fileRead t k = fileRead s k := by
  unfold fileRead; rw [h]

theorem plainReg_setPlainReg (s : State) {n m : Nat} (v : W15) (hn : 8 ≤ n) (hm : 8 ≤ m) :
    plainReg (setPlainReg s n v) m = if m = n ∧ n < 49 then v else plainReg s m := by
  unfold plainReg setPlainReg
  rw [fileRead_fileWrite]
  have : (m - 0o10 = n - 0o10 ∧ n - 0o10 < 41) ↔ (m = n ∧ n < 49) := by omega
  simp only [this]

theorem plainReg_congr {s t : State} (h : t.file = s.file) (n : Nat) :
    plainReg t n = plainReg s n := fileRead_congr h _

/-- A register from 010 up, read through the register file. -/
theorem readReg_plain (s : State) {n : Nat} (h : 8 ≤ n) :
    readReg s n = (plainReg s n).setWidth 16 := by
  obtain ⟨k, rfl⟩ : ∃ k, n = k + 8 := ⟨n - 8, by omega⟩
  rfl

/-! ## Places -/

/-- A state whose stores and registers agree with `s` outside the listed places keeps them. -/
theorem keepsPlaces_of_fields {s t : State} {written : List Place}
    (ha : Place.reg 0 ∈ written ∨ t.a = s.a) (hl : Place.reg 1 ∈ written ∨ t.l = s.l)
    (hq : Place.reg 2 ∈ written ∨ t.q = s.q) (heb : Place.reg 3 ∈ written ∨ t.eb = s.eb)
    (hfb : Place.reg 4 ∈ written ∨ t.fb = s.fb) (hz : Place.reg 5 ∈ written ∨ t.z = s.z)
    (hbb : Place.reg 6 ∈ written ∨ t.bb = s.bb) (hfile : t.file = s.file)
    (hram : t.ram = s.ram) (hrom : t.rom = s.rom) : KeepsPlaces s t written := by
  intro p hp
  cases p with
  | reg n =>
    match n with
    | 0 => exact ha.resolve_left hp
    | 1 => exact hl.resolve_left hp
    | 2 => exact hq.resolve_left hp
    | 3 => exact congrArg (BitVec.setWidth 16) (heb.resolve_left hp)
    | 4 => exact congrArg (BitVec.setWidth 16) (hfb.resolve_left hp)
    | 5 => exact congrArg (BitVec.setWidth 16) (hz.resolve_left hp)
    | 6 => exact congrArg (BitVec.setWidth 16) (hbb.resolve_left hp)
    | 7 => rfl
    | k + 8 => exact congrArg (BitVec.setWidth 16) (fileRead_congr hfile k)
  | ram b o => exact congrArg (BitVec.setWidth 16) (ramRead_congr hram b o)
  | rom b o => exact congrArg (BitVec.setWidth 16) (romRead_congr hrom b o)

theorem KeepsPlaces.mono {s t : State} {w w' : List Place} (h : KeepsPlaces s t w)
    (hw : ∀ p ∈ w, p ∈ w') : KeepsPlaces s t w' :=
  fun p hp => h p (fun hm => hp (hw p hm))

theorem KeepsPlaces.trans {s t u : State} {w w' : List Place} (h : KeepsPlaces s t w)
    (h' : KeepsPlaces t u w') : KeepsPlaces s u (w ++ w') := by
  intro p hp
  rw [List.mem_append, not_or] at hp
  rw [h' p hp.2, h p hp.1]

/-- A store to a place leaves every other place as it was. -/
theorem writePlace_keeps (s : State) (p : Place) (v : W16) :
    KeepsPlaces s (writePlace s p v) (writtenPlaces p) := by
  cases p with
  | reg n =>
    match n with
    | 0 | 1 | 2 | 3 | 4 | 5 | 6 | 7 =>
      apply keepsPlaces_of_fields <;>
        simp [writePlace, writeReg, writtenPlaces, writeEB, writeFB, writeBB]
    | k + 8 =>
      intro p hp
      cases p with
      | reg m =>
        match m with
        | 0 | 1 | 2 | 3 | 4 | 5 | 6 | 7 => rfl
        | j + 8 =>
          simp only [readPlace, readReg, writePlace, writeReg, fileRead_fileWrite]
          rw [if_neg]
          rintro ⟨rfl, -⟩
          exact hp (by simp [writtenPlaces])
      | ram b o => rfl
      | rom b o => rfl
  | ram b o =>
    intro p hp
    cases p with
    | reg m =>
      match m with
      | 0 | 1 | 2 | 3 | 4 | 5 | 6 | 7 => rfl
      | j + 8 => rfl
    | ram b' o' =>
      simp only [readPlace, writePlace, ramRead_ramWrite]
      rw [if_neg]
      rintro ⟨rfl, rfl⟩
      exact hp (by simp [writtenPlaces])
    | rom b o => rfl
  | rom b o => exact fun _ _ => rfl

/-- `MemWrite` leaves every other place as it was. -/
theorem memWrite_keeps (s : State) (d : W12) (v : W16) :
    KeepsPlaces s (memWrite s d v) (storedPlaces s d) := writePlace_keeps s _ v

/-- `Wr16` leaves every other place as it was. -/
theorem wr16_keeps (s : State) (d : W12) (v : W16) :
    KeepsPlaces s (wr16 s d v) (storedPlaces s d) := by
  unfold wr16; split <;> exact memWrite_keeps _ _ _

/-- Where an address leads depends on EB, FB and the channels alone. -/
theorem resolve_congr {s t : State} (heb : t.eb = s.eb) (hfb : t.fb = s.fb)
    (hchan : t.chan = s.chan) (d : W12) : resolve t d = resolve s d := by
  unfold resolve fixedBank
  rw [heb, hfb, chanRead_congr hchan]

/-- A register address leads to the register. -/
theorem resolve_reg (s : State) {d : W12} (h : d.toNat ≤ 48) : resolve s d = .reg d.toNat := by
  unfold resolve; rw [if_pos h]

theorem resolve_beginExecute (s : State) (d : W12) : resolve (beginExecute s) d = resolve s d :=
  resolve_congr (by simp) (by simp) (by simp) d

/-- The writes that precede an instruction's effect change no place that an address leads to. -/
theorem storedPlaces_beginExecute (s : State) (d : W12) :
    storedPlaces (beginExecute s) d = storedPlaces s d := by
  unfold storedPlaces; rw [resolve_beginExecute]

theorem resolve_memWrite (s : State) (d : W12) (v : W16) :
    resolve (memWrite s d v) d = resolve s d := by
  by_cases h : d.toNat ≤ 48
  · rw [resolve_reg _ h, resolve_reg _ h]
  · refine resolve_congr ?_ ?_ (by simp) d <;>
    · unfold memWrite resolve
      rw [if_neg h]
      split_ifs <;> rfl

/-- What an address reads as after a store to it. -/
theorem memRead_memWrite (s : State) (d : W12) (v : W16) :
    memRead (memWrite s d v) d = readBack d v (memRead s d) := by
  unfold memRead
  rw [resolve_memWrite]
  unfold memWrite readBack
  by_cases h : d.toNat ≤ 48
  · rw [resolve_reg s h]
    generalize d.toNat = n at h ⊢
    match n with
    | 0 | 1 | 2 | 7 => rfl
    | 3 | 4 | 5 | 6 =>
      simp only [readPlace, readReg, writePlace, writeReg, writeEB, writeFB, writeBB]
      apply BitVec.eq_of_getElem_eq
      intro i hi
      simp
      interval_cases i <;> simp
    | k + 8 =>
      simp only [readPlace, readReg, writePlace, writeReg, fileRead_fileWrite]
      rw [if_pos ⟨trivial, by omega⟩, if_neg (by omega), if_neg (by omega), if_neg (by omega),
        if_neg (by omega), if_neg (by omega), if_neg (by omega), if_pos (by omega)]
      apply BitVec.eq_of_getElem_eq
      intro i hi
      simp
      interval_cases i <;> simp
  · rw [if_neg (by omega), if_neg (by omega), if_neg (by omega), if_neg (by omega),
      if_neg (by omega), if_neg (by omega)]
    unfold resolve
    rw [if_neg h]
    have hmask : (v.setWidth 15).setWidth 16 = v &&& 0o077777#16 := by
      apply BitVec.eq_of_getElem_eq
      intro i hi
      simp
      interval_cases i <;> simp
    split_ifs <;> first | omega | simp [readPlace, writePlace, ramRead_ramWrite, hmask]

/-- What an erasable address reads as after `Wr16`. -/
theorem memRead_wr16 (s : State) {d : W12} (v : W16) (hd : d.toNat ≤ 0o1777) :
    memRead (wr16 s d v) d = readBack16 d v := by
  unfold wr16 isWide readBack16
  by_cases h : d.toNat ≤ 2
  · rw [if_pos (by simpa using h), memRead_memWrite, if_pos h]
    unfold readBack; rw [if_pos h]
  · rw [if_neg (by simpa using h), memRead_memWrite, if_neg h]
    unfold readBack; rw [if_neg h, if_neg h]
    split_ifs <;> rfl

/-! ## The canonical form of the three stores -/

theorem ramWrite_wf {s : State} (b : BitVec 3) (o : BitVec 8) (v : W15)
    (h : Memory.wf blankCell ramSize s.ram = true) :
    Memory.wf blankCell ramSize (ramWrite s b o v).ram = true :=
  Memory.wf_write v (ramCell_lt b o) h

theorem chanWrite_wf {s : State} {c : Nat} (v : W15) (hc : c < chanSize)
    (h : Memory.wf config.ioReset chanSize s.chan = true) :
    Memory.wf config.ioReset chanSize (chanWrite s c v).chan = true :=
  Memory.wf_write v hc h

/-- `MemWrite` keeps erasable memory canonical. -/
theorem memWrite_ram_wf {s : State} (d : W12) (v : W16)
    (h : Memory.wf blankCell ramSize s.ram = true) :
    Memory.wf blankCell ramSize (memWrite s d v).ram = true := by
  unfold memWrite writePlace
  split
  · rename_i n _
    match n with
    | 0 | 1 | 2 | 3 | 4 | 5 | 6 | 7 => exact h
    | k + 8 => exact h
  · exact ramWrite_wf _ _ _ h
  · exact h

/-- `Wr16` keeps erasable memory canonical. -/
theorem wr16_ram_wf {s : State} (d : W12) (v : W16)
    (h : Memory.wf blankCell ramSize s.ram = true) :
    Memory.wf blankCell ramSize (wr16 s d v).ram = true := by
  unfold wr16; split <;> exact memWrite_ram_wf _ _ h

/-- `IoWrite` keeps the channel array canonical. -/
theorem ioWrite_chan_wf {s : State} (c : Nat) (v : W16)
    (h : Memory.wf config.ioReset chanSize s.chan = true) :
    Memory.wf config.ioReset chanSize (ioWrite s c v).chan = true := by
  unfold ioWrite
  split_ifs with h1 h2 h3 h4
  · exact h
  · exact h
  · exact h
  · rw [latchDownlink_chan]; exact chanWrite_wf _ (by omega) h
  · exact chanWrite_wf _ (by omega) h

/-- The three stores at reset list nothing, and are canonical. -/
theorem reset_stores_wf :
    Memory.wf blankCell ramSize State.reset.ram = true ∧
      Memory.wf blankCell romSize State.reset.rom = true ∧
      Memory.wf config.ioReset chanSize State.reset.chan = true := ⟨rfl, rfl, rfl⟩

/-- Every image word of the image has a cell of fixed memory. -/
theorem imageCell_lt {w : Nat} (h : w < romSize) : imageCell w < romSize := by
  unfold imageCell romSize at *
  have hb : imageBank (w / 0o2000) < 40 := by
    unfold imageBank
    split <;> omega
  omega

/-- The image load leaves fixed memory canonical. -/
theorem loadWords_wf (image : List Octet) (w : Nat) {m : Memory}
    (h : Memory.wf blankCell romSize m = true) :
    Memory.wf blankCell romSize (loadWords w image m) = true := by
  fun_induction loadWords w image m with
  | case1 w m high low rest hw ih => exact ih (Memory.wf_write _ (imageCell_lt hw) h)
  | case2 => exact h
  | case3 => exact h

end Sys2Proof.Machine
end

