-- ==== Sys2Proof/Laws/Frames.lean ====
section
/-! SUPPORT. How the frame of an instruction is put together: from the frame of what it does to the
registers, and from that of each store that follows. -/

namespace Sys2Proof.Machine

/-- What follows `beginExecute` in an instruction that touches only A, L, Q and Z. -/
theorem writesOnly_registers (s : State) (a l q : W16) (z : W12) {w : List Place}
    (ha : Place.reg 0 ∈ w ∨ a = s.a) (hl : Place.reg 1 ∈ w ∨ l = s.l)
    (hq : Place.reg 2 ∈ w ∨ q = s.q) (hz : Place.reg 5 ∈ w) :
    WritesOnly s { beginExecute s with a := a, l := l, q := q, z := z } w :=
  ⟨keepsPlaces_of_fields ha hl hq (.inr rfl) (.inr rfl) (.inl hz) (.inr rfl) rfl rfl rfl,
    fun _ _ => rfl, ⟨rfl, rfl, rfl, rfl⟩, ⟨rfl, rfl, rfl⟩, ⟨rfl, rfl, rfl, rfl, rfl⟩,
    ⟨rfl, rfl, rfl⟩, ⟨rfl, rfl, rfl⟩⟩

theorem WritesOnly.mono {s t : State} {w w' : List Place} (h : WritesOnly s t w)
    (hw : ∀ p ∈ w, p ∈ w') : WritesOnly s t w' :=
  ⟨h.1.mono hw, h.2⟩

/-- A store adds the places it writes. -/
theorem WritesOnly.memWrite {s t : State} {w : List Place} (h : WritesOnly s t w) (d : W12)
    (v : W16) : WritesOnly s (memWrite t d v) (w ++ storedPlaces t d) := by
  obtain ⟨hp, hc, ⟨h1, h2, h3, h4⟩, ⟨h5, h6, h7⟩, ⟨h8, h9, h10, h11, h12⟩, ⟨h13, h14, h15⟩,
    ⟨h16, h17, h18⟩⟩ := h
  refine ⟨hp.trans (memWrite_keeps t d v), fun c hm => ?_, ?_, ?_, ?_, ?_, ?_⟩
  · rw [chanRead_congr (s := t) (by simp) c, hc c hm]
  · simp [KeepsInterrupts, *]
  · simp [KeepsDelays, *]
  · simp [KeepsTimers, *]
  · simp [KeepsDownlink, *]
  · simp [NoPrefix, *]

/-- A 16-bit store adds the places it writes. -/
theorem WritesOnly.wr16 {s t : State} {w : List Place} (h : WritesOnly s t w) (d : W12)
    (v : W16) : WritesOnly s (wr16 t d v) (w ++ storedPlaces t d) := by
  unfold Machine.wr16
  split <;> exact h.memWrite d _

/-- A later write to A, L, Q or Z, of a state whose frame has that register already. -/
theorem WritesOnly.registers {s t : State} {w : List Place} (h : WritesOnly s t w) (a l q : W16)
    (z : W12) (ha : Place.reg 0 ∈ w ∨ a = t.a) (hl : Place.reg 1 ∈ w ∨ l = t.l)
    (hq : Place.reg 2 ∈ w ∨ q = t.q) (hz : Place.reg 5 ∈ w ∨ z = t.z) :
    WritesOnly s { t with a := a, l := l, q := q, z := z } w := by
  refine ⟨fun p hp => ?_, h.2⟩
  rw [← h.1 p hp]
  exact keepsPlaces_of_fields (s := t) (t := { t with a := a, l := l, q := q, z := z })
    (written := w) ha hl hq (.inr rfl) (.inr rfl) hz (.inr rfl) rfl rfl rfl p hp

/-- The places that an address leads to depend on EB, FB and the channels alone. -/
theorem storedPlaces_congr {s t : State} (heb : t.eb = s.eb) (hfb : t.fb = s.fb)
    (hchan : t.chan = s.chan) (d : W12) : storedPlaces t d = storedPlaces s d := by
  unfold storedPlaces
  rw [resolve_congr heb hfb hchan]

/-! ## Reads in states that agree -/

/-- A place reads alike in states that agree on its register and store. -/
theorem memRead_congr {s t : State} (heb : t.eb = s.eb) (hfb : t.fb = s.fb)
    (hchan : t.chan = s.chan) {d : W12}
    (h : readPlace t (resolve s d) = readPlace s (resolve s d)) : memRead t d = memRead s d := by
  unfold memRead
  rw [resolve_congr heb hfb hchan, h]

/-- Writes to A, L, Q or Z change only what their own addresses read as. -/
theorem memRead_registers (s : State) (a l q : W16) (z : W12) {d : W12}
    (h0 : d = 0#12 → a = s.a) (h1 : d = 1#12 → l = s.l) (h2 : d = 2#12 → q = s.q)
    (h5 : d = 5#12 → z = s.z) :
    memRead { s with a := a, l := l, q := q, z := z } d = memRead s d := by
  refine memRead_congr (s := s) (t := { s with a := a, l := l, q := q, z := z }) rfl rfl rfl ?_
  have e (n : Nat) (hn : n < 4096) (h : d.toNat = n) : d = BitVec.ofNat 12 n :=
    BitVec.eq_of_toNat_eq (by simp; omega)
  unfold resolve
  split_ifs
  · simp only [readPlace]
    have e0 := fun h => h0 (e 0 (by omega) h)
    have e1 := fun h => h1 (e 1 (by omega) h)
    have e2 := fun h => h2 (e 2 (by omega) h)
    have e5 := fun h => h5 (e 5 (by omega) h)
    generalize d.toNat = n at *
    match n with
    | 0 => exact e0 rfl
    | 1 => exact e1 rfl
    | 2 => exact e2 rfl
    | 5 => exact congrArg (BitVec.setWidth 16) (e5 rfl)
    | 3 | 4 | 6 | 7 => rfl
    | k + 8 => rfl
  all_goals rfl

/-- What an address other than Z's reads as is not changed by the writes before the effect. -/
theorem memRead_beginExecute (s : State) {d : W12} (h : d ≠ 5#12) :
    memRead (beginExecute s) d = memRead s d := by
  refine memRead_congr (s := s) (t := beginExecute s) rfl rfl rfl ?_
  refine keepsPlaces_of_fields (s := s) (t := beginExecute s) (written := [.reg 5]) (.inr rfl) (.inr rfl) (.inr rfl) (.inr rfl)
    (.inr rfl) (.inl (by simp)) (.inr rfl) rfl rfl rfl _ ?_
  intro hm
  unfold resolve at hm
  split_ifs at hm <;> simp at hm
  exact h (BitVec.eq_of_toNat_eq hm)

/-- The same of `Rd16`. -/
theorem rd16_beginExecute (s : State) {d : W12} (h : d ≠ 5#12) :
    rd16 (beginExecute s) d = rd16 s d := by
  unfold rd16 memWord
  rw [memRead_beginExecute s h]

/-- Outside A, L and Q an operand is the word, its sign extended. -/
theorem rd16_of_not_wide (s : State) {d : W12} (h : 2 < d.toNat) :
    rd16 s d = signExtend ((memRead s d).setWidth 15) := by
  unfold rd16 isWide
  rw [if_neg (by simpa using h)]
  rfl

/-- Z, read as an operand, is the address of the next instruction. -/
theorem memRead_beginExecute_z (s : State) :
    memRead (beginExecute s) 5#12 = (s.z + 1#12).setWidth 16 := rfl

/-! ## What a 16-bit store leaves of A, L, Z and the bank registers -/

/-- A store writes no register from 0 to 7 whose address is not its own, the bank registers apart. -/
theorem reg_not_mem_storedPlaces (s : State) {d : W12} {n : Nat} (h : d.toNat ≠ n) (h3 : n ≠ 3)
    (h4 : n ≠ 4) (h6 : n ≠ 6) : Place.reg n ∉ storedPlaces s d := by
  unfold storedPlaces writtenPlaces
  split
  · rename_i m e
    unfold resolve at e
    split_ifs at e
    simp only [Place.reg.injEq] at e
    subst e
    split_ifs <;> simp [*, Ne.symm h]
  · simp
  · simp

theorem wr16_a_of_ne (s : State) {d : W12} (v : W16) (h : d ≠ 0#12) : (wr16 s d v).a = s.a :=
  wr16_keeps s d v (.reg 0) (reg_not_mem_storedPlaces s (fun e => h (BitVec.eq_of_toNat_eq e))
    (by decide) (by decide) (by decide))

theorem wr16_l_of_ne (s : State) {d : W12} (v : W16) (h : d ≠ 1#12) : (wr16 s d v).l = s.l :=
  wr16_keeps s d v (.reg 1) (reg_not_mem_storedPlaces s (fun e => h (BitVec.eq_of_toNat_eq e))
    (by decide) (by decide) (by decide))

theorem wr16_q_of_ne (s : State) {d : W12} (v : W16) (h : d ≠ 2#12) : (wr16 s d v).q = s.q :=
  wr16_keeps s d v (.reg 2) (reg_not_mem_storedPlaces s (fun e => h (BitVec.eq_of_toNat_eq e))
    (by decide) (by decide) (by decide))

theorem wr16_z_of_ne (s : State) {d : W12} (v : W16) (h : d ≠ 5#12) : (wr16 s d v).z = s.z := by
  have hp := wr16_keeps s d v (.reg 5) (reg_not_mem_storedPlaces s
    (fun e => h (BitVec.eq_of_toNat_eq e)) (by decide) (by decide) (by decide))
  have hn := congrArg BitVec.toNat hp
  simp only [readPlace, readReg, BitVec.toNat_setWidth] at hn
  have := (wr16 s d v).z.isLt
  have := s.z.isLt
  exact BitVec.eq_of_toNat_eq (by omega)

/-- A store beyond the registers leaves the bank registers. -/
theorem wr16_banks (s : State) {d : W12} (v : W16) (h : 0o60 < d.toNat) :
    (wr16 s d v).eb = s.eb ∧ (wr16 s d v).fb = s.fb := by
  unfold wr16 isWide memWrite resolve
  rw [if_neg (by simp; omega), if_neg (by omega)]
  split_ifs <;> exact ⟨rfl, rfl⟩

/-- The first word of a pair leads where it led before the second word was stored. -/
theorem storedPlaces_wr16 (s : State) {d f : W12} (v : W16) (h : f.toNat + 1 = d.toNat) :
    storedPlaces (wr16 s d v) f = storedPlaces s f := by
  by_cases hd : d.toNat ≤ 0o61
  · unfold storedPlaces
    rw [resolve_reg s (by omega), resolve_reg _ (by omega)]
  · have hb := wr16_banks s v (d := d) (by omega)
    exact storedPlaces_congr hb.1 hb.2 (by simp) f

end Sys2Proof.Machine
end

