-- ==== Sys2Proof/Laws/Exec.lean ====
section
/-! SUPPORT. What no instruction can change, said once for all of them. -/

namespace Sys2Proof.Machine

/-- What every instruction leaves as it was: fixed memory, the counters of the engine, the warning
filter, the ready state, and the charge. -/
def EngineKept (s t : State) : Prop :=
  t.rom = s.rom ∧ KeepsTimers s t ∧ t.pendFlag = s.pendFlag ∧ t.pendDelay = s.pendDelay

/-- Whatever the instruction, its next state keeps the engine. -/
theorem exec_engineKept {i : Instr} {s t : State} (h : exec i s = .next t) : EngineKept s t := by
  cases i <;> simp only [exec, execXxalq, execXlq, execRet, execTc, transferLink, execTcf,
    execRelint, execInhint, execExtend, execResume, execIndexTwo, execCa, execCs, execAd, execMp,
    execAug, execDim, execSu, execRead, execRand, execRor, execRxor, execMsu, execIncr, execWrite,
    execWand, execWor, execEdrupt, vectorEdrupt, writeCombined, execCcs, execBzf, execBzmf,
    branchOrDelay, execMask, execIndex, execDca, execDcs, execTs, execXch, execLxch, execQxch,
    execDxch, execAds, execDas, execDv] at h <;>
    (repeat' split at h) <;> cases h <;> simp [EngineKept, KeepsTimers]

end Sys2Proof.Machine
end

