-- ==== Sys2Proof/Laws/Interrupts.lean ====
section
/-! SUPPORT. The interrupt requests, their scan, and what an interrupt entry leaves. -/

namespace Sys2Proof.Machine

theorem irqPending_congr {s t : State} (h : t.irq = s.irq) (n : Nat) :
    irqPending t n = irqPending s n := by
  unfold irqPending; rw [h]

theorem irqPending_setIrq (s : State) (n m : Nat) (b : Bool) :
    irqPending (setIrq s n b) m = if m = n ∧ 1 ≤ n ∧ n ≤ 10 then b else irqPending s m := by
  match n, m with
  | 0, m => simp [setIrq]
  | k + 1, 0 => simp [irqPending]
  | k + 1, j + 1 =>
    simp only [irqPending, setIrq, Vector.getElem?_setIfInBounds]
    by_cases h : k = j
    · subst h
      by_cases hk : k < 10 <;> simp [hk]
    · rw [if_neg h, if_neg (by omega)]

/-- A raised request is pending; no other is changed. -/
theorem irqPending_raiseIrq (s : State) {n : Nat} (m : Nat) (h1 : 1 ≤ n) (h2 : n ≤ 10) :
    irqPending (raiseIrq s n) m = (m == n || irqPending s m) := by
  unfold raiseIrq
  rw [irqPending_setIrq]
  by_cases h : m = n <;> simp [h, h1, h2]

/-- The scan finds the pending request of the lowest slot (spec/60_exceptions.md R338). -/
theorem firstPending_eq_some (s : State) (n : Nat) :
    firstPending s = some n ↔
      1 ≤ n ∧ n ≤ 10 ∧ irqPending s n = true ∧ ∀ m, 1 ≤ m → m < n → irqPending s m = false := by
  unfold firstPending irqSlots
  rw [List.find?_eq_some_iff_append]
  constructor
  · rintro ⟨hp, as, bs, heq, hall⟩
    have hmem : ∀ m, m ∈ [1, 2, 3, 4, 5, 6, 7, 8, 9, 10] ↔ 1 ≤ m ∧ m ≤ 10 := by
      intro m; simp; omega
    have hn := (hmem n).1 (by rw [heq]; simp)
    refine ⟨hn.1, hn.2, hp, fun m h1 h2 => ?_⟩
    have hsorted : List.Pairwise (· < ·) (as ++ n :: bs) := by rw [← heq]; decide
    have hm : m ∈ as ++ n :: bs := by rw [← heq]; exact (hmem m).2 ⟨h1, by omega⟩
    rcases List.mem_append.1 hm with h | h
    · simpa using hall m h
    · rcases List.mem_cons.1 h with rfl | h
      · omega
      · have := (List.pairwise_cons.1 (List.pairwise_append.1 hsorted).2.1).1 m h
        omega
  · rintro ⟨h1, h2, h3, h4⟩
    refine ⟨h3, (List.range (n - 1)).map (· + 1), (List.range (10 - n)).map (· + n + 1), ?_, ?_⟩
    · interval_cases n <;> rfl
    · intro a ha
      obtain ⟨b, hb, rfl⟩ := List.mem_map.1 ha
      simpa using h4 (b + 1) (by omega) (by have := List.mem_range.1 hb; omega)

/-- The scan finds nothing where nothing is pending. -/
theorem firstPending_eq_none (s : State) :
    firstPending s = none ↔ ∀ n, 1 ≤ n → n ≤ 10 → irqPending s n = false := by
  unfold firstPending irqSlots
  rw [List.find?_eq_none]
  constructor
  · intro h n h1 h2
    simpa using h n (by simp; omega)
  · intro h n hn
    simpa using h n (by simp at hn; omega) (by simp at hn; omega)

/-- The vector address (R337). -/
theorem vectorAddress_toNat {n : Nat} (h : n ≤ 10) : (vectorAddress n).toNat = 0o4000 + 4 * n := by
  unfold vectorAddress; simp; omega

/-- Taking a request clears it and no other. -/
theorem irqPending_takeRequest (s : State) {n : Nat} (m : Nat) (h1 : 1 ≤ n) (h2 : n ≤ 10) :
    irqPending (takeRequest s n) m = if m = n then false else irqPending s m := by
  have h : irqPending (takeRequest s n) m = irqPending (setIrq s n false) m :=
    irqPending_congr rfl m
  rw [h, irqPending_setIrq]
  simp [h1, h2]

theorem irqPending_saveInterrupted (s : State) (pc0 : W12) (iw : W15) (m : Nat) :
    irqPending (saveInterrupted s pc0 iw) m = irqPending s m := irqPending_congr rfl m

/-- The registers from 010 up after an entry: ZRUPT and BRUPT alone are new. -/
theorem plainReg_saveInterrupted (s : State) (pc0 : W12) (iw : W15) {n : Nat} (h : 8 ≤ n) :
    plainReg (saveInterrupted s pc0 iw) n =
      if n = 0o17 then iw else if n = 0o15 then pc0.setWidth 15 + 1#15 else plainReg s n := by
  have hf : plainReg (saveInterrupted s pc0 iw) n = plainReg (setPlainReg (setPlainReg s regZrupt
      (pc0.setWidth 15 + 1#15)) regBrupt iw) n := plainReg_congr rfl n
  rw [hf, plainReg_setPlainReg _ _ (by decide) h, plainReg_setPlainReg _ _ (by decide) h]
  simp only [regBrupt, regZrupt, Nat.reduceLT, and_true]

/-- A store to a register from 010 up leaves every other place as it was. -/
theorem setPlainReg_keeps (s : State) {n : Nat} (v : W15) (h : 8 ≤ n) :
    KeepsPlaces s (setPlainReg s n v) [.reg n] := by
  have hw := writePlace_keeps s (.reg n) (v.setWidth 16)
  obtain ⟨k, rfl⟩ : ∃ k, n = k + 8 := ⟨n - 8, by omega⟩
  have hl : writtenPlaces (.reg (k + 8)) = [.reg (k + 8)] := by simp [writtenPlaces]
  rw [hl] at hw
  have hs : writePlace s (.reg (k + 8)) (v.setWidth 16) = setPlainReg s (k + 8) v := by
    simp [writePlace, writeReg, setPlainReg]
  rwa [hs] at hw

/-- An interrupt entry leaves every place but Z, ZRUPT and BRUPT as it was (R336 (e)). -/
theorem saveInterrupted_keeps (s : State) (pc0 : W12) (iw : W15) :
    KeepsPlaces s (saveInterrupted s pc0 iw) [.reg 0o15, .reg 0o17] := by
  intro p hp
  rw [← setPlainReg_keeps s (n := regZrupt) (pc0.setWidth 15 + 1#15) (by decide) p
      (by simp at hp; simp [hp]),
    ← setPlainReg_keeps (setPlainReg s regZrupt (pc0.setWidth 15 + 1#15)) (n := regBrupt) iw
      (by decide) p (by simp at hp; simp [hp])]
  exact keepsPlaces_of_fields (written := [])
    (s := setPlainReg (setPlainReg s regZrupt (pc0.setWidth 15 + 1#15)) regBrupt iw)
    (t := saveInterrupted s pc0 iw) (.inr rfl) (.inr rfl) (.inr rfl) (.inr rfl) (.inr rfl) (.inr rfl)
    (.inr rfl) rfl rfl rfl p (by simp)

end Sys2Proof.Machine
end

