-- ==== Sys2Proof/Laws/PerInstr.lean ====
section
/-! SUPPORT. What is said of every instruction as syntax: its word has the fixed bits of its row of
spec/opcode_table.json, in the row's mode (spec/30_encoding.md R120). -/

namespace Sys2Proof.Laws

/-- A row of the opcode table: a word `w` selects it where `w &&& mask = match`, in its mode. -/
structure Row where
  /-- The table's `mask`. -/
  mask : W15
  /-- The table's `match`. -/
  pattern : W15
  /-- The table's `extracode`. -/
  extracode : Bool
  deriving DecidableEq, Repr

/-- The rows of the opcode table that bear an instruction's mnemonic. -/
def tableRows : Instr → List Row
  | .xxalq => [⟨0o077777, 0o000000, false⟩]
  | .xlq => [⟨0o077777, 0o000001, false⟩]
  | .ret => [⟨0o077777, 0o000002, false⟩]
  | .relint => [⟨0o077777, 0o000003, false⟩]
  | .inhint => [⟨0o077777, 0o000004, false⟩]
  | .extend => [⟨0o077777, 0o000006, false⟩]
  | .resume => [⟨0o077777, 0o050017, false⟩]
  | .tc _ => [⟨0o070000, 0o000000, false⟩]
  | .ccs _ => [⟨0o076000, 0o010000, false⟩]
  | .tcf _ =>
    [⟨0o076000, 0o012000, false⟩,
      ⟨0o076000, 0o014000, false⟩,
      ⟨0o076000, 0o016000, false⟩]
  | .das _ => [⟨0o076000, 0o020000, false⟩]
  | .lxch _ => [⟨0o076000, 0o022000, false⟩]
  | .incr _ => [⟨0o076000, 0o024000, false⟩]
  | .ads _ => [⟨0o076000, 0o026000, false⟩]
  | .ca _ => [⟨0o070000, 0o030000, false⟩]
  | .cs _ => [⟨0o070000, 0o040000, false⟩]
  | .index _ => [⟨0o076000, 0o050000, false⟩]
  | .dxch _ => [⟨0o076000, 0o052000, false⟩]
  | .ts _ => [⟨0o076000, 0o054000, false⟩]
  | .xch _ => [⟨0o076000, 0o056000, false⟩]
  | .ad _ => [⟨0o070000, 0o060000, false⟩]
  | .mask _ => [⟨0o070000, 0o070000, false⟩]
  | .read _ => [⟨0o077000, 0o000000, true⟩]
  | .write _ => [⟨0o077000, 0o001000, true⟩]
  | .rand _ => [⟨0o077000, 0o002000, true⟩]
  | .wand _ => [⟨0o077000, 0o003000, true⟩]
  | .ror _ => [⟨0o077000, 0o004000, true⟩]
  | .wor _ => [⟨0o077000, 0o005000, true⟩]
  | .rxor _ => [⟨0o077000, 0o006000, true⟩]
  | .edrupt _ => [⟨0o077000, 0o007000, true⟩]
  | .dv _ => [⟨0o076000, 0o010000, true⟩]
  | .bzf _ =>
    [⟨0o076000, 0o012000, true⟩,
      ⟨0o076000, 0o014000, true⟩,
      ⟨0o076000, 0o016000, true⟩]
  | .msu _ => [⟨0o076000, 0o020000, true⟩]
  | .qxch _ => [⟨0o076000, 0o022000, true⟩]
  | .aug _ => [⟨0o076000, 0o024000, true⟩]
  | .dim _ => [⟨0o076000, 0o026000, true⟩]
  | .dca _ => [⟨0o070000, 0o030000, true⟩]
  | .dcs _ => [⟨0o070000, 0o040000, true⟩]
  | .indexTwo _ => [⟨0o070000, 0o050000, true⟩]
  | .su _ => [⟨0o076000, 0o060000, true⟩]
  | .bzmf _ =>
    [⟨0o076000, 0o062000, true⟩,
      ⟨0o076000, 0o064000, true⟩,
      ⟨0o076000, 0o066000, true⟩]
  | .mp _ => [⟨0o070000, 0o070000, true⟩]

/-- A well-formed instruction's word selects a row of its own mnemonic, in that row's mode. -/
def RowBits.Statement (i : Instr) : Prop :=
  i.wellFormed = true →
    ∃ r ∈ tableRows i, encode i &&& r.mask = r.pattern ∧ i.isExtracode = r.extracode

/-! ## The bits of a format that an address field leaves alone -/

theorem wordF12_fixed (code : BitVec 3) (k12 : W12) :
    wordF12 code k12 &&& 0o70000#15 = wordF12 code 0#12 := by
  apply BitVec.eq_of_getLsbD_eq
  intro i hi
  simp only [BitVec.getLsbD_and, wordF12_getLsbD]
  interval_cases i <;> simp

theorem wordF10_fixed (code : BitVec 3) (qc : BitVec 2) (k10 : W10) :
    wordF10 code qc k10 &&& 0o76000#15 = wordF10 code qc 0#10 := by
  apply BitVec.eq_of_getLsbD_eq
  intro i hi
  simp only [BitVec.getLsbD_and, wordF10_getLsbD]
  interval_cases i <;> simp

theorem wordF9_fixed (pc : BitVec 3) (k9 : W9) :
    wordF9 pc k9 &&& 0o77000#15 = wordF9 pc 0#9 := by
  apply BitVec.eq_of_getLsbD_eq
  intro i hi
  simp only [BitVec.getLsbD_and, wordF9_getLsbD]
  interval_cases i <;> simp

/-- The quarter code of a 12-bit target is part of the address. -/
theorem wordF12_quarter (code : BitVec 3) (k12 : W12) :
    wordF12 code k12 &&& 0o76000#15 = wordF10 code (k12.extractLsb' 10 2) 0#10 := by
  apply BitVec.eq_of_getLsbD_eq
  intro i hi
  simp only [BitVec.getLsbD_and, wordF12_getLsbD, wordF10_getLsbD, BitVec.getLsbD_extractLsb']
  interval_cases i <;> simp

/-- A fixed target has a quarter code that is not 0 (R102, format F12Q). -/
theorem quarter_of_fixedTarget {k12 : W12} (h : fixedTarget k12 = true) :
    k12.extractLsb' 10 2 = 1#2 ∨ k12.extractLsb' 10 2 = 2#2 ∨ k12.extractLsb' 10 2 = 3#2 := by
  have h' : 0o2000 ≤ k12.toNat := by simpa [fixedTarget] using h
  have hq : (k12.extractLsb' 10 2).toNat = k12.toNat / 1024 := by
    have := k12.isLt
    simp [Nat.shiftRight_eq_div_pow]
    omega
  have hlt := (k12.extractLsb' 10 2).isLt
  have hc : (k12.extractLsb' 10 2).toNat = 1 ∨ (k12.extractLsb' 10 2).toNat = 2 ∨
      (k12.extractLsb' 10 2).toNat = 3 := by omega
  rcases hc with h1 | h1 | h1
  · exact .inl (BitVec.eq_of_toNat_eq h1)
  · exact .inr (.inl (BitVec.eq_of_toNat_eq h1))
  · exact .inr (.inr (BitVec.eq_of_toNat_eq h1))

/-! ## One lemma for each instruction -/

theorem RowBits.xxalq : RowBits.Statement .xxalq :=
  fun _ => ⟨_, List.mem_singleton.2 rfl, rfl, rfl⟩

theorem RowBits.xlq : RowBits.Statement .xlq :=
  fun _ => ⟨_, List.mem_singleton.2 rfl, rfl, rfl⟩

theorem RowBits.ret : RowBits.Statement .ret :=
  fun _ => ⟨_, List.mem_singleton.2 rfl, rfl, rfl⟩

theorem RowBits.relint : RowBits.Statement .relint :=
  fun _ => ⟨_, List.mem_singleton.2 rfl, rfl, rfl⟩

theorem RowBits.inhint : RowBits.Statement .inhint :=
  fun _ => ⟨_, List.mem_singleton.2 rfl, rfl, rfl⟩

theorem RowBits.extend : RowBits.Statement .extend :=
  fun _ => ⟨_, List.mem_singleton.2 rfl, rfl, rfl⟩

theorem RowBits.resume : RowBits.Statement .resume :=
  fun _ => ⟨_, List.mem_singleton.2 rfl, rfl, rfl⟩

theorem RowBits.tc (k12 : W12) : RowBits.Statement (.tc k12) :=
  fun _ => ⟨_, List.mem_singleton.2 rfl, wordF12_fixed _ _, rfl⟩

theorem RowBits.ccs (k10 : W10) : RowBits.Statement (.ccs k10) :=
  fun _ => ⟨_, List.mem_singleton.2 rfl, wordF10_fixed _ _ _, rfl⟩

theorem RowBits.tcf (k12 : W12) : RowBits.Statement (.tcf k12) := by
  intro h
  have hb := wordF12_quarter 1#3 k12
  rcases quarter_of_fixedTarget h with hq | hq | hq <;> rw [hq] at hb
  · exact ⟨_, List.mem_cons_self .., hb, rfl⟩
  · exact ⟨_, List.mem_cons_of_mem _ (List.mem_cons_self ..), hb, rfl⟩
  · exact ⟨_, List.mem_cons_of_mem _ (List.mem_cons_of_mem _ (List.mem_cons_self ..)), hb, rfl⟩

theorem RowBits.das (k10 : W10) : RowBits.Statement (.das k10) :=
  fun _ => ⟨_, List.mem_singleton.2 rfl, wordF10_fixed _ _ _, rfl⟩

theorem RowBits.lxch (k10 : W10) : RowBits.Statement (.lxch k10) :=
  fun _ => ⟨_, List.mem_singleton.2 rfl, wordF10_fixed _ _ _, rfl⟩

theorem RowBits.incr (k10 : W10) : RowBits.Statement (.incr k10) :=
  fun _ => ⟨_, List.mem_singleton.2 rfl, wordF10_fixed _ _ _, rfl⟩

theorem RowBits.ads (k10 : W10) : RowBits.Statement (.ads k10) :=
  fun _ => ⟨_, List.mem_singleton.2 rfl, wordF10_fixed _ _ _, rfl⟩

theorem RowBits.ca (k12 : W12) : RowBits.Statement (.ca k12) :=
  fun _ => ⟨_, List.mem_singleton.2 rfl, wordF12_fixed _ _, rfl⟩

theorem RowBits.cs (k12 : W12) : RowBits.Statement (.cs k12) :=
  fun _ => ⟨_, List.mem_singleton.2 rfl, wordF12_fixed _ _, rfl⟩

theorem RowBits.index (k10 : W10) : RowBits.Statement (.index k10) :=
  fun _ => ⟨_, List.mem_singleton.2 rfl, wordF10_fixed _ _ _, rfl⟩

theorem RowBits.dxch (k10 : W10) : RowBits.Statement (.dxch k10) :=
  fun _ => ⟨_, List.mem_singleton.2 rfl, wordF10_fixed _ _ _, rfl⟩

theorem RowBits.ts (k10 : W10) : RowBits.Statement (.ts k10) :=
  fun _ => ⟨_, List.mem_singleton.2 rfl, wordF10_fixed _ _ _, rfl⟩

theorem RowBits.xch (k10 : W10) : RowBits.Statement (.xch k10) :=
  fun _ => ⟨_, List.mem_singleton.2 rfl, wordF10_fixed _ _ _, rfl⟩

theorem RowBits.ad (k12 : W12) : RowBits.Statement (.ad k12) :=
  fun _ => ⟨_, List.mem_singleton.2 rfl, wordF12_fixed _ _, rfl⟩

theorem RowBits.mask (k12 : W12) : RowBits.Statement (.mask k12) :=
  fun _ => ⟨_, List.mem_singleton.2 rfl, wordF12_fixed _ _, rfl⟩

theorem RowBits.read (k9 : W9) : RowBits.Statement (.read k9) :=
  fun _ => ⟨_, List.mem_singleton.2 rfl, wordF9_fixed _ _, rfl⟩

theorem RowBits.write (k9 : W9) : RowBits.Statement (.write k9) :=
  fun _ => ⟨_, List.mem_singleton.2 rfl, wordF9_fixed _ _, rfl⟩

theorem RowBits.rand (k9 : W9) : RowBits.Statement (.rand k9) :=
  fun _ => ⟨_, List.mem_singleton.2 rfl, wordF9_fixed _ _, rfl⟩

theorem RowBits.wand (k9 : W9) : RowBits.Statement (.wand k9) :=
  fun _ => ⟨_, List.mem_singleton.2 rfl, wordF9_fixed _ _, rfl⟩

theorem RowBits.ror (k9 : W9) : RowBits.Statement (.ror k9) :=
  fun _ => ⟨_, List.mem_singleton.2 rfl, wordF9_fixed _ _, rfl⟩

theorem RowBits.wor (k9 : W9) : RowBits.Statement (.wor k9) :=
  fun _ => ⟨_, List.mem_singleton.2 rfl, wordF9_fixed _ _, rfl⟩

theorem RowBits.rxor (k9 : W9) : RowBits.Statement (.rxor k9) :=
  fun _ => ⟨_, List.mem_singleton.2 rfl, wordF9_fixed _ _, rfl⟩

theorem RowBits.edrupt (k9 : W9) : RowBits.Statement (.edrupt k9) :=
  fun _ => ⟨_, List.mem_singleton.2 rfl, wordF9_fixed _ _, rfl⟩

theorem RowBits.dv (k10 : W10) : RowBits.Statement (.dv k10) :=
  fun _ => ⟨_, List.mem_singleton.2 rfl, wordF10_fixed _ _ _, rfl⟩

theorem RowBits.bzf (k12 : W12) : RowBits.Statement (.bzf k12) := by
  intro h
  have hb := wordF12_quarter 1#3 k12
  rcases quarter_of_fixedTarget h with hq | hq | hq <;> rw [hq] at hb
  · exact ⟨_, List.mem_cons_self .., hb, rfl⟩
  · exact ⟨_, List.mem_cons_of_mem _ (List.mem_cons_self ..), hb, rfl⟩
  · exact ⟨_, List.mem_cons_of_mem _ (List.mem_cons_of_mem _ (List.mem_cons_self ..)), hb, rfl⟩

theorem RowBits.msu (k10 : W10) : RowBits.Statement (.msu k10) :=
  fun _ => ⟨_, List.mem_singleton.2 rfl, wordF10_fixed _ _ _, rfl⟩

theorem RowBits.qxch (k10 : W10) : RowBits.Statement (.qxch k10) :=
  fun _ => ⟨_, List.mem_singleton.2 rfl, wordF10_fixed _ _ _, rfl⟩

theorem RowBits.aug (k10 : W10) : RowBits.Statement (.aug k10) :=
  fun _ => ⟨_, List.mem_singleton.2 rfl, wordF10_fixed _ _ _, rfl⟩

theorem RowBits.dim (k10 : W10) : RowBits.Statement (.dim k10) :=
  fun _ => ⟨_, List.mem_singleton.2 rfl, wordF10_fixed _ _ _, rfl⟩

theorem RowBits.dca (k12 : W12) : RowBits.Statement (.dca k12) :=
  fun _ => ⟨_, List.mem_singleton.2 rfl, wordF12_fixed _ _, rfl⟩

theorem RowBits.dcs (k12 : W12) : RowBits.Statement (.dcs k12) :=
  fun _ => ⟨_, List.mem_singleton.2 rfl, wordF12_fixed _ _, rfl⟩

theorem RowBits.indexTwo (k12 : W12) : RowBits.Statement (.indexTwo k12) :=
  fun _ => ⟨_, List.mem_singleton.2 rfl, wordF12_fixed _ _, rfl⟩

theorem RowBits.su (k10 : W10) : RowBits.Statement (.su k10) :=
  fun _ => ⟨_, List.mem_singleton.2 rfl, wordF10_fixed _ _ _, rfl⟩

theorem RowBits.bzmf (k12 : W12) : RowBits.Statement (.bzmf k12) := by
  intro h
  have hb := wordF12_quarter 6#3 k12
  rcases quarter_of_fixedTarget h with hq | hq | hq <;> rw [hq] at hb
  · exact ⟨_, List.mem_cons_self .., hb, rfl⟩
  · exact ⟨_, List.mem_cons_of_mem _ (List.mem_cons_self ..), hb, rfl⟩
  · exact ⟨_, List.mem_cons_of_mem _ (List.mem_cons_of_mem _ (List.mem_cons_self ..)), hb, rfl⟩

theorem RowBits.mp (k12 : W12) : RowBits.Statement (.mp k12) :=
  fun _ => ⟨_, List.mem_singleton.2 rfl, wordF12_fixed _ _, rfl⟩

end Sys2Proof.Laws
end

