-- ==== Sys2Proof/Laws/Timers.lean ====
section
/-! SUPPORT. What the timers of a Step can change, said once: the frame of a timer pass, composed from
that of each of its parts. -/

namespace Sys2Proof.Machine

/-- TIME1 to TIME5. -/
def timerPlaces : List Place := [.reg 0o24, .reg 0o25, .reg 0o26, .reg 0o27, .reg 0o30]

/-- Everything the timers leave: each field but the counter registers, the channels, the requests, the
extra delay, the warning filter and the scaler counter; of the places TIME1 to TIME5 alone change, of
the channels 03 and 04; no request is withdrawn and no delay taken back. -/
structure TimerFrame (s t : State) : Prop where
  fields : t = { s with
    file := t.file, chan := t.chan, extraDelay := t.extraDelay, irq := t.irq
    warningFilter := t.warningFilter, warningGenerated := t.warningGenerated
    scalerCounter := t.scalerCounter }
  places : KeepsPlaces s t timerPlaces
  channels : KeepsChannels s t [3, 4]
  requests : ∀ n, irqPending s n = true → irqPending t n = true
  delay : s.extraDelay ≤ t.extraDelay

theorem TimerFrame.refl (s : State) : TimerFrame s s :=
  ⟨rfl, fun _ _ => rfl, fun _ _ => rfl, fun _ h => h, le_rfl⟩

theorem TimerFrame.trans {s t u : State} (h : TimerFrame s t) (h' : TimerFrame t u) :
    TimerFrame s u := by
  refine ⟨?_, fun p hp => ?_, fun c hc => ?_,
    fun n hn => h'.requests n (h.requests n hn), h.delay.trans h'.delay⟩
  · conv_lhs => rw [h'.fields, h.fields]
  · rw [h'.places p hp, h.places p hp]
  · rw [h'.channels c hc, h.channels c hc]

theorem addExtraDelay_frame (s : State) : TimerFrame s (addExtraDelay s) :=
  ⟨rfl, fun _ _ => rfl, fun _ _ => rfl, fun _ h => h, Nat.le_succ _⟩

theorem setPlainReg_frame (s : State) {r : Nat} (v : W15) (h : Place.reg r ∈ timerPlaces)
    (h8 : 8 ≤ r) : TimerFrame s (setPlainReg s r v) :=
  ⟨rfl,
    (setPlainReg_keeps s v h8).mono (fun p hp => by rwa [List.mem_singleton.1 hp]),
    fun _ _ => rfl, fun _ h => h, le_rfl⟩

theorem raiseIrq_frame (s : State) {n : Nat} (h1 : 1 ≤ n) (h2 : n ≤ 10) :
    TimerFrame s (raiseIrq s n) := by
  refine ⟨?_, ?_, fun _ _ => ?_, fun m hm => ?_, ?_⟩
  · cases n <;> rfl
  · exact keepsPlaces_of_fields (.inr (by simp)) (.inr (by simp)) (.inr (by simp)) (.inr (by simp))
      (.inr (by simp)) (.inr (by simp)) (.inr (by simp)) (by simp) (by simp) (by simp)
  · exact chanRead_congr (by simp) _
  · rw [irqPending_raiseIrq s m h1 h2, hm, Bool.or_true]
  · simp

theorem chanWrite_frame (s : State) {c : Nat} (v : W15) (h : c ∈ [3, 4]) :
    TimerFrame s (chanWrite s c v) := by
  refine ⟨rfl, ?_, fun k hk => ?_, fun _ h => h, le_rfl⟩
  · exact keepsPlaces_of_fields (.inr rfl) (.inr rfl) (.inr rfl) (.inr rfl) (.inr rfl) (.inr rfl)
      (.inr rfl) rfl rfl rfl
  · rw [chanRead_chanWrite, if_neg]
    rintro rfl
    exact hk h

theorem pinc_frame (s : State) {r : Nat} (h : Place.reg r ∈ timerPlaces) (h8 : 8 ≤ r) :
    TimerFrame s (pinc s r).1 := setPlainReg_frame s _ h h8

theorem pincRaise_frame (s : State) {r n : Nat} (h : Place.reg r ∈ timerPlaces) (h8 : 8 ≤ r)
    (h1 : 1 ≤ n) (h2 : n ≤ 10) : TimerFrame s (pincRaise s r n) := by
  simp only [pincRaise]
  split
  · exact (pinc_frame s h h8).trans (raiseIrq_frame _ h1 h2)
  · exact pinc_frame s h h8

theorem scalerTick_frame (s : State) : TimerFrame s (scalerTick s) := by
  simp only [scalerTick]
  split
  · exact (chanWrite_frame s _ (by simp)).trans (chanWrite_frame _ _ (by simp))
  · exact chanWrite_frame s _ (by simp)

theorem setFilter_frame (s : State) (filter : Nat) (generated : Bool) :
    TimerFrame s { s with warningGenerated := generated, warningFilter := filter } :=
  ⟨rfl, fun _ _ => rfl, fun _ _ => rfl, fun _ h => h, le_rfl⟩

theorem warningFilterUpdate_frame (s : State) : TimerFrame s (warningFilterUpdate s) := by
  unfold warningFilterUpdate
  split
  · exact setFilter_frame s _ _
  · exact setFilter_frame s _ s.warningGenerated

theorem tickTime1_frame (s : State) : TimerFrame s (tickTime1 s) := by
  have h := (addExtraDelay_frame s).trans
    (pinc_frame (addExtraDelay s) (r := regTime1) (by decide) (by decide))
  simp only [tickTime1]
  split
  · exact (h.trans (addExtraDelay_frame _)).trans (pinc_frame _ (by decide) (by decide))
  · exact h

theorem phaseTime13_frame (s : State) : TimerFrame s (phaseTime13 s) :=
  ((tickTime1_frame s).trans (addExtraDelay_frame _)).trans
    (pincRaise_frame _ (by decide) (by decide) (by decide) (by decide))

theorem phaseTime5_frame (s : State) : TimerFrame s (phaseTime5 s) :=
  (addExtraDelay_frame s).trans
    (pincRaise_frame _ (by decide) (by decide) (by decide) (by decide))

theorem phaseTime4_frame (s : State) : TimerFrame s (phaseTime4 s) :=
  (addExtraDelay_frame s).trans
    (pincRaise_frame _ (by decide) (by decide) (by decide) (by decide))

/-- The frame of a step that is made or not made. -/
theorem TimerFrame.ite {s : State} {f : State → State} (h : ∀ u, TimerFrame u (f u)) (c : Prop)
    [Decidable c] : TimerFrame s (if c then f s else s) := by
  split
  · exact h s
  · exact TimerFrame.refl s

theorem phaseActions_frame (s : State) (sc : W15) : TimerFrame s (phaseActions s sc) := by
  simp only [phaseActions]
  exact (((TimerFrame.ite warningFilterUpdate_frame _).trans (TimerFrame.ite phaseTime13_frame _)).trans
    (TimerFrame.ite phaseTime5_frame _)).trans (TimerFrame.ite phaseTime4_frame _)

/-- The frame of a timer pass. -/
theorem timerPass_frame (s : State) : TimerFrame s (timerPass s) :=
  (scalerTick_frame s).trans (phaseActions_frame _ _)

theorem timerLoop_frame (n : Nat) (s : State) : TimerFrame s (timerLoop n s) := by
  induction n generalizing s with
  | zero => exact TimerFrame.refl s
  | succ n ih =>
    simp only [timerLoop]
    split
    · refine TimerFrame.trans ?_ ((timerPass_frame _).trans (ih _))
      exact ⟨rfl, fun _ _ => rfl, fun _ _ => rfl, fun _ h => h, le_rfl⟩
    · exact TimerFrame.refl s

/-- What the counter increments of a pass leave besides: the channels and the warning filter. -/
structure QuietFrame (s t : State) : Prop where
  chan : t.chan = s.chan
  filter : t.warningFilter = s.warningFilter
  generated : t.warningGenerated = s.warningGenerated

theorem QuietFrame.trans {s t u : State} (h : QuietFrame s t) (h' : QuietFrame t u) :
    QuietFrame s u :=
  ⟨h'.chan.trans h.chan, h'.filter.trans h.filter, h'.generated.trans h.generated⟩

theorem QuietFrame.ite {s : State} {f : State → State} (h : ∀ u, QuietFrame u (f u)) (c : Prop)
    [Decidable c] : QuietFrame s (if c then f s else s) := by
  split
  · exact h s
  · exact ⟨rfl, rfl, rfl⟩

theorem addExtraDelay_quiet (s : State) : QuietFrame s (addExtraDelay s) := ⟨rfl, rfl, rfl⟩

theorem pinc_quiet (s : State) (r : Nat) : QuietFrame s (pinc s r).1 := ⟨rfl, rfl, rfl⟩

theorem raiseIrq_quiet (s : State) (n : Nat) : QuietFrame s (raiseIrq s n) := by
  cases n <;> exact ⟨rfl, rfl, rfl⟩

theorem pincRaise_quiet (s : State) (r n : Nat) : QuietFrame s (pincRaise s r n) := by
  simp only [pincRaise]
  split
  · exact (pinc_quiet s r).trans (raiseIrq_quiet _ n)
  · exact pinc_quiet s r

theorem phaseTime13_quiet (s : State) : QuietFrame s (phaseTime13 s) := by
  refine QuietFrame.trans ?_ ((addExtraDelay_quiet (tickTime1 s)).trans (pincRaise_quiet _ _ _))
  have h := (addExtraDelay_quiet s).trans (pinc_quiet (addExtraDelay s) regTime1)
  simp only [tickTime1]
  split
  · exact h.trans ((addExtraDelay_quiet _).trans (pinc_quiet _ _))
  · exact h

theorem phaseTime5_quiet (s : State) : QuietFrame s (phaseTime5 s) :=
  (addExtraDelay_quiet s).trans (pincRaise_quiet _ _ _)

theorem phaseTime4_quiet (s : State) : QuietFrame s (phaseTime4 s) :=
  (addExtraDelay_quiet s).trans (pincRaise_quiet _ _ _)

/-- Of the channels and the warning filter, a pass's phase actions change only what the filter's own
update changes. -/
theorem phaseActions_quiet (s : State) (sc : W15) :
    QuietFrame (if sc &&& config.wfPeriodMask = 0#15 then warningFilterUpdate s else s)
      (phaseActions s sc) := by
  simp only [phaseActions]
  exact ((QuietFrame.ite phaseTime13_quiet _).trans (QuietFrame.ite phaseTime5_quiet _)).trans
    (QuietFrame.ite phaseTime4_quiet _)

end Sys2Proof.Machine
end

