-- ==== Sys2Proof/Laws/Step.lean ====
section
/-! SUPPORT. What a Step can do, said once: its head, and the inversion of the plan that `step` carries
out (spec/41_execution_cycle.md R160). -/

namespace Sys2Proof.Machine

/-! ## The head -/

/-- The head of a Step changes the requests, the downrupt timer's armed flag and the two counters, and
nothing else (R161). -/
theorem stepHead_fields (s : State) :
    stepHead s = { s with
      irq := (stepHead s).irq, downruptArmed := (stepHead s).downruptArmed
      cycleCounter := s.cycleCounter + 1
      scalerCounter := s.scalerCounter + config.scalerIncrement } := by
  simp only [stepHead]
  split <;> rfl

/-- The head withdraws no request. -/
theorem stepHead_requests (s : State) (n : Nat) (h : irqPending s n = true) :
    irqPending (stepHead s) n = true := by
  simp only [stepHead]
  split
  · have h8 : irqPending (raiseIrq s 8) n = true := by
      rw [irqPending_raiseIrq s n (by decide) (by decide), h, Bool.or_true]
    exact h8
  · exact h

/-- A Step's head leaves every place and channel as it was. -/
theorem stepHead_keeps (s : State) : KeepsPlaces s (stepHead s) [] ∧ KeepsChannels s (stepHead s) [] := by
  rw [stepHead_fields s]
  exact ⟨keepsPlaces_of_fields (.inr rfl) (.inr rfl) (.inr rfl) (.inr rfl) (.inr rfl) (.inr rfl)
    (.inr rfl) rfl rfl rfl, fun _ _ => rfl⟩

/-! ## Delays -/

/-- A consumed delay unit is of the extra delay, or of a charged instruction's delay. -/
theorem consumeDelay_cases {s t : State} (h : consumeDelay s = some t) :
    (0 < s.extraDelay ∧ t = { s with extraDelay := s.extraDelay - 1 }) ∨
      (s.extraDelay = 0 ∧ s.pendFlag = true ∧ 0 < s.pendDelay ∧
        t = { s with pendDelay := s.pendDelay - 1 }) := by
  unfold consumeDelay at h
  split_ifs at h with h1 h2
  · exact .inl ⟨h1, (Option.some.inj h).symm⟩
  · exact .inr ⟨by omega, h2.1, h2.2, (Option.some.inj h).symm⟩

/-- With no delay to consume, the extra delay is 0, and so is the delay of a charged instruction. -/
theorem consumeDelay_none {s : State} (h : consumeDelay s = none) :
    s.extraDelay = 0 ∧ (s.pendFlag = true → s.pendDelay = 0) := by
  unfold consumeDelay at h
  split_ifs at h with h1 h2
  exact ⟨by omega, fun hp => by by_contra hd; exact h2 ⟨hp, by omega⟩⟩

/-- A unit of extra delay from the timers is consumed, or there is none. -/
theorem consumeTimerDelay_cases (s : State) :
    (0 < s.extraDelay ∧ consumeTimerDelay s = some { s with extraDelay := s.extraDelay - 1 }) ∨
      (s.extraDelay = 0 ∧ consumeTimerDelay s = none) := by
  unfold consumeTimerDelay
  split
  · rename_i h; exact .inl ⟨h, rfl⟩
  · rename_i h; exact .inr ⟨by omega, rfl⟩

/-! ## From the fetch on -/

/-- Every condition of eligibility (R335). -/
theorem eligible_iff (s : State) (iw : W15) :
    eligible s iw = true ↔
      s.pendFlag = false ∧ s.intEnabled = true ∧ s.inIsr = false ∧ s.extracode = false ∧
        hasOverflow s.a = false ∧ (iw ≠ 3#15 ∧ iw ≠ 4#15 ∧ iw ≠ 6#15) ∧ s.indexValue = 0#15 := by
  simp [eligible, isProtected, and_assoc]

/-- What the fetch comes to, for an instruction other than EDRUPT (R167 to R169). -/
theorem dispatchInstr_eq (s : State) {i : Instr} (h : ∀ k, i ≠ .edrupt k) :
    dispatchInstr s i =
      if eligible s (effectiveWord s) then
        match tryVector s s.z (effectiveWord s) with
        | some t => .enter t
        | none => accountInstr s i
      else accountInstr s i := by
  cases i <;> first | rfl | exact absurd rfl (h _)

/-- With no interrupt to enter, the instruction is charged or runs. -/
theorem dispatchInstr_of_none (s : State) {i : Instr} (h : ∀ k, i ≠ .edrupt k)
    (hi : firstPending s = none ∨ eligible s (effectiveWord s) = false) :
    dispatchInstr s i = accountInstr s i := by
  rw [dispatchInstr_eq s h]
  rcases hi with hi | hi
  · unfold tryVector; rw [hi]; simp
  · rw [hi]; rfl

/-- Every outcome of the fetch. -/
theorem dispatchInstr_cases (s : State) (i : Instr) :
    (∃ k, i = .edrupt k ∧ dispatchInstr s i = .run (.edrupt k) s) ∨
      ((∀ k, i ≠ .edrupt k) ∧ eligible s (effectiveWord s) = true ∧
        ∃ t, tryVector s s.z (effectiveWord s) = some t ∧ dispatchInstr s i = .enter t) ∨
      ((∀ k, i ≠ .edrupt k) ∧ dispatchInstr s i = accountInstr s i) := by
  by_cases h : ∃ k, i = .edrupt k
  · obtain ⟨k, rfl⟩ := h
    exact .inl ⟨k, rfl, rfl⟩
  · have hn : ∀ k, i ≠ .edrupt k := fun k hk => h ⟨k, hk⟩
    rw [dispatchInstr_eq s hn]
    by_cases he : eligible s (effectiveWord s) = true
    · rw [if_pos he]
      cases hv : tryVector s s.z (effectiveWord s) with
      | some t => exact .inr (.inl ⟨hn, he, t, rfl, rfl⟩)
      | none => exact .inr (.inr ⟨hn, rfl⟩)
    · rw [if_neg he]
      exact .inr (.inr ⟨hn, rfl⟩)

/-- Every outcome of the accounting (R168, R169). -/
theorem accountInstr_cases (s : State) (i : Instr) :
    (s.pendFlag = true ∧ accountInstr s i = .run i { s with pendFlag := false }) ∨
      (s.pendFlag = false ∧ 1 < config.mct i ∧
        accountInstr s i = .wait { s with pendFlag := true, pendDelay := config.mct i - 2 }) ∨
      (s.pendFlag = false ∧ config.mct i ≤ 1 ∧ accountInstr s i = .run i s) := by
  unfold accountInstr
  split_ifs with h1 h2
  · exact .inl ⟨h1, rfl⟩
  · exact .inr (.inl ⟨by simpa using h1, h2, rfl⟩)
  · exact .inr (.inr ⟨by simpa using h1, by omega, rfl⟩)

/-! ## The plan of a Step -/

/-- The order of a Step (R160): refused before the load, a delay unit, a delay unit from the timers, or
the fetch. -/
theorem planStep_cases (s : State) :
    (s.ready = false ∧ planStep s = .refuse .stepBeforeLoad) ∨
      (s.ready = true ∧ ∃ t, consumeDelay (stepHead s) = some t ∧ planStep s = .wait t) ∨
      (s.ready = true ∧ consumeDelay (stepHead s) = none ∧
        ((∃ t, consumeTimerDelay (runTimers (stepHead s)) = some t ∧ planStep s = .wait t) ∨
          ((runTimers (stepHead s)).extraDelay = 0 ∧
            planStep s = dispatchInstr (runTimers (stepHead s))
              (decodedInstr (runTimers (stepHead s)))))) := by
  simp only [planStep]
  by_cases hr : s.ready = true
  · rw [if_pos hr]
    cases hc : consumeDelay (stepHead s) with
    | some t => exact .inr (.inl ⟨hr, t, rfl, rfl⟩)
    | none =>
      refine .inr (.inr ⟨hr, rfl, ?_⟩)
      simp only [planAfterDelay]
      rcases consumeTimerDelay_cases (runTimers (stepHead s)) with ⟨-, h⟩ | ⟨h0, h⟩
      · exact .inl ⟨_, h, by rw [h]⟩
      · exact .inr ⟨h0, by rw [h]⟩
  · rw [if_neg hr]
    exact .inl ⟨by simpa using hr, rfl⟩

/-- The timers of a Step, after its head: what they can change. -/
theorem runTimers_frame (s : State) : TimerFrame s (runTimers s) := timerLoop_frame _ s

end Sys2Proof.Machine
end

