-- ==== Sys2Proof/Tests/Slice0.lean ====
section
/-! SUPPORT. The model's own tests: the WellFormed smoke, words written out from spec/30_encoding.md,
single instructions and Steps with the expected results of spec/95_test_vectors.md (the vector's name
stands in each comment), and for each statement of Obligations.lean with hypotheses a witness that
meets them, clause by clause. -/

namespace Sys2Proof.Tests

open Sys2Proof.Machine

/-! ## Helpers -/

/-- The start state of spec/95: reset, with the image loaded. -/
def base : State := { State.reset with ready := true }

/-- `base` at 04001 in extracode mode, as after an EXTEND at 04000. -/
def extended : State := { base with z := 0o4001#12, extracode := true }

/-- A fixed word placed in bank 2, which 04000 shows. -/
def withFixed (s : State) (offset : W10) (w : W15) : State :=
  { s with rom := Memory.write blankCell s.rom (romCell 2 offset) w }

/-- A check of the next state; false where there is none. -/
def next (o : Host.Outcome State Fault Refusal) (p : State → Bool) : Bool :=
  match o with
  | .next t => p t
  | .fault _ => false
  | .refused _ => false

/-- A check that an outcome is the named refusal. -/
def refusedAs (o : Host.Outcome State Fault Refusal) (r : Refusal) : Bool :=
  match o with
  | .next _ => false
  | .fault _ => false
  | .refused q => q == r

/-! ## WellFormed: each check refuses an ill-formed term -/

theorem test_wellFormed_refuses_tc_of_a_literal : (Instr.tc 0o6#12).wellFormed = false := by decide
theorem test_wellFormed_refuses_tcf_to_erasable : (Instr.tcf 0o1777#12).wellFormed = false := by
  decide
theorem test_wellFormed_refuses_bzf_to_erasable : (Instr.bzf 0#12).wellFormed = false := by decide
theorem test_wellFormed_refuses_bzmf_to_erasable : (Instr.bzmf 0o1777#12).wellFormed = false := by
  decide
theorem test_wellFormed_refuses_index_of_brupt : (Instr.index 0o17#10).wellFormed = false := by
  decide

/-! ## Decoding: a word of every constructor, field by field (R104 to R108) -/

/-- Words 0 to 7 and 007777: the literals, and TC (R104). -/
theorem test_decode_code_zero :
    decode false 0b000_000000000000#15 = .xxalq ∧ decode false 0b000_000000000001#15 = .xlq ∧
      decode false 0b000_000000000010#15 = .ret ∧ decode false 0b000_000000000011#15 = .relint ∧
      decode false 0b000_000000000100#15 = .inhint ∧ decode false 0b000_000000000110#15 = .extend ∧
      decode false 0b000_000000000101#15 = .tc 0o5#12 ∧
      decode false 0b000_111111111111#15 = .tc 0o7777#12 := by decide

/-- Codes 1 and 2 of basic mode, split by the quarter code (R105). -/
theorem test_decode_quarter_codes :
    decode false 0b001_00_0001000000#15 = .ccs 0o100#10 ∧
      decode false 0b001_01_0000000011#15 = .tcf 0o2003#12 ∧
      decode false 0b001_11_1111111111#15 = .tcf 0o7777#12 ∧
      decode false 0b010_00_0001000001#15 = .das 0o101#10 ∧
      decode false 0b010_01_0001000000#15 = .lxch 0o100#10 ∧
      decode false 0b010_10_0001000000#15 = .incr 0o100#10 ∧
      decode false 0b010_11_1000000001#15 = .ads 0o1001#10 := by decide

/-- Codes 3 to 7 of basic mode (R105, R106), and RESUME (R108). -/
theorem test_decode_high_codes :
    decode false 0b011_100000000111#15 = .ca 0o4007#12 ∧
      decode false 0b100_000001000000#15 = .cs 0o100#12 ∧
      decode false 0b101_00_0000010000#15 = .index 0o20#10 ∧
      decode false 0b101_00_0000001111#15 = .resume ∧
      decode false 0b101_01_0001000001#15 = .dxch 0o101#10 ∧
      decode false 0b101_10_0001000000#15 = .ts 0o100#10 ∧
      decode false 0b101_11_0001000000#15 = .xch 0o100#10 ∧
      decode false 0b110_000001000000#15 = .ad 0o100#12 ∧
      decode false 0b111_000000000010#15 = .mask 0o2#12 := by decide

/-- Code 0 of extracode mode, split by the peripheral code (R107). -/
theorem test_decode_peripheral_codes :
    decode true 0b000_000_000000110#15 = .read 0o6#9 ∧
      decode true 0b000_001_000001001#15 = .write 0o11#9 ∧
      decode true 0b000_010_000001010#15 = .rand 0o12#9 ∧
      decode true 0b000_011_000001010#15 = .wand 0o12#9 ∧
      decode true 0b000_100_000001010#15 = .ror 0o12#9 ∧
      decode true 0b000_101_000001010#15 = .wor 0o12#9 ∧
      decode true 0b000_110_111111111#15 = .rxor 0o777#9 ∧
      decode true 0b000_111_000000000#15 = .edrupt 0#9 := by decide

/-- Codes 1 to 7 of extracode mode (R107). -/
theorem test_decode_extracodes :
    decode true 0b001_00_0001000000#15 = .dv 0o100#10 ∧
      decode true 0b001_10_0001000000#15 = .bzf 0o4100#12 ∧
      decode true 0b010_00_0001000000#15 = .msu 0o100#10 ∧
      decode true 0b010_01_0001000000#15 = .qxch 0o100#10 ∧
      decode true 0b010_10_0001000000#15 = .aug 0o100#10 ∧
      decode true 0b010_11_0001000000#15 = .dim 0o100#10 ∧
      decode true 0b011_000001000001#15 = .dca 0o101#12 ∧
      decode true 0b100_000001000001#15 = .dcs 0o101#12 ∧
      decode true 0b101_000000001111#15 = .indexTwo 0o17#12 ∧
      decode true 0b110_00_0001000000#15 = .su 0o100#10 ∧
      decode true 0b110_10_0001000000#15 = .bzmf 0o4100#12 ∧
      decode true 0b111_000001000000#15 = .mp 0o100#12 := by decide

/-- Opcode-table numbers (log 5): a basic word, the same word with bit 15, the same word after an
EXTEND word, and a number that is no word. -/
theorem test_decodeTableWord :
    decodeTableWord 16 0o070100 = some (.mask 0o100#12) ∧
      decodeTableWord 16 (0o100000 + 0o070100) = some (.mp 0o100#12) ∧
      decodeTableWord 32 (0o000006 + 65536 * 0o070100) = some (.mp 0o100#12) ∧
      decodeTableWord 32 (65536 * 0o070100) = none := by decide

/-- A placed word is what the next Step runs, from reset (log 5). -/
theorem test_withFetchWord_runs :
    next (step (State.reset.withFetchWord 16 0o040007)) (fun t =>
      t.a == 0o177777#16 && t.z == 0o4001#12) = true ∧
    next (step (State.reset.withFetchWord 16 (0o100000 + 0o000030))) (fun t =>
      t.a == 0o37777#16 && t.z == 0o4001#12 && !t.extracode) = true := by decide

/-! ## Control transfer -/

/-- CT2. -/
theorem test_tc : next (exec (.tc 0o100#12) base) (fun t =>
    t.q == 0o4001#16 && t.z == 0o100#12) = true := by decide
/-- CT3, CT4, CT5. -/
theorem test_literal_transfers :
    next (exec .xxalq base) (fun t => t.q == 0o4001#16 && t.z == 0#12) = true ∧
      next (exec .xlq base) (fun t => t.q == 0o4001#16 && t.z == 1#12) = true ∧
      next (exec .ret { base with q := 0o4005#16 }) (fun t =>
        t.q == 0o4005#16 && t.z == 2#12) = true := by decide
/-- CT6. -/
theorem test_tcf : next (exec (.tcf 0o5000#12) { base with q := 0o77#16 }) (fun t =>
    t.q == 0o77#16 && t.z == 0o5000#12) = true := by decide
/-- CT10. -/
theorem test_ccs_of_minus_five :
    next (exec (.ccs 0o100#10) (memWrite base 0o100#12 0o77772#16)) (fun t =>
      t.a == 4#16 && t.z == 0o4003#12) = true := by decide
/-- CT15. -/
theorem test_ccs_of_overflowed_a :
    next (exec (.ccs 0#10) { base with a := 0o100003#16 }) (fun t =>
      t.a == 0o77773#16 && t.z == 0o4003#12) = true := by decide
/-- CT18, CT19. -/
theorem test_bzf :
    next (exec (.bzf 0o4100#12) { extended with a := 0o177777#16 }) (fun t =>
      t.z == 0o4100#12 && t.extraDelay == 0) = true ∧
      next (exec (.bzf 0o4100#12) { extended with a := 0o100000#16 }) (fun t =>
        t.z == 0o4002#12 && t.extraDelay == 1) = true := by decide
/-- CT20, CT21. -/
theorem test_bzmf :
    next (exec (.bzmf 0o4100#12) { extended with a := 0o100000#16 }) (fun t =>
      t.z == 0o4100#12 && t.extraDelay == 0) = true ∧
      next (exec (.bzmf 0o4100#12) { extended with a := 0o40000#16 }) (fun t =>
        t.z == 0o4002#12 && t.extraDelay == 1) = true := by decide

/-! ## Sequence control -/

/-- SC1, SC2, SC3. -/
theorem test_flags :
    next (exec .relint base) (fun t => t.intEnabled && t.z == 0o4001#12) = true ∧
      next (exec .inhint { base with intEnabled := true }) (fun t => !t.intEnabled) = true ∧
      next (exec .extend base) (fun t => t.extracode) = true := by decide
/-- SC4. -/
theorem test_index : next (exec (.index 0o100#10) (memWrite base 0o100#12 3#16)) (fun t =>
    t.indexValue == 3#15 && t.z == 0o4001#12 && !t.extracode) = true := by decide
/-- SC8. -/
theorem test_indexTwo : next (exec (.indexTwo 0o100#12) (memWrite extended 0o100#12 1#16)) (fun t =>
    t.indexValue == 1#15 && t.extracode) = true := by decide
/-- SC9. -/
theorem test_resume :
    next (exec .resume { memWrite base 0o15#12 0o4001#16 with inIsr := true }) (fun t =>
      t.z == 0o4000#12 && !t.inIsr && t.substitute) = true := by decide
/-- SC10. -/
theorem test_edrupt_without_request : next (exec (.edrupt 0#9) extended) (fun t =>
    t.z == 0#12 && plainReg t 0o15 == 0o4002#15 && plainReg t 0o17 == 0o7000#15 && t.inIsr &&
      !t.extracode && t.extraDelay == 1) = true := by decide
/-- SC11. -/
theorem test_edrupt_with_request : next (exec (.edrupt 0#9) (raiseIrq extended 4)) (fun t =>
    t.z == 0o4020#12 && !irqPending t 4) = true := by decide

/-! ## Load, store and exchange -/

/-- LS1. -/
theorem test_ca : next (exec (.ca 0o100#12) (memWrite base 0o100#12 0o52525#16)) (fun t =>
    t.a == 0o152525#16) = true := by decide
/-- LS2: A, L and Q move 16 bits. -/
theorem test_ca_of_q : next (exec (.ca 2#12) { base with q := 0o140000#16 }) (fun t =>
    t.a == 0o140000#16) = true := by decide
/-- LS4. -/
theorem test_cs : next (exec (.cs 0o100#12) (memWrite base 0o100#12 0o12345#16)) (fun t =>
    t.a == 0o165432#16) = true := by decide
/-- LS8. -/
theorem test_ts_skips : next (exec (.ts 0o100#10) { base with a := 0o40001#16 }) (fun t =>
    memRead t 0o100#12 == 1#16 && t.a == 1#16 && t.z == 0o4002#12) = true := by decide
/-- LS12. -/
theorem test_ts_z : next (exec (.ts 5#10) { base with a := 0o44100#16 }) (fun t =>
    t.z == 0o4100#12 && t.a == 1#16) = true := by decide
/-- LS14. -/
theorem test_xch :
    next (exec (.xch 0o100#10) { memWrite base 0o100#12 0o77776#16 with a := 0o40001#16 }) (fun t =>
      t.a == 0o177776#16 && memRead t 0o100#12 == 1#16) = true := by decide
/-- LS16, LS17. -/
theorem test_lxch :
    next (exec (.lxch 0o100#10) { memWrite base 0o100#12 7#16 with l := 5#16 }) (fun t =>
      t.l == 7#16 && memRead t 0o100#12 == 5#16) = true ∧
      next (exec (.lxch 7#10) { base with l := 5#16 }) (fun t => t.l == 0#16) = true := by decide
/-- LS18. -/
theorem test_qxch : next (exec (.qxch 0o100#10) { extended with q := 0o4001#16 }) (fun t =>
    t.q == 0#16 && memRead t 0o100#12 == 0o4001#16) = true := by decide
/-- LS20. -/
theorem test_dxch :
    next (exec (.dxch 0o101#10)
      { memWrite (memWrite base 0o100#12 5#16) 0o101#12 6#16 with a := 1#16, l := 0o177775#16 })
      (fun t => t.a == 5#16 && t.l == 6#16 && memRead t 0o100#12 == 1#16 &&
        memRead t 0o101#12 == 0o77775#16) = true := by decide
/-- LS24. -/
theorem test_dxch_z :
    next (exec (.dxch 6#10) { base with a := 0o5000#16, l := 0o12003#16 }) (fun t =>
      t.z == 0o5000#12 && t.bb == 0o12003#15 && t.eb == 0o1400#15 && t.fb == 0o12000#15 &&
        t.a == 0o4001#16 && t.l == 0#16) = true := by decide
/-- LS25. -/
theorem test_dca :
    next (exec (.dca 0o101#12) (memWrite (memWrite extended 0o100#12 0o77776#16) 0o101#12 3#16))
      (fun t => t.a == 0o177776#16 && t.l == 3#16) = true := by decide
/-- LS26. -/
theorem test_dca_of_l_and_q :
    next (exec (.dca 2#12) { extended with l := 5#16, q := 0o140001#16 }) (fun t =>
      t.l == 0o140001#16 && t.a == 0o140001#16) = true := by decide
/-- LS28. -/
theorem test_dcs :
    next (exec (.dcs 0o101#12) (memWrite (memWrite extended 0o100#12 1#16) 0o101#12 0o77775#16))
      (fun t => t.a == 0o177776#16 && t.l == 2#16) = true := by decide
/-- LS29. -/
theorem test_dcs_of_a_and_l :
    next (exec (.dcs 1#12) { extended with a := 0o40001#16, l := 2#16 }) (fun t =>
      t.a == 0o137776#16 && t.l == 0o177775#16) = true := by decide
/-- LS30. -/
theorem test_field_zero_is_refused :
    refusedAs (exec (.dxch 0#10) base) .dxchFieldZero = true ∧
      refusedAs (exec (.dca 0#12) extended) .dcaFieldZero = true ∧
      refusedAs (exec (.dcs 0#12) extended) .dcsFieldZero = true ∧
      refusedAs (exec (.das 0#10) base) .dasFieldZero = true := by decide

/-! ## Arithmetic and logic -/

/-- AL2. -/
theorem test_ad :
    next (exec (.ad 0o100#12) { memWrite base 0o100#12 0o77776#16 with a := 0o140000#16 }) (fun t =>
      t.a == 0o137777#16) = true := by decide
/-- AL3. -/
theorem test_ad_to_minus_zero :
    next (exec (.ad 0o100#12) { memWrite base 0o100#12 0o77772#16 with a := 5#16 }) (fun t =>
      t.a == 0o177777#16) = true := by decide
/-- AL7, AL9. -/
theorem test_ads :
    next (exec (.ads 0o100#10) { memWrite base 0o100#12 1#16 with a := 0o37777#16 }) (fun t =>
      t.a == 0o40000#16 && memRead t 0o100#12 == 0#16) = true ∧
      next (exec (.ads 2#10) { base with a := 0o37777#16, q := 1#16 }) (fun t =>
        t.a == 0o40000#16 && t.q == 0o40000#16) = true := by decide
/-- AL10. -/
theorem test_incr :
    next (exec (.incr 0o100#10) (memWrite base 0o100#12 0o77777#16)) (fun t =>
      memRead t 0o100#12 == 1#16 && t.a == 0#16) = true := by decide
/-- AL15. -/
theorem test_das :
    next (exec (.das 0o101#10)
      { memWrite (memWrite base 0o100#12 0o77776#16) 0o101#12 0o77776#16 with
        a := 0o140000#16, l := 0o140000#16 })
      (fun t => memRead t 0o100#12 == 0o77776#16 && memRead t 0o101#12 == 0o77777#16 &&
        t.a == 0o177776#16 && t.l == 0#16) = true := by decide
/-- AL18. -/
theorem test_das_doubles :
    next (exec (.das 1#10) { base with a := 1#16, l := 0o20000#16 }) (fun t =>
      t.a == 3#16 && t.l == 0#16) = true := by decide
/-- AL19, AL21. -/
theorem test_mask :
    next (exec (.mask 0o100#12) { memWrite base 0o100#12 0o777#16 with a := 0o152525#16 }) (fun t =>
      t.a == 0o525#16) = true ∧
      next (exec (.mask 2#12) { base with a := 0o40000#16, q := 0o140000#16 }) (fun t =>
        t.a == 0o40000#16) = true := by decide
/-- AL22. -/
theorem test_msu :
    next (exec (.msu 0o100#10) { memWrite extended 0o100#12 5#16 with a := 3#16 }) (fun t =>
      t.a == 0o177775#16) = true := by decide
/-- AL24. -/
theorem test_msu_at_the_ends :
    next (exec (.msu 0o100#10) { memWrite extended 0o100#12 0o40000#16 with a := 0o37777#16 })
      (fun t => t.a == 0o177776#16) = true := by decide
/-- AL26. -/
theorem test_mp :
    next (exec (.mp 0o100#12) { memWrite extended 0o100#12 0o456#16 with a := 0o177654#16 })
      (fun t => t.a == 0o177776#16 && t.l == 0o157025#16) = true := by decide
/-- AL28. -/
theorem test_mp_of_zero :
    next (exec (.mp 0o100#12) { memWrite extended 0o100#12 0o77321#16 with a := 0#16 }) (fun t =>
      t.a == 0o177777#16 && t.l == 0o177777#16) = true := by decide
/-- AL34, AL35, AL36. -/
theorem test_placeholders :
    next (exec (.aug 0o100#10) { memWrite extended 0o100#12 5#16 with a := 1#16 }) (fun t =>
      t.a == 1#16 && memRead t 0o100#12 == 5#16 && t.z == 0o4002#12) = true ∧
      next (exec (.dim 0o100#10) { memWrite extended 0o100#12 5#16 with a := 1#16 }) (fun t =>
        t.a == 1#16 && memRead t 0o100#12 == 5#16 && t.z == 0o4002#12) = true ∧
      next (exec (.su 0o100#10) { memWrite extended 0o100#12 5#16 with a := 7#16 }) (fun t =>
        t.a == 7#16 && memRead t 0o100#12 == 5#16 && t.z == 0o4002#12) = true := by decide
set_option maxRecDepth 8000 in
/-- DV2. -/
theorem test_dv :
    next (exec (.dv 0o100#10)
      { memWrite extended 0o100#12 5#16 with a := 0o177777#16, l := 0o177756#16 })
      (fun t => t.a == 0o177774#16 && t.l == 0o177775#16) = true := by decide
set_option maxRecDepth 8000 in
/-- DV13: the divisor is Q, with overflow. -/
theorem test_dv_by_overflowed_q :
    next (exec (.dv 2#10) { extended with a := 3#16, q := 0o40002#16 }) (fun t =>
      t.a == 2#16 && t.l == 0o37774#16 && t.q == 0o40002#16) = true := by decide
set_option maxRecDepth 8000 in
/-- DV20, DV21: out of range, and by +0. -/
theorem test_divide_out_of_range :
    divSim 0o37777#16 0o37777#16 1#16 = (0o37777#16, 0o40000#16) ∧
      divSim 0o12345#16 0o23456#16 0#16 = (0o37777#16, 0o63456#16) := by decide

/-! ## I/O channels -/

/-- IO3, IO4. -/
theorem test_read :
    next (exec (.read 0o12#9) (chanWrite extended 0o12 0o40001#15)) (fun t =>
      t.a == 0o140001#16) = true ∧
      next (exec (.read 1#9) { extended with l := 0o100001#16 }) (fun t =>
        t.a == 0o100001#16) = true := by decide
/-- IO8, IO9. -/
theorem test_write :
    next (exec (.write 0o11#9) { extended with a := 0o40001#16 }) (fun t =>
      chanRead t 0o11 == 1#15 && t.a == 0o40001#16) = true ∧
      next (exec (.write 1#9) { extended with a := 0o40001#16 }) (fun t =>
        t.l == 0o40001#16) = true := by decide
/-- IO21. -/
theorem test_write_downlink :
    next (exec (.write 0o34#9) extended) (fun t => t.downlinkLatch == 1#2) = true ∧
      next (exec (.write 0o35#9) { extended with downlinkLatch := 1#2, cycleCounter := 6 }) (fun t =>
        t.downlinkLatch == 0#2 && t.downruptArmed && t.downruptTime == 1712) = true := by decide
/-- The state of IO12 to IO16. -/
def channelState : State := { chanWrite extended 0o12 0o70707#15 with a := 0o12345#16 }
/-- IO12. -/
theorem test_rand : next (exec (.rand 0o12#9) channelState) (fun t =>
    t.a == 0o10305#16 && chanRead t 0o12 == 0o70707#15) = true := by decide
/-- IO13, IO18. -/
theorem test_wand :
    next (exec (.wand 0o12#9) channelState) (fun t =>
      t.a == 0o10305#16 && chanRead t 0o12 == 0o10305#15) = true ∧
      next (exec (.wand 1#9) { extended with a := 0o140000#16, l := 0o100001#16 }) (fun t =>
        t.a == 0o100000#16 && t.l == 0o100000#16) = true := by decide
/-- IO14. -/
theorem test_ror : next (exec (.ror 0o12#9) channelState) (fun t =>
    t.a == 0o172747#16 && chanRead t 0o12 == 0o70707#15) = true := by decide
/-- IO15. -/
theorem test_wor : next (exec (.wor 0o12#9) channelState) (fun t =>
    t.a == 0o172747#16 && chanRead t 0o12 == 0o72747#15) = true := by decide
/-- IO16, IO20. -/
theorem test_rxor :
    next (exec (.rxor 0o12#9) channelState) (fun t =>
      t.a == 0o162442#16 && chanRead t 0o12 == 0o70707#15) = true ∧
      next (exec (.rxor 1#9) { extended with a := 0o177777#16, l := 0o40000#16 }) (fun t =>
        t.a == 0o137777#16 && t.l == 0o40000#16) = true := by decide

/-! ## Arithmetic, memory and banks -/

/-- The vectors of spec/95 section 2. -/
theorem test_primitives :
    signExtend 0o40000#15 = 0o140000#16 ∧ overflowCorrect 0o137777#16 = 0o77777#15 ∧
      add16 0o177776#16 0o177776#16 = 0o177775#16 ∧ add16 0o100000#16 0o100000#16 = 1#16 ∧
      dabs 0o77775#15 = 1#15 ∧ odabs 0o100003#16 = 0o77773#16 ∧ wordToInt 0o77772#15 = -5 ∧
      intToWord (-16384) = 0o37777#15 ∧ negate15 0o5#15 = 0o77772#15 ∧
      abs15 0o77772#15 = 0o5#15 := by decide
/-- The pairs of spec/95 section 2. -/
theorem test_decent :
    pairToDecent 1#15 0o77776#15 = 0o37777#30 ∧
      decentToPair (pairToDecent 0o77776#15 1#15) = (0o77777#15, 0o40000#15) ∧
      decentToPair (pairToDecent 2#15 0o40000#15) = (1#15, 1#15) := by decide
/-- B1, B2, B3. -/
theorem test_bank_registers :
    let s1 := memWrite base 3#12 0o77777#16
    let s2 := memWrite s1 4#12 0o77777#16
    let s3 := memWrite s2 6#12 0o12345#16
    s1.eb = 0o3400#15 ∧ s1.bb = 7#15 ∧ s2.fb = 0o76000#15 ∧ s2.bb = 0o76007#15 ∧
      s3.eb = 0o2400#15 ∧ s3.fb = 0o12000#15 ∧ s3.bb = 0o12005#15 := by decide
/-- M1, M2. -/
theorem test_erasable_windows :
    memRead (ramWrite { base with eb := 0o400#15 } 1#3 0#8 0o123#15) 0o1400#12 = 0o123#16 ∧
      ramRead (memWrite base 0o1400#12 0o77#16) 0#3 0#8 = 0o77#15 ∧
      (memWrite base 0o1400#12 0o77#16).a = 0#16 := by decide
/-- M3 to M8. -/
theorem test_fixed_windows :
    resolve { base with fb := 0o4000#15 } 0o2007#12 = .rom 2 7#10 ∧
      resolve { base with fb := 0o70000#15 } 0o2005#12 = .rom 0o34 5#10 ∧
      resolve (chanWrite { base with fb := 0o70000#15 } 7 0o100#15) 0o2005#12 = .rom 0o44 5#10 ∧
      resolve (chanWrite { base with fb := 0o60000#15 } 7 0o77677#15) 0o2005#12 = .rom 0o30 5#10 ∧
      resolve (chanWrite { base with fb := 0o50000#15 } 7 0o100#15) 0o2005#12 = .rom 0o24 5#10 := by
  decide
/-- M9, M10. -/
theorem test_register_widths :
    memRead (memWrite base 7#12 0o12345#16) 7#12 = 0#16 ∧
      (memWrite base 5#12 0o77777#16).z = 0o7777#12 := by decide
/-- M11. -/
theorem test_load : next (loadImage State.reset [0x10#8, 0x00#8, 0x60#8, 0x81#8, 0xFF#8]) (fun t =>
    romRead t 2 0#10 == 0o4000#15 && romRead t 2 1#10 == 0o30100#15 && romRead t 2 2#10 == 0#15 &&
      t.ready) = true := by decide

/-! ## Reset -/

/-- R390. -/
theorem test_reset :
    State.reset.z = 0o4000#12 ∧ State.reset.a = 0#16 ∧ chanRead State.reset 0o30 = 0o37777#15 ∧
      chanRead State.reset 0o32 = 0o77777#15 ∧ chanRead State.reset 0o34 = 0#15 ∧
      State.reset.ready = false ∧ refusedAs (step State.reset) .stepBeforeLoad = true := by decide

/-! ## Steps -/

/-- CA 0100 at 04000, as the main program of I1 to I4. -/
def atCa : State := { withFixed base 0#10 0o30100#15 with intEnabled := true }

/-- P1 and CT1: TC 4000 completes in one Step. -/
theorem test_step_runs_tc :
    next (step (withFixed base 0#10 0o4000#15)) (fun t =>
      t.q == 0o4001#16 && t.z == 0o4000#12 && t.cycleCounter == 1) = true ∧
      stepReturns (withFixed base 0#10 0o4000#15) = true := by decide
/-- X2: the first Step charges. -/
theorem test_step_charges_ca :
    next (step atCa) (fun t =>
      t.pendFlag && t.pendDelay == 0 && t.z == 0o4000#12 && t.a == 0#16) = true ∧
      stepReturns atCa = false := by decide
/-- X3: one unit of a DAS in its charge. -/
theorem test_step_consumes_a_unit :
    next (step { atCa with pendFlag := true, pendDelay := 1 }) (fun t =>
      t.pendFlag && t.pendDelay == 0) = true := by decide
/-- SC7: the index overflows and the word becomes XXALQ. -/
theorem test_step_indexes :
    next (step { withFixed base 1#10 0o37777#15 with z := 0o4001#12, indexValue := 1#15 }) (fun t =>
      t.q == 0o4002#16 && t.z == 0#12 && t.indexValue == 0#15) = true := by decide
/-- SC9: after RESUME the word of BRUPT runs, whatever stands at Z. -/
theorem test_step_substitutes :
    next (step { memWrite base 0o17#12 0o30100#16 with substitute := true, pendFlag := true })
      (fun t => t.z == 0o4001#12 && !t.substitute && !t.pendFlag) = true := by decide
/-- I2. -/
theorem test_step_enters_lowest :
    next (step (raiseIrq (raiseIrq atCa 5) 3)) (fun t =>
      t.z == 0o4014#12 && plainReg t 0o15 == 0o4001#15 && plainReg t 0o17 == 0o30100#15 &&
        t.inIsr && !irqPending t 3 && irqPending t 5 && t.irqLast == 3 && t.extraDelay == 1) = true :=
  by decide
/-- I3, I4. -/
theorem test_step_holds_requests :
    next (step { raiseIrq atCa 3 with a := 0o40000#16 }) (fun t => irqPending t 3) = true ∧
      next (step { raiseIrq atCa 3 with inIsr := true }) (fun t => irqPending t 3) = true := by decide
/-- T6: a due downrupt timer raises slot 8 in the head. -/
theorem test_step_raises_downrupt :
    next (step { atCa with inIsr := true, downruptArmed := true, downruptTime := 1712,
                           cycleCounter := 1712 }) (fun t =>
      irqPending t 8 && !t.downruptArmed && t.cycleCounter == 1713) = true := by decide
/-- T5: the pass of Step 854, in which the extra delay it costs is first consumed. -/
theorem test_step_counts_timers :
    next (step { chanWrite (setPlainReg (setPlainReg atCa 0o25 0o37777#15) 0o26 0o37777#15) 4 0o37#15
      with scalerCounter := 77 }) (fun t =>
      plainReg t 0o25 == 0#15 && plainReg t 0o24 == 1#15 && plainReg t 0o26 == 0#15 &&
        irqPending t 3 && t.extraDelay == 2 && chanRead t 4 == 0o40#15) = true := by decide
/-- T7, T8. -/
theorem test_timer_pass_carries :
    let t := timerPass (chanWrite { base with warningFilter := 20 } 4 0o77777#15)
    chanRead t 4 = 0#15 ∧ chanRead t 3 = 1#15 ∧ t.warningFilter = 5 := by decide
/-- I10. -/
theorem test_key_pressed :
    chanRead (keyPressed base 0o21) 0o15 = 0o21#15 ∧ irqPending (keyPressed base 0o21) 5 = true := by
  decide
/-- F8, and the signed view of R365. -/
theorem test_host :
    refusedAs (hostWriteMemory base 0o10000 1) .hostAddressOutOfRange = true ∧
      refusedAs (loadImage base []) .imageAlreadyLoaded = true ∧
      getCycleCounter { base with cycleCounter := 4294967295 } = -1 := by decide

/-! ## Witnesses: states and operands that meet the hypotheses of the statements -/

/-- DecodeOfEncode: well-formed terms next to each excluded field. -/
theorem test_witness_DecodeOfEncode :
    (Instr.tc 0o5#12).wellFormed = true ∧ (Instr.tc 0o7#12).wellFormed = true ∧
      (Instr.tcf 0o2000#12).wellFormed = true ∧ (Instr.bzmf 0o7777#12).wellFormed = true ∧
      (Instr.index 0o16#10).wellFormed = true ∧ (Instr.edrupt 0o777#9).wellFormed = true := by decide

/-- LiteralWordsOfBasicMode, at both ends of its range and around the gap at 5. -/
theorem test_witness_LiteralWordsOfBasicMode :
    (0o7777#15 : W15).toNat < 0o10000 ∧ decode false 0o7777#15 = .tc 0o7777#12 ∧
      decode false 0#15 = .xxalq ∧ decode false 4#15 = .inhint ∧ decode false 5#15 = .tc 5#12 ∧
      decode false 6#15 = .extend ∧ decode false 7#15 = .tc 7#12 := by decide

/-- AdditionLaws: sums of 16383, 0, 16384 and -16384, one for each clause. -/
theorem test_witness_AdditionLaws :
    wordToInt 0o37776#15 + wordToInt 1#15 = 16383 ∧ wordToInt 5#15 + wordToInt 0o77772#15 = 0 ∧
      wordToInt 0o37777#15 + wordToInt 1#15 = 16384 ∧
      wordToInt 0o40000#15 + wordToInt 0o77776#15 = -16384 := by decide

/-- ProductIsExact: the least and the greatest magnitudes. -/
theorem test_witness_ProductIsExact :
    isZero15 1#15 = false ∧ isZero15 0o40000#15 = false ∧
      product 1#15 0o40000#15 = (0o77777#15, 0o40000#15) := by decide

set_option maxRecDepth 8000 in
/-- DivideInRange: (a) a disagreeing pair, and a divisor just above the upper magnitude; (b) the
negative tie beside it, DV18; (c) three zeros, DV15. -/
theorem test_witness_DivideInRange :
    (abs15 (decentToPair (pairToDecent 1#15 0o77776#15)).1).toNat < (abs15 2#15).toNat ∧
      (abs15 (decentToPair (pairToDecent 0o77772#15 0o77777#15)).1).toNat < (abs15 6#15).toNat ∧
      decentToPair (pairToDecent 0o77772#15 0o77777#15) = (0o77772#15, 0o77777#15) ∧
      abs15 0o77772#15 = abs15 5#15 ∧ isZero15 5#15 = false ∧ isZero15 0o77777#15 = true ∧
      divSim 0o177772#16 0o177777#16 5#16 = (0o140000#16, 0o177772#16) ∧
      decentToPair (pairToDecent 0#15 0#15) = (0#15, 0#15) ∧
      divSim 0#16 0#16 0o177777#16 = (0o140000#16, 0#16) := by decide

/-- ReadSeesLastWrite: the ends of the register file and of the erasable windows, with EB = 3; a cell
under two addresses; the last erasable address and the first of fixed memory. -/
theorem test_witness_ReadSeesLastWrite :
    memRead (setPlainReg base 0o60 5#15) 0o60#12 = 5#16 ∧
      memRead (ramWrite { base with eb := 0o1400#15 } 0#3 0o61#8 5#15) 0o61#12 = 5#16 ∧
      memRead (ramWrite { base with eb := 0o1400#15 } 2#3 0o377#8 5#15) 0o1377#12 = 5#16 ∧
      memRead (ramWrite { base with eb := 0o1400#15 } 3#3 0#8 5#15) 0o1400#12 = 5#16 ∧
      memRead (ramWrite { base with eb := 0o1400#15 } 3#3 0o377#8 5#15) 0o1777#12 = 5#16 ∧
      0o60 < (0o61#12 : W12).toNat ∧
      resolve { base with eb := 0o400#15 } 0o1400#12 = resolve base 0o400#12 ∧
      memRead (memWrite { base with eb := 0o400#15 } 0o1400#12 0o123456#16) 0o400#12 = 0o23456#16 ∧
      memRead (memWrite base 0o1777#12 7#16) 0o1777#12 = 7#16 ∧
      memRead (memWrite base 0o2000#12 7#16) 0o2000#12 = 0#16 := by decide

/-- FixedWindows: the ends of the three windows. -/
theorem test_witness_FixedWindows :
    resolve base 0o2000#12 = .rom 0 0#10 ∧ resolve base 0o3777#12 = .rom 0 0o1777#10 ∧
      resolve base 0o4000#12 = .rom 2 0#10 ∧ resolve base 0o5777#12 = .rom 2 0o1777#10 ∧
      resolve base 0o6000#12 = .rom 3 0#10 ∧ resolve base 0o7777#12 = .rom 3 0o1777#10 := by decide

/-- ChannelAccess: each clause at the ends of its range. -/
theorem test_witness_ChannelAccess :
    hostReadIo base (-1) = 0#16 ∧ hostReadIo base 0o1000 = 0#16 ∧ hostReadIo base 0o777 = 0#16 ∧
      hostReadIo { base with l := 0o100001#16 } 1 = 0o100001#16 ∧
      ioWrite base 0o1000 7#16 = base ∧ chanRead (ioWrite base 0o777 7#16) 0o777 = 7#15 ∧
      chanRead (ioWrite base 0 7#16) 0 = 7#15 ∧
      (ioWrite { base with downlinkLatch := 2#2 } 0o34 0#16).downruptArmed = true ∧
      (ioWrite base 0o35 0#16).downlinkLatch = 2#2 := by decide

/-- LoadPlacesImage: a ready state and one that is not; an unpaired last byte. -/
theorem test_witness_LoadPlacesImage :
    base.ready = true ∧ State.reset.ready = false ∧
      next (loadImage State.reset [0o100#8]) (fun t => romRead t 2 0#10 == 0#15) = true := by decide

/-- TcTransfersAndLinks: addresses 1, 2 and 3. -/
theorem test_witness_TcTransfersAndLinks :
    next (exec (.tc 1#12) base) (fun t => t.q == 0o4001#16) = true ∧
      next (exec (.tc 2#12) base) (fun t => t.q == 0#16) = true ∧
      next (exec (.tc 3#12) base) (fun t => t.q == 0o4001#16) = true := by decide

/-- CcsCountsAndSkips: the last 16-bit operand and the first 15-bit one. -/
theorem test_witness_CcsCountsAndSkips :
    (2#10 : W10).toNat ≤ 2 ∧ 2 < (3#10 : W10).toNat ∧
      next (exec (.ccs 2#10) { base with q := 0o100000#16 }) (fun t =>
        t.a == 0o77776#16 && t.z == 0o4003#12) = true ∧
      next (exec (.ccs 3#10) { base with eb := 0o3400#15 }) (fun t =>
        t.a == 0o3377#16 && t.z == 0o4001#12) = true := by decide

/-- ZeroBranches: A at +0, -0, +1, -1 and the overflows is in one clause of each branch. -/
theorem test_witness_ZeroBranches :
    next (exec (.bzf 0o2000#12) extended) (fun t => t.z == 0o2000#12) = true ∧
      next (exec (.bzf 0o2000#12) { extended with a := 1#16 }) (fun t => t.z == 0o4002#12) = true ∧
      next (exec (.bzmf 0o2000#12) { extended with a := 0o177776#16 }) (fun t =>
        t.z == 0o2000#12) = true ∧
      next (exec (.bzmf 0o2000#12) { extended with a := 1#16 }) (fun t =>
        t.extraDelay == 1) = true := by decide

/-- IndexPrefixes: the fields around 017, and the last 16-bit operand. -/
theorem test_witness_IndexPrefixes :
    next (exec (.index 0o16#10) (setPlainReg base 0o16 5#15)) (fun t =>
      t.indexValue == 5#15) = true ∧
      next (exec (.index 0o17#10) (setPlainReg base 0o17 5#15)) (fun t => t.substitute) = true ∧
      next (exec (.index 2#10) { base with q := 0o100001#16 }) (fun t =>
        t.indexValue == 0o40001#15) = true := by decide

/-- EdruptAlwaysEnters: the lowest pending slot is the last one, and the first with others behind. -/
theorem test_witness_EdruptAlwaysEnters :
    (∀ m, 1 ≤ m → m < 10 → irqPending (raiseIrq extended 10) m = false) ∧
      irqPending (raiseIrq extended 10) 10 = true ∧
      next (exec (.edrupt 0#9) (raiseIrq extended 10)) (fun t => t.z == 0o4050#12) = true ∧
      next (exec (.edrupt 0#9) (raiseIrq (raiseIrq extended 10) 1)) (fun t =>
        t.z == 0o4004#12 && irqPending t 10) = true ∧
      (∀ n, 1 ≤ n → n ≤ 10 → irqPending extended n = false) := by
  refine ⟨fun m h1 h2 => ?_, by decide, by decide, by decide, fun n h1 h2 => ?_⟩
  · interval_cases m <;> rfl
  · interval_cases n <;> rfl

/-- DoubleLoads: fields 1, 2 and 3. -/
theorem test_witness_DoubleLoads :
    next (exec (.dca 1#12) { extended with a := 7#16, l := 0o100001#16 }) (fun t =>
      t.a == 7#16 && t.l == 0o140001#16) = true ∧
      next (exec (.dcs 2#12) { extended with q := 5#16 }) (fun t =>
        t.l == 0o177772#16 && t.a == 5#16) = true ∧
      next (exec (.dca 3#12) { extended with q := 0o100001#16, eb := 0o400#15 }) (fun t =>
        t.l == 0o400#16 && t.a == 0o100001#16) = true := by decide

/-- TsStoresAndSkips: TS A, TS Z and the addresses beside them. -/
theorem test_witness_TsStoresAndSkips :
    next (exec (.ts 0#10) { base with a := 0o40001#16 }) (fun t =>
      t.a == 0o40001#16 && t.z == 0o4002#12) = true ∧
      next (exec (.ts 1#10) { base with a := 0o40001#16 }) (fun t =>
        t.l == 0o40001#16 && t.a == 1#16 && t.z == 0o4002#12) = true ∧
      next (exec (.ts 4#10) { base with a := 0o12345#16 }) (fun t => t.fb == 0o12000#15) = true ∧
      next (exec (.ts 6#10) { base with a := 0o12005#16 }) (fun t => t.eb == 0o2400#15) = true := by
  decide

/-- Exchanges: the own address of each register, and an exchange with Z. -/
theorem test_witness_Exchanges :
    next (exec (.xch 0#10) { base with a := 5#16 }) (fun t => t.a == 5#16) = true ∧
      next (exec (.lxch 1#10) { base with l := 5#16 }) (fun t => t.l == 5#16) = true ∧
      next (exec (.qxch 2#10) { extended with q := 5#16 }) (fun t => t.q == 5#16) = true ∧
      next (exec (.xch 5#10) { base with a := 0o100#16 }) (fun t =>
        t.z == 0o100#12 && t.a == 0o4001#16) = true := by decide

/-- DxchExchangesPair: fields 1, 2, 5 and the first pair in memory, 061 and 062. -/
theorem test_witness_DxchExchangesPair :
    next (exec (.dxch 1#10) { base with a := 3#16, l := 0o100001#16 }) (fun t =>
      t.a == 3#16 && t.l == 0o140001#16) = true ∧
      next (exec (.dxch 2#10) { base with a := 1#16, l := 2#16, q := 3#16 }) (fun t =>
        t.a == 3#16 && t.l == 1#16 && t.q == 2#16) = true ∧
      next (exec (.dxch 5#10) { base with a := 0o12000#16, l := 0o4100#16 }) (fun t =>
        t.fb == 0o12000#15 && t.z == 0o4100#12 && t.l == 0o4001#16 && t.a == 0#16) = true ∧
      next (exec (.dxch 0o62#10) { base with a := 1#16, l := 2#16 }) (fun t =>
        memRead t 0o61#12 == 1#16 && memRead t 0o62#12 == 2#16) = true := by decide

/-- StorageSums: a location other than Z, and Z, which INCR makes skip. -/
theorem test_witness_StorageSums :
    next (exec (.ads 0o100#10) base) (fun t => t.z == 0o4001#12) = true ∧
      next (exec (.incr 5#10) base) (fun t => t.z == 0o4002#12) = true := by decide

/-- DasStoresSums: field 2, where the stores follow the zeroing of L, and the first pair in memory. -/
theorem test_witness_DasStoresSums :
    next (exec (.das 2#10) { base with a := 1#16, l := 2#16, q := 3#16 }) (fun t =>
      t.a == 0#16 && t.l == 3#16 && t.q == 5#16) = true ∧
      next (exec (.das 0o62#10) { base with a := 1#16, l := 2#16 }) (fun t =>
        memRead t 0o61#12 == 1#16 && memRead t 0o62#12 == 2#16) = true := by decide

/-- DasAddsDoublePrecision: A and L without overflow, the first field. -/
theorem test_witness_DasAddsDoublePrecision :
    0o61 < (0o62#10 : W10).toNat ∧ { base with a := 0o140000#16 }.a = signExtend 0o40000#15 ∧
      base.l = signExtend 0#15 := by decide

/-- MpMultiplies: its three cases. -/
theorem test_witness_MpMultiplies :
    next (exec (.mp 7#12) { extended with a := 5#16 }) (fun t => t.a == 0#16 && t.l == 0#16) = true ∧
      next (exec (.mp 1#12) { extended with l := 0o177776#16 }) (fun t =>
        t.a == 0o177777#16 && t.l == 0o177777#16) = true ∧
      next (exec (.mp 1#12) { extended with a := 1#16, l := 0o177776#16 }) (fun t =>
        t.a == 0o177777#16 && t.l == 0o177776#16) = true := by decide

set_option maxRecDepth 8000 in
/-- DvDivides: the last refused field and the first divisor. -/
theorem test_witness_DvDivides :
    refusedAs (exec (.dv 1#10) extended) .dvDivisorInDividend = true ∧
      next (exec (.dv 2#10) { extended with l := 0o21#16, q := 5#16 }) (fun t =>
        t.a == 3#16 && t.l == 2#16) = true := by decide

/-- ChannelInputs: channels 0 and 2, outside and among the two registers. -/
theorem test_witness_ChannelInputs :
    next (exec (.read 0#9) { extended with a := 5#16 }) (fun t => t.a == 0#16) = true ∧
      next (exec (.read 2#9) { extended with q := 0o100000#16 }) (fun t =>
        t.a == 0o100000#16) = true := by decide

/-- ChannelOutputs: channels 3 and 2, outside and among the two registers. -/
theorem test_witness_ChannelOutputs :
    next (exec (.write 3#9) { extended with a := 0o100001#16 }) (fun t =>
        chanRead t 3 == 0o40001#15) = true ∧
      next (exec (.wor 2#9) { extended with a := 0o40000#16, q := 1#16 }) (fun t =>
        t.a == 0o40001#16 && t.q == 0o40001#16) = true := by decide

/-! ### Steps and interrupts -/

/-- `atCa` charged. -/
def atCaCharged : State := { atCa with pendFlag := true }

/-- EDRUPT at 04001 in extracode mode. -/
def atEdrupt : State := withFixed extended 1#10 0o7000#15

/-- StepRunsDecodedInstruction: a charged CA, a TC of one cycle with a request held off, an EDRUPT. -/
theorem test_witness_StepRunsDecodedInstruction :
    consumeDelay (stepHead atCaCharged) = none ∧ (runTimers (stepHead atCaCharged)).extraDelay = 0 ∧
      decodedInstr (runTimers (stepHead atCaCharged)) = .ca 0o100#12 ∧
      (runTimers (stepHead atCaCharged)).pendFlag = true ∧
      (let s := raiseIrq (withFixed base 0#10 0o4000#15) 3
       let s1 := runTimers (stepHead s)
       consumeDelay (stepHead s) = none ∧ s1.extraDelay = 0 ∧ s1.pendFlag = false ∧
          decodedInstr s1 = .tc 0o4000#12 ∧ firstPending s1 = some 3 ∧
          eligible s1 (effectiveWord s1) = false) ∧
      (let s1 := runTimers (stepHead atEdrupt)
       consumeDelay (stepHead atEdrupt) = none ∧ s1.extraDelay = 0 ∧
          decodedInstr s1 = .edrupt 0#9) := by decide

/-- StepChargesMultiCycle: a CA, nothing pending. -/
theorem test_witness_StepChargesMultiCycle :
    let s1 := runTimers (stepHead atCa)
    atCa.ready = true ∧ consumeDelay (stepHead atCa) = none ∧ s1.extraDelay = 0 ∧
      s1.pendFlag = false ∧ 1 < config.mct (decodedInstr s1) ∧ decodedInstr s1 = .ca 0o100#12 ∧
      firstPending s1 = none := by decide

/-- StepConsumesOneDelay: each clause. -/
theorem test_witness_StepConsumesOneDelay :
    next (step { atCaCharged with extraDelay := 1, pendDelay := 1 }) (fun t =>
      t.extraDelay == 0 && t.pendDelay == 1) = true ∧
      next (step { atCaCharged with pendDelay := 1 }) (fun t => t.pendDelay == 0) = true ∧
      consumeDelay (stepHead atCaCharged) = none ∧
      (let s := { chanWrite atCaCharged 4 0o17#15 with scalerCounter := 77 }
       consumeDelay (stepHead s) = none ∧ (runTimers (stepHead s)).extraDelay = 1 ∧
        next (step s) (fun t => t.extraDelay == 0 && t.pendFlag && plainReg t 0o30 == 1#15) = true ∧
        stepReturns s = false) := by decide

/-- StepCountsCycles: a timer due now, and one due a cycle later. -/
theorem test_witness_StepCountsCycles :
    irqPending (stepHead { base with downruptArmed := true }) 8 = true ∧
      (stepHead { base with downruptArmed := true, downruptTime := 1 }).downruptArmed = true := by
  decide

/-- StepEntersLowestRequest: every condition of eligibility, slots 3 and 5 pending. -/
theorem test_witness_StepEntersLowestRequest :
    let s := raiseIrq (raiseIrq atCa 5) 3
    let s1 := runTimers (stepHead s)
    s.ready = true ∧ consumeDelay (stepHead s) = none ∧ s1.extraDelay = 0 ∧
      decodedInstr s1 = .ca 0o100#12 ∧ s1.pendFlag = false ∧ s1.intEnabled = true ∧
      s1.inIsr = false ∧ s1.extracode = false ∧ s1.a.getLsbD 15 = s1.a.getLsbD 14 ∧
      effectiveWord s1 = 0o30100#15 ∧ s1.indexValue = 0#15 ∧ irqPending s1 1 = false ∧
      irqPending s1 2 = false ∧ irqPending s1 3 = true := by decide

/-- I6, and RELINT and EXTEND: a protected word runs with a request pending and interrupts enabled. -/
theorem test_protected_words_are_not_interrupted :
    let at04000 (w : W15) : State := { raiseIrq (withFixed base 0#10 w) 3 with intEnabled := true }
    next (step (at04000 3#15)) (fun t => t.z == 0o4001#12 && irqPending t 3) = true ∧
      next (step (at04000 4#15)) (fun t => !t.intEnabled && irqPending t 3) = true ∧
      next (step (at04000 6#15)) (fun t => t.extracode && irqPending t 3) = true := by decide

/-- InterruptsAreHeldOff: a Step that enters. -/
theorem test_witness_InterruptsAreHeldOff :
    planStep (raiseIrq atCa 3) =
      .enter (saveInterrupted (takeRequest (runTimers (stepHead (raiseIrq atCa 3))) 3) 0o4000#12
        0o30100#15) := by decide

/-- ResumeUndoesEntry: the state of the entry itself. -/
theorem test_witness_ResumeUndoesEntry :
    let u := saveInterrupted base 0o4000#12 0o30100#15
    plainReg u 0o15 = 0o4001#15 ∧ plainReg u 0o17 = 0o30100#15 ∧
      next (exec .resume u) (fun t =>
        t.z == 0o4000#12 && decide (decodedInstr t = .ca 0o100#12)) = true := by decide

/-- StepKeepsFixedMemory: a Step that runs an instruction and keeps the image. -/
theorem test_witness_StepKeepsFixedMemory :
    next (step atCaCharged) (fun t => t.rom == atCaCharged.rom && t.z == 0o4001#12) = true := by
  decide

/-- WaitingStepKeepsRegisters: a Step that waits. -/
theorem test_witness_WaitingStepKeepsRegisters :
    next (step atCa) (fun _ => true) = true ∧ stepReturns atCa = false := by decide

/-- RequestsStayPending: a request that stays, and one that is entered. -/
theorem test_witness_RequestsStayPending :
    next (step (raiseIrq (raiseIrq atCa 5) 3)) (fun t =>
      irqPending t 5 && !irqPending t 3 && t.irqLast == 3) = true := by decide

/-- InterruptFlagWriters: each flag changed, in each direction. -/
theorem test_witness_InterruptFlagWriters :
    next (step (withFixed base 0#10 3#15)) (fun t => t.intEnabled) = true ∧
      next (step { withFixed base 0#10 0o50017#15 with inIsr := true, pendFlag := true }) (fun t =>
        !t.inIsr) = true ∧
      next (step (raiseIrq atCa 3)) (fun t => t.inIsr) = true ∧
      next (step atEdrupt) (fun t => t.inIsr) = true := by decide

/-- StepRefusesOnlyListedCases: a state before the load, and a refused instruction at its second
fetch. -/
theorem test_witness_StepRefusesOnlyListedCases :
    State.reset.ready = false ∧
    refusedAs (step { withFixed base 0#10 0o52000#15 with pendFlag := true }) .dxchFieldZero = true ∧
      refusedAs (step { withFixed extended 1#10 0o10001#15 with pendFlag := true })
        .dvDivisorInDividend = true := by decide

/-! ### Timers and the invariant -/

/-- TenMillisecondPhase: with TIME1 and TIME3 before their overflow, and at -0. -/
theorem test_witness_TenMillisecondPhase :
    let t := timerPass (chanWrite (setPlainReg base 0o25 0o77777#15) 4 0o37#15)
    chanRead t 4 &&& config.phaseMask = config.phaseT1T3 ∧ plainReg t 0o25 = 1#15 ∧
      t.extraDelay = 2 := by decide

/-- OffsetPhases: the phases of TIME5 and TIME4, and none. -/
theorem test_witness_OffsetPhases :
    chanRead (timerPass (chanWrite base 4 0o17#15)) 4 &&& config.phaseMask = config.phaseT5 ∧
      irqPending (timerPass (chanWrite (setPlainReg base 0o30 0o37777#15) 4 0o17#15)) 2 = true ∧
      chanRead (timerPass (chanWrite base 4 0o27#15)) 4 &&& config.phaseMask = config.phaseT4 ∧
      irqPending (timerPass (chanWrite (setPlainReg base 0o27 0o37777#15) 4 0o27#15)) 4 = true ∧
      (timerPass base).extraDelay = 0 := by decide

/-- ScalerAndWarningFilter: the last count before the carry, a charge, a discharge, a quiet pass. -/
theorem test_witness_ScalerAndWarningFilter :
    (chanRead (chanWrite base 4 0o77777#15) 4).toNat + 1 = config.scalerLoModulus ∧
      (timerPass (chanWrite { base with warningGenerated := true } 4 7#15)).warningFilter = 15000 ∧
      (timerPass (chanWrite { base with warningFilter := 20 } 4 7#15)).warningFilter = 5 ∧
      (timerPass { base with warningFilter := 20 }).warningFilter = 20 := by decide

/-- `atCa` meets the invariant. -/
theorem test_atCa_consistent : Consistent atCa :=
  ⟨by decide, by decide, by decide, by decide, by decide, by decide, by decide, by decide,
    by decide, by decide, by decide, by decide⟩

/-- StepKeepsConsistent: a consistent state whose Step gives a next state. -/
theorem test_witness_StepKeepsConsistent :
    Consistent atCa ∧ next (step atCa) (fun _ => true) = true := ⟨test_atCa_consistent, by decide⟩

/-- HostKeepsConsistent: a consistent state in which a host operation gives a next state. -/
theorem test_witness_HostKeepsConsistent :
    Consistent atCa ∧ HostOp.writeMemory 6 0o12345 ≠ .step ∧
      next (hostDo atCa (.writeMemory 6 0o12345)) (fun t => t.eb == 0o2400#15) = true :=
  ⟨test_atCa_consistent, by decide, by decide⟩

/-- HostOperations: the last address in range and the first out of it. -/
theorem test_witness_HostOperations :
    next (hostWriteMemory base 0o7777 1) (fun t => t == base) = true ∧
      refusedAs (hostWriteMemory base 0o10000 1) .hostAddressOutOfRange = true := by decide

end Sys2Proof.Tests
end

/-! SUPPORT. The invariant of the machine under the operations that instructions and Steps share: one
lemma for each operation (spec/10_state.md R25 to R27, R38, R39, R46, R49). -/

namespace Sys2Proof.Machine

/-! ## States that agree on what the invariant speaks of -/

/-- The invariant is about eleven fields, and an index beside a substitution: a state that agrees with
a consistent one on the fields needs only the last clause. -/
theorem Consistent.of_agree {s t : State} (h : Consistent s)
    (hindex : t.substitute = true → t.indexValue = 0#15)
    (hram : t.ram = s.ram := by rfl) (hrom : t.rom = s.rom := by rfl)
    (hchan : t.chan = s.chan := by rfl) (heb : t.eb = s.eb := by rfl)
    (hfb : t.fb = s.fb := by rfl) (hbb : t.bb = s.bb := by rfl)
    (hflag : t.pendFlag = s.pendFlag := by rfl) (hdelay : t.pendDelay = s.pendDelay := by rfl)
    (hlast : t.irqLast = s.irqLast := by rfl)
    (hlatch : t.downlinkLatch = s.downlinkLatch := by rfl)
    (hfilter : t.warningFilter = s.warningFilter := by rfl) : Consistent t where
  ram := hram ▸ h.ram
  rom := hrom ▸ h.rom
  chan := hchan ▸ h.chan
  eb := heb ▸ h.eb
  fb := hfb ▸ h.fb
  bb := by rw [hbb, hfb, heb, h.bb]
  idle := by rw [hflag, hdelay]; exact h.idle
  pendDelay := hdelay ▸ h.pendDelay
  irqLast := hlast ▸ h.irqLast
  downlinkLatch := hlatch ▸ h.downlinkLatch
  warningFilter := hfilter ▸ h.warningFilter
  substitute := hindex

theorem beginExecute_consistent {s : State} (h : Consistent s) : Consistent (beginExecute s) :=
  h.of_agree (fun _ => rfl)

/-- A, L, Q and Z hold any value. -/
theorem registers_consistent {s : State} (h : Consistent s) (a l q : W16) (z : W12) :
    Consistent { s with a := a, l := l, q := q, z := z } := h.of_agree h.substitute

theorem extraDelay_consistent {s : State} (h : Consistent s) (n : Nat) :
    Consistent { s with extraDelay := n } := h.of_agree h.substitute

/-! ## The bank registers -/

/-- FB is the high part of BB (R27). -/
theorem Consistent.bb_high {s : State} (h : Consistent s) : s.bb &&& 0o76000#15 = s.fb := by
  rw [h.bb, h.fb, h.eb]
  exact BitVec.eq_of_getElem_eq fun i hi => by interval_cases i <;> simp

/-- EB is the low part of BB (R27). -/
theorem Consistent.bb_low {s : State} (h : Consistent s) :
    s.bb &&& 0o00007#15 = s.eb >>> 8 := by
  rw [h.bb, h.fb, h.eb]
  exact BitVec.eq_of_getElem_eq fun i hi => by interval_cases i <;> simp

theorem writeEB_consistent {s : State} (h : Consistent s) (v : W15) : Consistent (writeEB s v) :=
  { h with
    eb := by simp [BitVec.and_assoc]
    bb := by rw [writeEB_bb, writeEB_fb, writeEB_eb, h.bb_high] }

theorem writeFB_consistent {s : State} (h : Consistent s) (v : W15) : Consistent (writeFB s v) :=
  { h with
    fb := by simp [BitVec.and_assoc]
    bb := by rw [writeFB_bb, writeFB_fb, writeFB_eb, h.bb_low, BitVec.or_comm] }

theorem writeBB_consistent {s : State} (h : Consistent s) (v : W15) : Consistent (writeBB s v) :=
  { h with
    eb := by
      rw [writeBB_eb]
      exact BitVec.eq_of_getElem_eq fun i hi => by interval_cases i <;> simp
    fb := by simp [BitVec.and_assoc]
    bb := by
      rw [writeBB_bb, writeBB_fb, writeBB_eb]
      exact BitVec.eq_of_getElem_eq fun i hi => by interval_cases i <;> simp }

/-! ## Stores -/

theorem fileWrite_consistent {s : State} (h : Consistent s) (k : Nat) (v : W15) :
    Consistent (fileWrite s k v) := h.of_agree h.substitute

theorem writeReg_consistent {s : State} (h : Consistent s) (n : Nat) (v : W16) :
    Consistent (writeReg s n v) := by
  match n with
  | 0 | 1 | 2 | 5 => exact registers_consistent h _ _ _ _
  | 3 => exact writeEB_consistent h _
  | 4 => exact writeFB_consistent h _
  | 6 => exact writeBB_consistent h _
  | 7 => exact h
  | k + 8 => exact fileWrite_consistent h k _

theorem ramWrite_consistent {s : State} (h : Consistent s) (b : BitVec 3) (o : BitVec 8)
    (v : W15) : Consistent (ramWrite s b o v) := { h with ram := ramWrite_wf b o v h.ram }

theorem writePlace_consistent {s : State} (h : Consistent s) (p : Place) (v : W16) :
    Consistent (writePlace s p v) := by
  cases p with
  | reg n => exact writeReg_consistent h n v
  | ram b o => exact ramWrite_consistent h b o _
  | rom b o => exact h

/-- `MemWrite` keeps the invariant. -/
theorem memWrite_consistent {s : State} (h : Consistent s) (d : W12) (v : W16) :
    Consistent (memWrite s d v) := writePlace_consistent h _ v

/-- `Wr16` keeps the invariant. -/
theorem wr16_consistent {s : State} (h : Consistent s) (d : W12) (v : W16) :
    Consistent (wr16 s d v) := by
  unfold wr16
  split
  · exact memWrite_consistent h d v
  · exact memWrite_consistent h d _

/-! ## Channels -/

theorem chanWrite_consistent {s : State} (h : Consistent s) {c : Nat} (hc : c < chanSize)
    (v : W15) : Consistent (chanWrite s c v) := { h with chan := chanWrite_wf v hc h.chan }

/-- The latch never keeps both of its bits (R84). -/
theorem latchDownlink_consistent {s : State} (h : Consistent s) (c : Nat) :
    Consistent (latchDownlink s c) := by
  simp only [latchDownlink]
  split
  · exact { h with downlinkLatch := (by decide : 0#2 ≠ 3#2) }
  next hboth => exact { h with downlinkLatch := hboth }

/-- `IoWrite` keeps the invariant. -/
theorem ioWrite_consistent {s : State} (h : Consistent s) (c : Nat) (v : W16) :
    Consistent (ioWrite s c v) := by
  unfold ioWrite
  split_ifs with hout hl hq hdown
  · exact h
  · exact registers_consistent h _ _ _ _
  · exact registers_consistent h _ _ _ _
  · exact latchDownlink_consistent (chanWrite_consistent h (by omega) _) c
  · exact chanWrite_consistent h (by omega) _

theorem channelStore_consistent {s : State} (h : Consistent s) (k : W9) (v : W16) :
    Consistent (channelStore s k v) := by
  unfold channelStore
  split
  · exact ioWrite_consistent h _ v
  · exact ioWrite_consistent h _ _

/-! ## Interrupt entry and return -/

theorem setIrq_consistent {s : State} (h : Consistent s) (n : Nat) (b : Bool) :
    Consistent (setIrq s n b) := by
  cases n with
  | zero => exact h
  | succ k => exact h.of_agree h.substitute

theorem takeRequest_consistent {s : State} (h : Consistent s) {n : Nat} (hn : n ≤ 10) :
    Consistent (takeRequest s n) := { setIrq_consistent h n false with irqLast := hn }

theorem saveInterrupted_consistent {s : State} (h : Consistent s) (pc0 : W12) (iw : W15) :
    Consistent (saveInterrupted s pc0 iw) := h.of_agree (fun _ => rfl)

theorem returnFromInterrupt_consistent {s : State} (h : Consistent s) (hi : s.indexValue = 0#15) :
    Consistent (returnFromInterrupt s) := h.of_agree (fun _ => hi)

/-- What an interrupt entry in place of an instruction is: the request of a slot taken, and the
interrupted instruction saved (R336). -/
theorem tryVector_eq_some {s t : State} {pc0 : W12} {iw : W15} (h : tryVector s pc0 iw = some t) :
    ∃ n, firstPending s = some n ∧ t = saveInterrupted (takeRequest s n) pc0 iw := by
  unfold tryVector at h
  split at h
  next n hn => exact ⟨n, hn, (Option.some.inj h).symm⟩
  next => cases h

theorem tryVector_consistent {s t : State} {pc0 : W12} {iw : W15} (h : Consistent s)
    (ht : tryVector s pc0 iw = some t) : Consistent t := by
  obtain ⟨n, hn, rfl⟩ := tryVector_eq_some ht
  obtain ⟨-, hle, -⟩ := (firstPending_eq_some s n).1 hn
  exact saveInterrupted_consistent (takeRequest_consistent h hle) pc0 iw

theorem vectorEdrupt_consistent {s : State} (h : Consistent s) (pc0 : W12) (iw : W15) :
    Consistent (vectorEdrupt s pc0 iw) := by
  unfold vectorEdrupt
  split
  next n hn =>
    obtain ⟨-, hle, -⟩ := (firstPending_eq_some s n).1 hn
    exact saveInterrupted_consistent (takeRequest_consistent h hle) pc0 iw
  next => exact saveInterrupted_consistent (registers_consistent h _ _ _ _) pc0 iw

/-! ## The timers -/

/-- The timers keep the invariant if they keep the channel array canonical and the warning filter in
its range: nothing else they change is in it. -/
theorem TimerFrame.consistent {s t : State} (hf : TimerFrame s t) (h : Consistent s)
    (hchan : Memory.wf config.ioReset chanSize t.chan = true)
    (hfilter : t.warningFilter ≤ config.wfMax) : Consistent t := by
  rw [hf.fields]
  exact { h with chan := hchan, warningFilter := hfilter }

theorem scalerTick_consistent {s : State} (h : Consistent s) : Consistent (scalerTick s) := by
  simp only [scalerTick]
  split
  · exact chanWrite_consistent (chanWrite_consistent h (by decide) _) (by decide) _
  · exact chanWrite_consistent h (by decide) _

theorem setFilter_consistent {s : State} (h : Consistent s) {filter : Nat} (generated : Bool)
    (hf : filter ≤ config.wfMax) :
    Consistent { s with warningGenerated := generated, warningFilter := filter } :=
  { h with warningFilter := hf }

/-- The charge stops at `WF_MAX`, the discharge at 0 (R351). -/
theorem warningFilterUpdate_consistent {s : State} (h : Consistent s) :
    Consistent (warningFilterUpdate s) := by
  unfold warningFilterUpdate
  split
  · exact setFilter_consistent h _ (Nat.min_le_right _ _)
  · exact setFilter_consistent h _ ((Nat.sub_le _ _).trans h.warningFilter)

theorem phaseActions_consistent {s : State} (h : Consistent s) (sc : W15) :
    Consistent (phaseActions s sc) := by
  have hq := phaseActions_quiet s sc
  have hu : Consistent (if sc &&& config.wfPeriodMask = 0#15 then warningFilterUpdate s else s) := by
    split
    · exact warningFilterUpdate_consistent h
    · exact h
  exact (phaseActions_frame s sc).consistent h (hq.chan ▸ hu.chan)
    (hq.filter ▸ hu.warningFilter)

theorem timerPass_consistent {s : State} (h : Consistent s) : Consistent (timerPass s) :=
  phaseActions_consistent (scalerTick_consistent h) _

theorem scalerCounter_consistent {s : State} (h : Consistent s) (c : Nat) :
    Consistent { s with scalerCounter := c } := h.of_agree h.substitute

theorem timerLoop_consistent {s : State} (h : Consistent s) (n : Nat) :
    Consistent (timerLoop n s) := by
  induction n generalizing s with
  | zero => exact h
  | succ n ih =>
    simp only [timerLoop]
    split
    · exact ih (timerPass_consistent (scalerCounter_consistent h _))
    · exact h

theorem runTimers_consistent {s : State} (h : Consistent s) : Consistent (runTimers s) :=
  timerLoop_consistent h _

theorem stepHead_consistent {s : State} (h : Consistent s) : Consistent (stepHead s) := by
  rw [stepHead_fields s]
  exact h.of_agree h.substitute

end Sys2Proof.Machine

/-! SUPPORT. What an instruction can do, said once: the inversion of `exec`. Every invariant of the
instructions is a case analysis of `ExecCase`, not of the 42 meanings. -/

namespace Sys2Proof.Machine

/-- The effect of an instruction on data and control: the four writes of R170, and after them writes
of A, L, Q and Z, 16-bit stores, channel stores and extra delay, in any number and order. -/
inductive DataEffect (s : State) : State → Prop
  | begin : DataEffect s (beginExecute s)
  | registers {t : State} (h : DataEffect s t) (a l q : W16) (z : W12) :
      DataEffect s { t with a := a, l := l, q := q, z := z }
  | store {t : State} (h : DataEffect s t) (d : W12) (v : W16) : DataEffect s (wr16 t d v)
  | channel {t : State} (h : DataEffect s t) (k9 : W9) (v : W16) :
      DataEffect s (channelStore t k9 v)
  | delay {t : State} (h : DataEffect s t) (n : Nat) : DataEffect s { t with extraDelay := n }

/-- What the next state of an instruction can be: a data effect; or, for the instructions of sequence
control, the four writes and one of the flags of the engine (R210 to R216). -/
inductive ExecCase (s : State) : Instr → State → Prop
  | data {i : Instr} {t : State} (h : DataEffect s t) : ExecCase s i t
  | relint : ExecCase s .relint { beginExecute s with intEnabled := true }
  | inhint : ExecCase s .inhint { beginExecute s with intEnabled := false }
  | extend : ExecCase s .extend { beginExecute s with extracode := true }
  | index (k10 : W10) (v : W15) : ExecCase s (.index k10) { beginExecute s with indexValue := v }
  | indexTwo (k12 : W12) (v : W15) :
      ExecCase s (.indexTwo k12) { beginExecute s with indexValue := v, extracode := true }
  | resume : ExecCase s .resume (returnFromInterrupt (beginExecute s))
  | indexBrupt (k10 : W10) (h : k10.toNat = 0o17) :
      ExecCase s (.index k10) (returnFromInterrupt (beginExecute s))
  | edrupt (k9 : W9) : ExecCase s (.edrupt k9) (vectorEdrupt s s.z (encode (.edrupt k9)))

/-! ## Data effects of the shared operations -/

theorem DataEffect.skip {s t : State} (h : DataEffect s t) (k : Nat) :
    DataEffect s (skipWords t k) := h.registers _ _ _ _

theorem DataEffect.link {s t : State} (h : DataEffect s t) (k12 : W12) :
    DataEffect s (transferLink t k12) := by
  unfold transferLink
  split <;> exact h.registers _ _ _ _

theorem DataEffect.branch {s t : State} (h : DataEffect s t) (taken : Bool) (k12 : W12) :
    DataEffect s (branchOrDelay t taken k12) := by
  unfold branchOrDelay
  split
  · exact h.registers _ _ _ _
  · exact h.delay _

theorem DataEffect.swapA {s t : State} (h : DataEffect s t) (d : W12) :
    DataEffect s (exchangeA t d) := (h.store d t.a).registers _ _ _ _

theorem DataEffect.swapL {s t : State} (h : DataEffect s t) (d : W12) :
    DataEffect s (exchangeL t d) := (h.store d t.l).registers _ _ _ _

theorem DataEffect.swapQ {s t : State} (h : DataEffect s t) (d : W12) :
    DataEffect s (exchangeQ t d) := (h.store d t.q).registers _ _ _ _

theorem DataEffect.combined {s t : State} (h : DataEffect s t) (k9 : W9) (v : W16) :
    DataEffect s (writeCombined t k9 v) := (h.registers v _ _ _).channel k9 v

/-! ## The inversion -/

/-- Whatever the instruction, its next state is one of the cases. -/
theorem exec_case {i : Instr} {s t : State} (h : exec i s = .next t) : ExecCase s i t := by
  have hb := DataEffect.begin (s := s)
  cases i with
  | relint => cases h; exact .relint
  | inhint => cases h; exact .inhint
  | extend => cases h; exact .extend
  | resume => cases h; exact .resume
  | edrupt k9 => cases h; exact .edrupt k9
  | indexTwo k12 => cases h; exact .indexTwo k12 _
  | index k10 =>
    simp only [exec, execIndex] at h
    split at h
    next hk => cases h; exact .indexBrupt k10 hk
    next => cases h; exact .index k10 _
  | xxalq | xlq | ret | tc _ => cases h; exact .data (hb.link _)
  | tcf _ | ca _ | cs _ | ad _ | mp _ | read _ | rand _ | ror _ | rxor _ | msu _ =>
    cases h; exact .data (hb.registers _ _ _ _)
  | bzf _ | bzmf _ => cases h; exact .data (hb.branch _ _)
  | aug _ | dim _ | su _ => cases h; exact .data hb
  | incr _ => cases h; exact .data (hb.store _ _)
  | write _ => cases h; exact .data (hb.channel _ _)
  | wand _ | wor _ => cases h; exact .data (hb.combined _ _)
  | ccs k10 =>
    simp only [exec, execCcs] at h
    split at h <;> cases h <;> exact .data ((hb.registers _ _ _ _).skip _)
  | mask k12 =>
    simp only [exec, execMask] at h
    split at h <;> cases h <;> exact .data (hb.registers _ _ _ _)
  | dca k12 =>
    simp only [exec, execDca] at h
    split_ifs at h <;> cases h <;> exact .data (hb.registers _ _ _ _)
  | dcs k12 =>
    simp only [exec, execDcs] at h
    split_ifs at h <;> cases h <;> exact .data (hb.registers _ _ _ _)
  | dv k10 =>
    simp only [exec, execDv] at h
    split at h <;> cases h
    exact .data (hb.registers _ _ _ _)
  | xch k10 =>
    simp only [exec, execXch] at h
    split at h <;> cases h
    · exact .data hb
    · exact .data (hb.swapA _)
  | lxch k10 =>
    simp only [exec, execLxch] at h
    split at h <;> cases h
    · exact .data hb
    · exact .data (hb.swapL _)
  | qxch k10 =>
    simp only [exec, execQxch] at h
    split at h <;> cases h
    · exact .data hb
    · exact .data (hb.swapQ _)
  | dxch k10 =>
    simp only [exec, execDxch] at h
    split_ifs at h <;> cases h
    · exact .data (hb.registers _ _ _ _)
    · exact .data ((hb.swapL _).swapA _)
  | ads k10 =>
    simp only [exec, execAds] at h
    split at h <;> cases h
    · exact .data (hb.registers _ _ _ _)
    · exact .data ((hb.registers _ _ _ _).store _ _)
  | das k10 =>
    simp only [exec, execDas] at h
    split_ifs at h <;> cases h
    · exact .data (hb.registers _ _ _ _)
    · exact .data (((hb.registers _ _ _ _).store _ _).store _ _)
  | ts k10 =>
    simp only [exec, execTs] at h
    split_ifs at h <;> cases h
    · exact .data (hb.skip 1)
    · exact .data hb
    · exact .data (hb.registers _ _ _ _)
    · exact .data (hb.registers _ _ _ _)
    · exact .data (((hb.store _ _).registers _ _ _ _).skip 1)
    · exact .data (hb.store _ _)

/-! ## What an instruction keeps -/

theorem DataEffect.flags {s t : State} (h : DataEffect s t) :
    t.intEnabled = s.intEnabled ∧ t.inIsr = s.inIsr := by
  induction h with
  | begin => exact ⟨rfl, rfl⟩
  | registers _ _ _ _ _ ih => exact ih
  | store _ d v ih => simpa using ih
  | channel _ k9 v ih => simpa using ih
  | delay _ _ ih => exact ih

theorem DataEffect.consistent {s t : State} (h : DataEffect s t) (hs : Consistent s) :
    Consistent t := by
  induction h with
  | begin => exact beginExecute_consistent hs
  | registers _ a l q z ih => exact registers_consistent ih a l q z
  | store _ d v ih => exact wr16_consistent ih d v
  | channel _ k9 v ih => exact channelStore_consistent ih k9 v
  | delay _ n ih => exact extraDelay_consistent ih n

/-- Every instruction keeps the invariant. -/
theorem exec_consistent {i : Instr} {s t : State} (hs : Consistent s) (h : exec i s = .next t) :
    Consistent t := by
  have hb := beginExecute_consistent hs
  have hno : (beginExecute s).substitute ≠ true := Bool.false_ne_true
  cases exec_case h with
  | data hd => exact hd.consistent hs
  | relint | inhint | extend => exact hb.of_agree (absurd · hno)
  | index _ _ | indexTwo _ _ => exact hb.of_agree (absurd · hno)
  | resume | indexBrupt _ _ => exact returnFromInterrupt_consistent hb rfl
  | edrupt k9 => exact vectorEdrupt_consistent hs _ _

/-- Only RELINT and INHINT change the interrupt-enable flag (R44). -/
theorem exec_intEnabled {i : Instr} {s t : State} (h : exec i s = .next t) :
    t.intEnabled = s.intEnabled ∨ i = .relint ∨ i = .inhint := by
  cases exec_case h with
  | data hd => exact .inl hd.flags.1
  | relint => exact .inr (.inl rfl)
  | inhint => exact .inr (.inr rfl)
  | extend | index _ _ | indexTwo _ _ | resume | indexBrupt _ _ => exact .inl rfl
  | edrupt k9 =>
    left
    unfold vectorEdrupt
    split <;> simp

/-- RESUME, and INDEX of BRUPT, which is RESUME (R108), clear the service flag; EDRUPT sets it; no
other instruction changes it (R45). -/
theorem exec_inIsr {i : Instr} {s t : State} (h : exec i s = .next t) :
    t.inIsr = s.inIsr ∨
      (t.inIsr = false ∧ (i = .resume ∨ ∃ k10 : W10, i = .index k10 ∧ k10.toNat = 0o17)) ∨
      (t.inIsr = true ∧ ∃ k9, i = .edrupt k9) := by
  cases exec_case h with
  | data hd => exact .inl hd.flags.2
  | relint | inhint | extend | index _ _ | indexTwo _ _ => exact .inl rfl
  | resume => exact .inr (.inl ⟨rfl, .inl rfl⟩)
  | indexBrupt k10 hk => exact .inr (.inl ⟨rfl, .inr ⟨k10, rfl, hk⟩⟩)
  | edrupt k9 =>
    refine .inr (.inr ⟨?_, k9, rfl⟩)
    unfold vectorEdrupt
    split <;> rfl

end Sys2Proof.Machine

/-! SUPPORT. What a Step that gives a next state can do, said once: the inversion of `step`
(spec/41_execution_cycle.md R160 to R173). -/

namespace Sys2Proof.Machine

/-- The state in which a Step fetches: after its head and its timers. -/
def fetchState (s : State) : State := runTimers (stepHead s)

/-- How a Step comes to its next state. -/
inductive StepCase (s t : State) : Prop
  /-- A unit of delay is consumed (R162). -/
  | delay (hp : planStep s = .wait t) (ht : consumeDelay (stepHead s) = some t)
  /-- A unit of the timers' delay is consumed (R164). -/
  | timerDelay (hp : planStep s = .wait t)
      (ht : t = { fetchState s with extraDelay := (fetchState s).extraDelay - 1 })
  /-- The instruction is charged (R168). -/
  | charge (hp : planStep s = .wait t)
      (ht : t = { fetchState s with
        pendFlag := true, pendDelay := config.mct (decodedInstr (fetchState s)) - 2 })
  /-- An interrupt is entered in place of the instruction (R167). -/
  | enter (hp : planStep s = .enter t)
      (ht : tryVector (fetchState s) (fetchState s).z (effectiveWord (fetchState s)) = some t)
  /-- The instruction runs, its charge flag as at the fetch or, with no unit of the charge left,
  cleared (R169). -/
  | run (u : State) (hp : planStep s = .run (decodedInstr (fetchState s)) u)
      (ht : exec (decodedInstr (fetchState s)) u = .next t)
      (hu : u = fetchState s ∨
        ((fetchState s).pendDelay = 0 ∧ u = { fetchState s with pendFlag := false }))

/-- A Step gives a next state only after the load (R394). -/
theorem step_ready {s t : State} (h : step s = .next t) : s.ready = true := by
  rcases planStep_cases s with ⟨-, hp⟩ | ⟨hr, -⟩ | ⟨hr, -⟩
  · rw [step, hp] at h; cases h
  · exact hr
  · exact hr

/-- The head and the timers of a Step change nothing but the requests, the downrupt timer's armed flag,
the counters, the counter registers, the channels, the extra delay and the warning filter. -/
theorem fetchState_fields (s : State) :
    fetchState s = { s with
      file := (fetchState s).file, chan := (fetchState s).chan
      extraDelay := (fetchState s).extraDelay, irq := (fetchState s).irq
      cycleCounter := s.cycleCounter + 1, scalerCounter := (fetchState s).scalerCounter
      warningFilter := (fetchState s).warningFilter
      warningGenerated := (fetchState s).warningGenerated
      downruptArmed := (stepHead s).downruptArmed } := by
  have hf := (runTimers_frame (stepHead s)).fields
  rw [← fetchState, stepHead_fields s] at hf
  exact hf

@[simp] theorem stepHead_rom (s : State) : (stepHead s).rom = s.rom := by
  rw [stepHead_fields s]
@[simp] theorem stepHead_pendFlag (s : State) : (stepHead s).pendFlag = s.pendFlag := by
  rw [stepHead_fields s]
@[simp] theorem stepHead_pendDelay (s : State) : (stepHead s).pendDelay = s.pendDelay := by
  rw [stepHead_fields s]
@[simp] theorem stepHead_intEnabled (s : State) : (stepHead s).intEnabled = s.intEnabled := by
  rw [stepHead_fields s]
@[simp] theorem stepHead_inIsr (s : State) : (stepHead s).inIsr = s.inIsr := by
  rw [stepHead_fields s]
@[simp] theorem stepHead_ready (s : State) : (stepHead s).ready = s.ready := by
  rw [stepHead_fields s]

@[simp] theorem fetchState_rom (s : State) : (fetchState s).rom = s.rom := by
  rw [fetchState_fields s]
@[simp] theorem fetchState_pendFlag (s : State) : (fetchState s).pendFlag = s.pendFlag := by
  rw [fetchState_fields s]
@[simp] theorem fetchState_pendDelay (s : State) : (fetchState s).pendDelay = s.pendDelay := by
  rw [fetchState_fields s]
@[simp] theorem fetchState_intEnabled (s : State) : (fetchState s).intEnabled = s.intEnabled := by
  rw [fetchState_fields s]
@[simp] theorem fetchState_inIsr (s : State) : (fetchState s).inIsr = s.inIsr := by
  rw [fetchState_fields s]
@[simp] theorem fetchState_ready (s : State) : (fetchState s).ready = s.ready := by
  rw [fetchState_fields s]

/-! ## The inversion -/

theorem step_of_wait {s u : State} (hp : planStep s = .wait u) : step s = .next u := by
  rw [step, hp]

theorem step_of_enter {s u : State} (hp : planStep s = .enter u) : step s = .next u := by
  rw [step, hp]

theorem step_of_run {s u : State} {i : Instr} (hp : planStep s = .run i u) :
    step s = exec i u := by
  rw [step, hp]

/-- A Step whose plan is to wait gives that state. -/
theorem eq_of_wait {s t u : State} (h : step s = .next t) (hp : planStep s = .wait u) : u = t :=
  Host.Outcome.next.inj ((step_of_wait hp).symm.trans h)

theorem eq_of_enter {s t u : State} (h : step s = .next t) (hp : planStep s = .enter u) : u = t :=
  Host.Outcome.next.inj ((step_of_enter hp).symm.trans h)

/-- Whatever a Step does from the fetch on: an entry, a charge, or an instruction. -/
theorem dispatch_case {s t : State} (h : step s = .next t)
    (hp : planStep s = dispatchInstr (fetchState s) (decodedInstr (fetchState s)))
    (hd : (fetchState s).pendFlag = true → (fetchState s).pendDelay = 0) : StepCase s t := by
  rcases dispatchInstr_cases (fetchState s) (decodedInstr (fetchState s)) with
    ⟨k, hi, hrun⟩ | ⟨-, -, u, hu, henter⟩ | ⟨-, hacc⟩
  · rw [hrun, ← hi] at hp
    exact .run _ hp ((step_of_run hp).symm.trans h) (.inl rfl)
  · rw [henter] at hp
    cases eq_of_enter h hp
    exact .enter hp hu
  · rw [hacc] at hp
    rcases accountInstr_cases (fetchState s) (decodedInstr (fetchState s)) with
      ⟨hflag, hrun⟩ | ⟨-, -, hcharge⟩ | ⟨-, -, hrun⟩
    · rw [hrun] at hp
      exact .run _ hp ((step_of_run hp).symm.trans h) (.inr ⟨hd hflag, rfl⟩)
    · rw [hcharge] at hp
      cases eq_of_wait h hp
      exact .charge hp rfl
    · rw [hrun] at hp
      exact .run _ hp ((step_of_run hp).symm.trans h) (.inl rfl)

/-- Every Step that gives a next state is one of the cases. -/
theorem step_case {s t : State} (h : step s = .next t) : StepCase s t := by
  rcases planStep_cases s with ⟨-, hp⟩ | ⟨-, u, hu, hp⟩ | ⟨-, hnone, ⟨u, hu, hp⟩ | ⟨-, hp⟩⟩
  · rw [step, hp] at h; cases h
  · cases eq_of_wait h hp
    exact .delay hp hu
  · cases eq_of_wait h hp
    rcases consumeTimerDelay_cases (runTimers (stepHead s)) with ⟨-, ht⟩ | ⟨-, ht⟩
    · exact .timerDelay hp (Option.some.inj (hu.symm.trans ht))
    · cases hu.symm.trans ht
  · obtain ⟨-, hd⟩ := consumeDelay_none hnone
    exact dispatch_case h hp (by simpa using hd)

end Sys2Proof.Machine

/-! SUPPORT. The timer loop as an iteration of the timer pass (spec/41_execution_cycle.md R163): a pass
neither reads nor writes the scaler counter. -/

namespace Sys2Proof.Machine

/-- The state with another scaler counter. -/
def withScaler (s : State) (c : Nat) : State := { s with scalerCounter := c }

/-- A change of the state that neither reads nor writes the scaler counter. -/
def IgnoresScaler (f : State → State) : Prop := ∀ s c, f (withScaler s c) = withScaler (f s) c

theorem withScaler_self (s : State) : withScaler s s.scalerCounter = s := rfl

theorem withScaler_withScaler (s : State) (c d : Nat) :
    withScaler (withScaler s c) d = withScaler s d := rfl

theorem IgnoresScaler.comp {f g : State → State} (hg : IgnoresScaler g) (hf : IgnoresScaler f) :
    IgnoresScaler (fun s => g (f s)) := fun s c => by
  dsimp only
  rw [hf, hg]

/-- A choice between two such changes, by a condition that does not read the scaler counter. -/
theorem IgnoresScaler.ite {f g : State → State} (p : State → Prop) [DecidablePred p]
    (hp : ∀ s c, p (withScaler s c) ↔ p s) (hf : IgnoresScaler f) (hg : IgnoresScaler g) :
    IgnoresScaler (fun s => if p s then f s else g s) := fun s c => by
  dsimp only
  by_cases h : p s
  · rw [if_pos h, if_pos ((hp s c).2 h), hf]
  · rw [if_neg h, if_neg (mt (hp s c).1 h), hg]

/-- A change that is made or not made. -/
theorem IgnoresScaler.when {f : State → State} (hf : IgnoresScaler f) (p : Prop) [Decidable p] :
    IgnoresScaler (fun s => if p then f s else s) :=
  hf.ite (fun _ => p) (fun _ _ => Iff.rfl) (fun _ _ => rfl)

theorem IgnoresScaler.iterate {f : State → State} (hf : IgnoresScaler f) (n : Nat) :
    IgnoresScaler f^[n] := by
  induction n with
  | zero => exact fun _ _ => rfl
  | succ n ih =>
    intro s c
    rw [Function.iterate_succ_apply, Function.iterate_succ_apply, hf, ih]

/-! ## The parts of a timer pass -/

theorem addExtraDelay_ignoresScaler : IgnoresScaler addExtraDelay := fun _ _ => rfl

theorem raiseIrq_ignoresScaler (n : Nat) : IgnoresScaler (raiseIrq · n) := fun s c => by
  cases n <;> rfl

theorem pinc_ignoresScaler (r : Nat) : IgnoresScaler (fun s => (pinc s r).1) := fun _ _ => rfl

theorem pincRaise_ignoresScaler (r slot : Nat) : IgnoresScaler (pincRaise · r slot) :=
  ((raiseIrq_ignoresScaler slot).comp (pinc_ignoresScaler r)).ite
    (fun s => (pinc s r).2 = true) (fun _ _ => Iff.rfl) (pinc_ignoresScaler r)

theorem tickTime1_ignoresScaler : IgnoresScaler tickTime1 :=
  have h := (pinc_ignoresScaler regTime1).comp addExtraDelay_ignoresScaler
  ((((pinc_ignoresScaler regTime2).comp addExtraDelay_ignoresScaler).comp h).ite
    (fun s => (pinc (addExtraDelay s) regTime1).2 = true) (fun _ _ => Iff.rfl) h)

theorem scalerTick_ignoresScaler : IgnoresScaler scalerTick :=
  IgnoresScaler.ite (fun s => (chanRead s chanScalerLow).toNat + 1 = config.scalerLoModulus)
    (fun _ _ => Iff.rfl) (fun _ _ => rfl) (fun _ _ => rfl)

theorem warningFilterUpdate_ignoresScaler : IgnoresScaler warningFilterUpdate :=
  IgnoresScaler.ite
    (fun s => s.warningGenerated = true ∨ chanRead s chanMode &&& 0o1000#15 ≠ 0#15)
    (fun _ _ => Iff.rfl) (fun _ _ => rfl) (fun _ _ => rfl)

theorem phaseTime13_ignoresScaler : IgnoresScaler phaseTime13 :=
  ((pincRaise_ignoresScaler regTime3 3).comp addExtraDelay_ignoresScaler).comp
    tickTime1_ignoresScaler

theorem phaseTime5_ignoresScaler : IgnoresScaler phaseTime5 :=
  (pincRaise_ignoresScaler regTime5 2).comp addExtraDelay_ignoresScaler

theorem phaseTime4_ignoresScaler : IgnoresScaler phaseTime4 :=
  (pincRaise_ignoresScaler regTime4 4).comp addExtraDelay_ignoresScaler

theorem phaseActions_ignoresScaler (sc : W15) : IgnoresScaler (phaseActions · sc) :=
  (((phaseTime4_ignoresScaler.when _).comp (phaseTime5_ignoresScaler.when _)).comp
    (phaseTime13_ignoresScaler.when _)).comp (warningFilterUpdate_ignoresScaler.when _)

theorem timerPass_ignoresScaler : IgnoresScaler timerPass := by
  intro s c
  simp only [timerPass]
  rw [scalerTick_ignoresScaler]
  exact phaseActions_ignoresScaler _ _ c

/-! ## The loop -/

/-- The timer loop, where its bound suffices, is one pass for each threshold in the scaler counter, and
leaves the remainder there. -/
theorem timerLoop_eq_iterate (n : Nat) (s : State) (h : s.scalerCounter ≤ n) :
    timerLoop n s =
      withScaler (timerPass^[s.scalerCounter / config.scalerThreshold] s)
        (s.scalerCounter % config.scalerThreshold) := by
  have hT : 0 < config.scalerThreshold := by decide
  induction n generalizing s with
  | zero =>
    have h0 : s.scalerCounter = 0 := by omega
    have hs : withScaler s 0 = s := h0 ▸ withScaler_self s
    rw [h0, Nat.zero_div, Nat.zero_mod]
    exact hs.symm
  | succ n ih =>
    simp only [timerLoop]
    split
    next hle =>
      have hrest : (withScaler (timerPass s) (s.scalerCounter - config.scalerThreshold)).scalerCounter
          = s.scalerCounter - config.scalerThreshold := rfl
      change timerLoop n (timerPass (withScaler s (s.scalerCounter - config.scalerThreshold))) = _
      rw [timerPass_ignoresScaler, ih _ (by rw [hrest]; omega), hrest,
        timerPass_ignoresScaler.iterate, withScaler_withScaler, Nat.div_eq_sub_div hT hle,
        Nat.mod_eq_sub_mod hle, Function.iterate_succ_apply]
    next hlt =>
      rw [Nat.div_eq_of_lt (by omega), Nat.mod_eq_of_lt (by omega)]
      rfl

/-- Settles O52: the loop is the iterated timer pass, which commutes with setting the scaler counter. -/
theorem timerLoopRunsEveryPass : Obligations.TimerLoopRunsEveryPass := by
  unfold Obligations.TimerLoopRunsEveryPass
  intro s
  have h := timerLoop_eq_iterate s.scalerCounter s le_rfl
  refine ⟨congrArg State.scalerCounter h, ?_⟩
  calc withScaler (runTimers s) 0
      = withScaler (timerPass^[s.scalerCounter / config.scalerThreshold] s) 0 := by
        rw [runTimers, h]; rfl
    _ = timerPass^[s.scalerCounter / config.scalerThreshold] (withScaler s 0) :=
        ((timerPass_ignoresScaler.iterate _) s 0).symm

end Sys2Proof.Machine

/-! SUPPORT. The statements about the state as a whole (spec/10_state.md): the invariant at reset and
under every Step, fixed memory, and the interrupt flags. Each is a case analysis of `StepCase`. -/

namespace Sys2Proof.Machine

/-! ## The invariant -/

theorem resetWith_consistent (b : Bool) : Consistent (State.resetWith b) where
  ram := rfl
  rom := rfl
  chan := rfl
  eb := BitVec.zero_and.symm
  fb := BitVec.zero_and.symm
  bb := (by decide : 0#15 = 0#15 ||| 0#15 >>> 8)
  idle _ := rfl
  pendDelay := Nat.zero_le _
  irqLast := Nat.zero_le _
  downlinkLatch := (by decide : 0#2 ≠ 3#2)
  warningFilter := Nat.zero_le _
  substitute _ := rfl

/-- Settles O57: every field of the reset state is blank, whichever interrupt-enable it has. -/
theorem resetIsConsistent : Obligations.ResetIsConsistent :=
  ⟨resetWith_consistent _, resetWith_consistent⟩

/-- The longest instruction, DV, takes six cycles (R115). -/
theorem mct_le (i : Instr) : config.mct i ≤ 6 := by
  change mctTable i ≤ 6
  unfold mctTable
  split <;> decide

theorem consumeDelay_consistent {s t : State} (h : Consistent s) (ht : consumeDelay s = some t) :
    Consistent t := by
  rcases consumeDelay_cases ht with ⟨-, rfl⟩ | ⟨-, hflag, -, rfl⟩
  · exact extraDelay_consistent h _
  · exact { h with
      idle := fun hn => absurd (hflag.symm.trans hn) (by decide)
      pendDelay := (Nat.sub_le _ _).trans h.pendDelay }

/-- A charge is at most four units of delay (R39). -/
theorem charge_consistent {s : State} (h : Consistent s) (i : Instr) :
    Consistent { s with pendFlag := true, pendDelay := config.mct i - 2 } :=
  { h with
    idle := nofun
    pendDelay := Nat.sub_le_sub_right (mct_le i) 2 }

/-- A charge flag is cleared where no unit of the charge is left (R38). -/
theorem clearCharge_consistent {s : State} (h : Consistent s) (hd : s.pendDelay = 0) :
    Consistent { s with pendFlag := false } := { h with idle := fun _ => hd }

theorem fetchState_consistent {s : State} (h : Consistent s) : Consistent (fetchState s) :=
  runTimers_consistent (stepHead_consistent h)

/-- Settles O58, by the cases of a Step; the case of a running instruction is `exec_consistent`. -/
theorem stepKeepsConsistent : Obligations.StepKeepsConsistent := by
  unfold Obligations.StepKeepsConsistent
  intro s t hs h
  have hf := fetchState_consistent hs
  cases step_case h with
  | delay hp ht => exact consumeDelay_consistent (stepHead_consistent hs) ht
  | timerDelay hp ht => exact ht ▸ extraDelay_consistent hf _
  | charge hp ht => exact ht ▸ charge_consistent hf _
  | enter hp ht => exact tryVector_consistent hf ht
  | run u hp ht hu =>
    rcases hu with rfl | ⟨hd, rfl⟩
    · exact exec_consistent hf ht
    · exact exec_consistent (clearCharge_consistent hf hd) ht

/-! ## Fixed memory and the interrupt flags -/

/-- Consuming a delay unit changes the two delay counters alone. -/
theorem consumeDelay_fields {s t : State} (h : consumeDelay s = some t) :
    t = { s with extraDelay := t.extraDelay, pendDelay := t.pendDelay } := by
  rcases consumeDelay_cases h with ⟨-, rfl⟩ | ⟨-, -, -, rfl⟩ <;> rfl

theorem step_rom_ready {s t : State} (h : step s = .next t) : t.rom = s.rom ∧ t.ready = s.ready := by
  cases step_case h with
  | delay hp ht => rw [consumeDelay_fields ht]; simp
  | timerDelay hp ht => simp [ht]
  | charge hp ht => simp [ht]
  | enter hp ht => obtain ⟨n, -, rfl⟩ := tryVector_eq_some ht; simp
  | run u hp ht hu =>
    obtain ⟨hrom, ⟨-, -, -, -, hready⟩, -, -⟩ := exec_engineKept ht
    rcases hu with rfl | ⟨-, rfl⟩ <;> simp [hrom, hready]

/-- Settles O49: no part of a Step writes fixed memory or the ready flag, and a Step before the load has
no next state. -/
theorem stepKeepsFixedMemory : Obligations.StepKeepsFixedMemory := by
  unfold Obligations.StepKeepsFixedMemory
  intro s t h
  obtain ⟨hrom, hready⟩ := step_rom_ready h
  exact ⟨hrom, hready.trans (step_ready h)⟩

/-- The decoder never gives INDEX of BRUPT, whose word is RESUME (R108). -/
theorem decode_index_ne_brupt {extracode : Bool} {w : W15} {k10 : W10}
    (h : decode extracode w = .index k10) : k10.toNat ≠ 0o17 := by
  cases extracode with
  | true =>
    have h' : decodeExtracode w = .index k10 := h
    unfold decodeExtracode decodePeripheral at h'
    repeat' split at h'
    all_goals cases h'
  | false =>
    have h' : decodeBasic w = .index k10 := h
    unfold decodeBasic decodeTransfer decodeIndex at h'
    repeat' split at h'
    all_goals cases h'
    assumption

/-- What a Step does to the interrupt flags: nothing but in an entry, or in the instruction that it
runs. -/
theorem step_flags {s t : State} (h : step s = .next t) :
    (t.intEnabled = s.intEnabled ∧
      (t.inIsr = s.inIsr ∨ (t.inIsr = true ∧ planStep s = .enter t))) ∨
    ∃ u, planStep s = .run (decodedInstr (fetchState s)) u ∧
      exec (decodedInstr (fetchState s)) u = .next t ∧
      u.intEnabled = s.intEnabled ∧ u.inIsr = s.inIsr := by
  cases step_case h with
  | delay hp ht => left; rw [consumeDelay_fields ht]; simp
  | timerDelay hp ht => left; simp [ht]
  | charge hp ht => left; simp [ht]
  | enter hp ht =>
    obtain ⟨n, -, he⟩ := tryVector_eq_some ht
    exact .inl ⟨by simp [he], .inr ⟨by simp [he], hp⟩⟩
  | run u hp ht hu =>
    refine .inr ⟨u, hp, ht, ?_⟩
    rcases hu with rfl | ⟨-, rfl⟩ <;> simp

/-- Settles O50: an entry sets the service flag, and of the instructions RELINT, INHINT, RESUME and
EDRUPT alone write a flag; the INDEX of BRUPT, which would return from interrupt too, is never decoded. -/
theorem interruptFlagWriters : Obligations.InterruptFlagWriters := by
  unfold Obligations.InterruptFlagWriters
  intro s t h
  rcases step_flags h with ⟨hen, hisr⟩ | ⟨u, hp, hexec, hen, hisr⟩
  · refine ⟨fun hne => absurd hen hne, fun ⟨hs, ht⟩ => ?_, fun ⟨hs, ht⟩ => ?_⟩
    · rcases hisr with hkept | ⟨hset, -⟩
      · simp [hs, ht] at hkept
      · simp [ht] at hset
    · rcases hisr with hkept | ⟨-, hp⟩
      · simp [hs, ht] at hkept
      · exact .inl hp
  · refine ⟨fun hne => ?_, fun ⟨hs, ht⟩ => ?_, fun ⟨hs, ht⟩ => ?_⟩
    · rcases exec_intEnabled hexec with hkept | hi | hi
      · exact absurd (hkept.trans hen) hne
      · exact ⟨u, .inl (hi ▸ hp)⟩
      · exact ⟨u, .inr (hi ▸ hp)⟩
    · rcases exec_inIsr hexec with hkept | ⟨-, hi | ⟨k10, hi, hk⟩⟩ | ⟨hset, -⟩
      · simp [hs, ht, hisr] at hkept
      · exact ⟨u, hi ▸ hp⟩
      · exact absurd hk (decode_index_ne_brupt hi)
      · simp [ht] at hset
    · rcases exec_inIsr hexec with hkept | ⟨hclear, -⟩ | ⟨-, k9, hi⟩
      · simp [hs, ht, hisr] at hkept
      · simp [ht] at hclear
      · exact .inr ⟨u, k9, hi ▸ hp⟩

end Sys2Proof.Machine

/-! SUPPORT. Where an address leads, window by window, and what is read there after a store
(spec/20_memory.md R61 to R72, R87). -/

namespace Sys2Proof.Machine

/-! ## The windows -/

theorem extractLsb'_eq_ofNat_mod (addr : W12) (k : Nat) :
    addr.extractLsb' 0 k = BitVec.ofNat k (addr.toNat % 2 ^ k) :=
  BitVec.eq_of_toNat_eq (by simp)

theorem extractLsb'_eq_ofNat_div {w : Nat} (v : BitVec w) (i k : Nat) :
    v.extractLsb' i k = BitVec.ofNat k (v.toNat / 2 ^ i) :=
  BitVec.eq_of_toNat_eq (by simp [Nat.shiftRight_eq_div_pow])

/-- The erasable windows of fixed bank number: the address itself names the bank (R67). -/
theorem resolve_erasable (s : State) {d : W12} (hlow : 0o61 ≤ d.toNat) (hhigh : d.toNat ≤ 0o1377) :
    resolve s d = .ram (BitVec.ofNat 3 (d.toNat / 0o400)) (BitVec.ofNat 8 (d.toNat % 0o400)) := by
  unfold resolve
  rw [if_neg (by omega), if_pos hhigh, extractLsb'_eq_ofNat_div, extractLsb'_eq_ofNat_mod]
  rfl

/-- The switched erasable window: EB names the bank (R67). -/
theorem resolve_switched (s : State) {d : W12} (hlow : 0o1400 ≤ d.toNat)
    (hhigh : d.toNat ≤ 0o1777) :
    resolve s d = .ram (BitVec.ofNat 3 (s.eb.toNat / 0o400)) (BitVec.ofNat 8 (d.toNat % 0o400)) := by
  unfold resolve
  rw [if_neg (by omega), if_neg (by omega), if_pos hhigh, extractLsb'_eq_ofNat_div,
    extractLsb'_eq_ofNat_mod]
  rfl

/-- The common fixed window: FB and the superbank bit name the bank (R68). -/
theorem resolve_common (s : State) {d : W12} (hlow : 0o2000 ≤ d.toNat) (hhigh : d.toNat ≤ 0o3777) :
    resolve s d = .rom (fixedBank s) (BitVec.ofNat 10 (d.toNat % 0o2000)) := by
  unfold resolve
  rw [if_neg (by omega), if_neg (by omega), if_neg (by omega), if_pos hhigh,
    extractLsb'_eq_ofNat_mod]
  rfl

/-- The fixed-fixed window: the address itself names bank 2 or 3 (R69). -/
theorem resolve_fixedFixed (s : State) {d : W12} (hlow : 0o4000 ≤ d.toNat) :
    resolve s d =
      .rom (2 + (d.toNat - 0o4000) / 0o2000) (BitVec.ofNat 10 (d.toNat % 0o2000)) := by
  unfold resolve
  rw [if_neg (by omega), if_neg (by omega), if_neg (by omega), if_neg (by omega),
    extractLsb'_eq_ofNat_mod]
  rfl

/-- An address above the erasable ones leads to fixed memory. -/
theorem resolve_fixed (s : State) {d : W12} (h : 0o1777 < d.toNat) :
    ∃ bank offset, resolve s d = .rom bank offset := by
  rcases Nat.lt_or_ge d.toNat 0o4000 with hc | hf
  · exact ⟨_, _, resolve_common s h (by omega)⟩
  · exact ⟨_, _, resolve_fixedFixed s hf⟩

/-- An address above the registers and below fixed memory leads to an erasable cell. -/
theorem resolve_ram (s : State) {d : W12} (hlow : 0o60 < d.toNat) (hhigh : d.toNat ≤ 0o1777) :
    ∃ bank offset, resolve s d = .ram bank offset := by
  rcases Nat.lt_or_ge d.toNat 0o1400 with hu | hs
  · exact ⟨_, _, resolve_erasable s hlow (by omega)⟩
  · exact ⟨_, _, resolve_switched s hs hhigh⟩

/-! ## Reads after stores above the registers -/

/-- The store to fixed memory changes nothing (R72). -/
theorem memWrite_fixed (s : State) {d : W12} (v : W16) (h : 0o1777 < d.toNat) :
    memWrite s d v = s := by
  obtain ⟨bank, offset, hr⟩ := resolve_fixed s h
  unfold memWrite
  rw [hr]
  rfl

/-- The store above the registers moves no window, so every address leads where it led. -/
theorem resolve_memWrite_ram (s : State) {d : W12} {bank : BitVec 3} {offset : BitVec 8}
    (hr : resolve s d = .ram bank offset) (d' : W12) (v : W16) :
    resolve (memWrite s d v) d' = resolve s d' := by
  unfold memWrite
  rw [hr]
  exact resolve_congr rfl rfl rfl d'

/-- What is read after a store to an erasable cell: the value on 15 bits at every address that leads to
the cell, and what was there at any other (R87). -/
theorem memRead_memWrite_ram (s : State) {d : W12} {bank : BitVec 3} {offset : BitVec 8}
    (hr : resolve s d = .ram bank offset) (d' : W12) (v : W16) :
    memRead (memWrite s d v) d' =
      if resolve s d' = resolve s d then (v.setWidth 15).setWidth 16 else memRead s d' := by
  unfold memRead
  rw [resolve_memWrite_ram s hr]
  split
  next hsame =>
    rw [hsame, hr, memWrite, hr]
    simp [readPlace, writePlace, ramRead_ramWrite]
  next hother =>
    refine memWrite_keeps s d v _ ?_
    rw [storedPlaces, hr]
    simpa [writtenPlaces, hr] using hother

/-- What a word keeps of a 16-bit value: all but bit 15. -/
theorem setWidth_setWidth_eq_mask (v : W16) : (v.setWidth 15).setWidth 16 = v &&& 0o077777#16 :=
  BitVec.eq_of_toNat_eq (by
    rw [BitVec.toNat_setWidth, BitVec.toNat_setWidth, BitVec.toNat_and,
      show (0o077777#16).toNat = 2 ^ 15 - 1 from rfl, Nat.and_two_pow_sub_one_eq_mod]
    omega)

/-- Settles O10, window by window; the last write is seen through `resolve`, which no store above the
registers changes. -/
theorem readSeesLastWrite : Obligations.ReadSeesLastWrite := by
  unfold Obligations.ReadSeesLastWrite
  refine ⟨fun s => ⟨rfl, rfl, rfl, rfl, rfl, rfl, rfl, rfl⟩, fun s addr => ⟨fun hreg => ?_,
    fun ⟨hlow, hhigh⟩ => ?_, fun ⟨hlow, hhigh⟩ => ?_⟩, fun s d d' v hd => ?_⟩
  · rw [memRead, resolve_reg s hreg]; rfl
  · rw [memRead, resolve_erasable s hlow hhigh]; rfl
  · rw [memRead, resolve_switched s hlow hhigh]; rfl
  · rcases Nat.lt_or_ge 0o1777 d.toNat with hfixed | herasable
    · rw [memWrite_fixed s v hfixed, if_neg (fun h => absurd h.2 (by omega))]
    · obtain ⟨bank, offset, hr⟩ := resolve_ram s hd herasable
      simp only [memRead_memWrite_ram s hr, setWidth_setWidth_eq_mask, herasable, and_true]

/-! ## The bank registers -/

/-- Settles O11: the stores to EB, FB and BB are `writeEB`, `writeFB` and `writeBB`, and what they leave
is the frame of every store. -/
theorem bankRegisterWrites : Obligations.BankRegisterWrites := by
  unfold Obligations.BankRegisterWrites
  exact fun s v =>
    ⟨⟨writeEB_eb s _, writeEB_bb s _, memWrite_keeps s 3#12 v⟩,
      ⟨writeFB_fb s _, writeFB_bb s _, memWrite_keeps s 4#12 v⟩,
      ⟨writeBB_bb s _, writeBB_eb s _, writeBB_fb s _, memWrite_keeps s 6#12 v⟩⟩

/-! ## The fixed windows -/

/-- The bank numbers that the superbank bit raises: 030 to 037 (R68). -/
theorem topBits_iff (b : BitVec 5) :
    b &&& 0o30#5 = 0o30#5 ↔ b.getLsbD 4 = true ∧ b.getLsbD 3 = true := by
  revert b
  decide

/-- The superbank bit of channel 07 (R68). -/
theorem superbank_iff (w : W15) : w &&& 0o100#15 ≠ 0#15 ↔ w.getLsbD 6 = true := by
  rw [show 0o100#15 = BitVec.twoPow 15 6 from rfl, BitVec.and_twoPow]
  cases w.getLsbD 6 <;> decide

/-- The bank of the common fixed window, bit by bit (R68). -/
theorem fixedBank_eq (s : State) :
    fixedBank s = s.fb.toNat / 0o2000 +
      if s.fb.getLsbD 14 && s.fb.getLsbD 13 && (chanRead s 7).getLsbD 6 then 8 else 0 := by
  have hbank : (s.fb.extractLsb' 10 5).toNat = s.fb.toNat / 0o2000 := by
    have := s.fb.isLt
    rw [extractLsb'_eq_ofNat_div, BitVec.toNat_ofNat]
    omega
  have htop : s.fb.extractLsb' 10 5 &&& 0o30#5 = 0o30#5 ↔
      s.fb.getLsbD 14 = true ∧ s.fb.getLsbD 13 = true := by
    simpa [BitVec.getLsbD_extractLsb'] using topBits_iff (s.fb.extractLsb' 10 5)
  simp only [fixedBank, htop, superbank_iff, hbank, Bool.and_eq_true]
  split <;> rfl

/-- Settles O12, window by window: only the common window's bank depends on the state. -/
theorem fixedWindows : Obligations.FixedWindows := by
  unfold Obligations.FixedWindows
  refine fun s addr => ⟨fun ⟨hlow, hhigh⟩ => ?_, fun ⟨hlow, hhigh⟩ => ?_, fun hlow => ?_⟩
  · rw [memRead, resolve_common s hlow hhigh, ← fixedBank_eq]; rfl
  · have hbank : 2 + (addr.toNat - 0o4000) / 0o2000 = 2 := by omega
    rw [memRead, resolve_fixedFixed s hlow, hbank]; rfl
  · have hbank : 2 + (addr.toNat - 0o4000) / 0o2000 = 3 := by omega
    rw [memRead, resolve_fixedFixed s (by omega), hbank]; rfl

end Sys2Proof.Machine

/-! SUPPORT. The I/O channels: reads, writes, and the downlink latch (spec/20_memory.md R81, R82,
R84). -/

namespace Sys2Proof.Machine

/-- Every write beyond L and Q: the channel takes the value, and where it is one of the downlink's the
latch follows (R82, R84). -/
theorem ioWrite_channel (s : State) {c : Nat} (v : W16) (hc : c < chanSize) (hl : c ≠ 1)
    (hq : c ≠ 2) :
    ioWrite s c v =
      if c = 0o34 ∨ c = 0o35 then latchDownlink (chanWrite s c (v.setWidth 15)) c
      else chanWrite s c (v.setWidth 15) := by
  rw [ioWrite, if_neg (by omega), if_neg hl, if_neg hq]

/-- The channel array after such a write. -/
theorem chanRead_ioWrite (s : State) {c : Nat} (v : W16) (hc : c < chanSize) (hl : c ≠ 1)
    (hq : c ≠ 2) (k : Nat) :
    chanRead (ioWrite s c v) k = if k = c then v.setWidth 15 else chanRead s k := by
  rw [ioWrite_channel s v hc hl hq, ← chanRead_chanWrite]
  split
  · exact chanRead_congr (latchDownlink_chan _ _) k
  · rfl

/-- The write to a channel that is neither L nor Q leaves every register and both memories. -/
theorem ioWrite_keepsPlaces (s : State) {c : Nat} (v : W16) (hl : c ≠ 1) (hq : c ≠ 2) :
    KeepsPlaces s (ioWrite s c v) [] := by
  have hlq : (ioWrite s c v).l = s.l ∧ (ioWrite s c v).q = s.q := by
    unfold ioWrite
    split_ifs <;> simp
  exact keepsPlaces_of_fields (by simp) (.inr hlq.1) (.inr hlq.2) (by simp) (by simp) (by simp)
    (by simp) (by simp) (by simp) (by simp)

/-- The write to a channel that is not the downlink's leaves the downlink. -/
theorem ioWrite_keepsDownlink (s : State) {c : Nat} (v : W16) (hc : ¬(c = 0o34 ∨ c = 0o35)) :
    KeepsDownlink s (ioWrite s c v) := by
  unfold ioWrite
  split_ifs <;> exact ⟨rfl, rfl, rfl⟩

/-- The second bit of the latch clears it and arms the timer (R84). -/
theorem latchDownlink_of_full {s : State} {c : Nat} (h : s.downlinkLatch ||| downlinkBit c = 3#2) :
    latchDownlink s c =
      { s with
        downlinkLatch := 0#2
        downruptArmed := true
        downruptTime := s.cycleCounter + config.downruptDelay } := if_pos h

/-- Any other write sets its bit and nothing else (R84). -/
theorem latchDownlink_of_not_full {s : State} {c : Nat}
    (h : s.downlinkLatch ||| downlinkBit c ≠ 3#2) :
    latchDownlink s c = { s with downlinkLatch := s.downlinkLatch ||| downlinkBit c } := if_neg h

theorem downlinkBit_eq {c : Nat} (h : c = 0o34 ∨ c = 0o35) :
    downlinkBit c = if c = 0o34 then 1#2 else 2#2 := by
  rcases h with rfl | rfl <;> rfl

/-- The host's channel read, for every integer: `IoRead` in its range, 0 out of it (R81, R364). -/
theorem hostReadIo_eq (s : State) (ch : Int) :
    hostReadIo s ch =
      if ch < 0 ∨ 0o777 < ch then 0#16
      else if ch = 1 then s.l
      else if ch = 2 then s.q
      else (chanRead s ch.toNat).setWidth 16 := by
  rcases Int.lt_or_le ch 0 with hneg | hpos
  · rw [hostReadIo, if_pos hneg, if_pos (.inl hneg)]
  · lift ch to Nat using hpos with c
    have hout : ((c : Int) < 0 ∨ 0o777 < (c : Int)) ↔ chanSize ≤ c := by
      unfold chanSize
      omega
    have hl : (c : Int) = 1 ↔ c = 1 := by omega
    have hq : (c : Int) = 2 ↔ c = 2 := by omega
    rw [hostReadIo, if_neg (by omega)]
    simp only [hout, hl, hq, ioRead, Int.toNat_natCast]

/-- Settles O13, clause by clause from what `ioWrite` does to the channels, to the places and to the
downlink. -/
theorem channelAccess : Obligations.ChannelAccess := by
  unfold Obligations.ChannelAccess
  refine ⟨hostReadIo_eq, fun s c v => ⟨fun hout => ?_, fun hl => ?_, fun hq => ?_,
    fun ⟨hin, hl, hq⟩ => ?_, fun ⟨h34, h35⟩ => ?_, fun hdown => ?_⟩⟩
  · exact if_pos hout
  · subst hl; rfl
  · subst hq; rfl
  · have hin : c < chanSize := Nat.lt_succ_of_le hin
    have hchan := chanRead_ioWrite s v hin hl hq
    refine ⟨(hchan c).trans (if_pos rfl), fun k hk => (hchan k).trans (if_neg (by simpa using hk)),
      ioWrite_keepsPlaces s v hl hq, ?_, ?_, ?_, ?_, ?_, ?_⟩ <;>
      simp [KeepsInterrupts, KeepsDelays, KeepsTimers]
  · exact ioWrite_keepsDownlink s v (by omega)
  · have hw : ioWrite s c v = latchDownlink (chanWrite s c (v.setWidth 15)) c := by
      rw [ioWrite_channel s v (by unfold chanSize; omega) (by omega) (by omega), if_pos hdown]
    rw [hw, ← downlinkBit_eq hdown]
    constructor
    · intro hfull
      rw [latchDownlink_of_full (s := chanWrite s c _) hfull]
      exact ⟨rfl, rfl, rfl⟩
    · intro hfull
      rw [latchDownlink_of_not_full (s := chanWrite s c _) hfull]
      exact ⟨rfl, rfl, rfl⟩

end Sys2Proof.Machine

/-! SUPPORT. The image load: the cell of every word of the image, and what it holds
(spec/20_memory.md R75). -/

namespace Sys2Proof.Machine

/-- The exchange of image banks, done twice, is no exchange. -/
theorem imageBank_involutive : Function.Involutive imageBank
  | 0 | 1 | 2 | 3 => rfl
  | _ + 4 => rfl

/-- Banks 0 and 2, 1 and 3 change places (R75). -/
theorem imageBank_eq (i : Nat) :
    imageBank i =
      if i = 0 then 2 else if i = 1 then 3 else if i = 2 then 0 else if i = 3 then 1 else i := by
  match i with
  | 0 | 1 | 2 | 3 => rfl
  | _ + 4 => rfl

/-- Different words of the image go to different cells. -/
theorem imageCell_inj {w w' : Nat} (h : imageCell w = imageCell w') : w = w' := by
  unfold imageCell at h
  have hbank : w / 0o2000 = w' / 0o2000 := imageBank_involutive.injective (by omega)
  omega

/-- The cell of an image word by its bank and offset. -/
theorem imageCell_eq (i : Nat) (o : W10) :
    imageCell (i * 0o2000 + o.toNat) = romCell (imageBank i) o := by
  have := o.isLt
  unfold imageCell romCell
  rw [show (i * 0o2000 + o.toNat) / 0o2000 = i by omega,
    show (i * 0o2000 + o.toNat) % 0o2000 = o.toNat by omega]

theorem imageWord_toNat (high low : Octet) :
    (imageWord high low).toNat = (high.toNat * 256 + low.toNat) / 2 := by
  have := high.isLt
  have := low.isLt
  simp only [imageWord, BitVec.extractLsb'_toNat, BitVec.toNat_append]
  rw [← Nat.shiftLeft_add_eq_or_of_lt (by omega)]
  simp only [Nat.shiftLeft_eq, Nat.shiftRight_eq_div_pow]
  omega

/-- The load from word `w` on leaves the cells of the words before it. -/
theorem read_loadWords_before (image : List Octet) (w : Nat) (m : Memory) {j : Nat} (hj : j < w) :
    Memory.read blankCell (loadWords w image m) (imageCell j) =
      Memory.read blankCell m (imageCell j) := by
  fun_induction loadWords w image m with
  | case1 w high low rest m hw ih =>
    rw [ih (by omega), Memory.read_write_other]
    exact fun h => absurd (imageCell_inj h) (by omega)
  | case2 => rfl
  | case3 => rfl

/-- The load from word `w` on puts the pair number `k` of its bytes in the cell of word `w + k`, and
leaves that cell where a byte is missing (R75). -/
theorem read_loadWords (image : List Octet) (w : Nat) (m : Memory) (k : Nat)
    (hk : w + k < romSize) :
    Memory.read blankCell (loadWords w image m) (imageCell (w + k)) =
      if 2 * k + 1 < image.length then
        imageWord (image[2 * k]?.getD 0#8) (image[2 * k + 1]?.getD 0#8)
      else Memory.read blankCell m (imageCell (w + k)) := by
  fun_induction loadWords w image m generalizing k with
  | case1 w high low rest m hw ih =>
    cases k with
    | zero =>
      rw [read_loadWords_before _ _ _ (by omega)]
      simp
    | succ k =>
      have hother : imageCell (w + (k + 1)) ≠ imageCell w :=
        fun h => absurd (imageCell_inj h) (by omega)
      have hnext := ih k (by omega)
      rw [show w + 1 + k = w + (k + 1) by omega, Memory.read_write_other _ _ hother] at hnext
      have hlength : 2 * (k + 1) + 1 < (high :: low :: rest).length ↔ 2 * k + 1 < rest.length := by
        simp only [List.length_cons]
        omega
      simp only [hnext, hlength]
      rfl
  | case2 w high low rest m hw => omega
  | case3 image w m hshort =>
    rw [if_neg]
    match image with
    | [] | [_] => simp
    | high :: low :: rest => exact (hshort high low rest rfl).elim

/-- Settles O14: the load from word 0 into blank memory puts every word of the image in its cell. -/
theorem loadPlacesImage : Obligations.LoadPlacesImage := by
  unfold Obligations.LoadPlacesImage
  refine fun s image => ⟨fun hready => if_pos hready, fun hready => ?_⟩
  refine ⟨{ s with rom := loadWords 0 image [], ready := true }, by simp [loadImage, hready], rfl,
    fun i o hi => ?_⟩
  have ho := o.isLt
  have hload := read_loadWords image 0 [] (i * 0o2000 + o.toNat) (by unfold romSize; omega)
  rw [Nat.zero_add, imageCell_eq] at hload
  simp only [← imageBank_eq, romRead, hload]
  split
  · exact imageWord_toNat _ _
  · rfl

end Sys2Proof.Machine

/-! SUPPORT. The 16-bit operand (spec/20_memory.md R78), and CA and CS, which load it. -/

namespace Sys2Proof.Machine

/-- The 16-bit operand, by its address (R78). -/
theorem rd16_eq (s : State) (k : W12) :
    rd16 s k =
      if k = 0#12 then s.a else if k = 1#12 then s.l else if k = 2#12 then s.q
      else signExtend ((memRead s k).setWidth 15) := by
  split_ifs with ha hl hq
  · subst ha; rfl
  · subst hl; rfl
  · subst hq; rfl
  · exact rd16_of_not_wide s (by bv_omega)

/-- What sets A and advances Z writes these two registers. -/
theorem writesOnly_a (s : State) (a : W16) :
    WritesOnly s { beginExecute s with a := a } [.reg 0, .reg 5] :=
  writesOnly_registers s a s.l s.q (s.z + 1#12) (.inl (by simp)) (.inr rfl) (.inr rfl) (by simp)

/-- Settles O25: after the four writes of every instruction, CA and CS write A alone. -/
theorem loadsOfA : Obligations.LoadsOfA := by
  unfold Obligations.LoadsOfA
  exact ⟨rd16_eq, fun k s =>
    ⟨⟨⟨rfl, wordF12_toNat 3#3 k, rfl⟩, _, rfl, rfl, rfl, writesOnly_a s _⟩,
      ⟨⟨rfl, wordF12_toNat 4#3 k, rfl⟩, _, rfl, rfl, rfl, writesOnly_a s _⟩⟩⟩

end Sys2Proof.Machine

/-! SUPPORT. The invariant under the operations of the host (spec/60_exceptions.md R360 to R367). -/

namespace Sys2Proof.Machine

theorem keyPressed_consistent {s : State} (h : Consistent s) (code : Nat) :
    Consistent (keyPressed s code) :=
  chanWrite_consistent (setIrq_consistent h 5 true) (by decide) _

theorem hostWriteMemory_consistent {s t : State} (h : Consistent s) {address value : Nat}
    (ht : hostWriteMemory s address value = .next t) : Consistent t := by
  unfold hostWriteMemory at ht
  split at ht
  · cases ht; exact memWrite_consistent h _ _
  · cases ht

theorem loadImage_consistent {s t : State} (h : Consistent s) {image : List Octet}
    (ht : loadImage s image = .next t) : Consistent t := by
  unfold loadImage at ht
  split at ht
  · cases ht
  · cases ht; exact { h with rom := loadWords_wf image 0 rfl }

/-- Settles O59, by the operations of the host: the reads and views leave the state as it is. -/
theorem hostKeepsConsistent : Obligations.HostKeepsConsistent := by
  unfold Obligations.HostKeepsConsistent
  intro s t op hop hs ht
  cases op with
  | step => exact absurd rfl hop
  | keyPressed code => cases ht; exact keyPressed_consistent hs code
  | readMemory address =>
    simp only [hostDo] at ht
    split at ht
    · cases ht; exact hs
    · cases ht
  | writeMemory address value => exact hostWriteMemory_consistent hs ht
  | readIo address => cases ht; exact hs
  | getCycleCounter => cases ht; exact hs
  | load image => exact loadImage_consistent hs ht

end Sys2Proof.Machine

/-! SUPPORT. The decoder and the encoder are inverse to each other: the fields of a word, the word of
its fields, and the decode tree branch by branch (spec/30_encoding.md R101 to R109). -/

namespace Sys2Proof

/-! ## The fields of a word, as numbers (R101) -/

theorem codeOf_toNat (w : W15) : (codeOf w).toNat = w.toNat / 0o10000 := by
  have := w.isLt
  simp only [codeOf, BitVec.extractLsb'_toNat, Nat.shiftRight_eq_div_pow]
  omega

theorem qcOf_toNat (w : W15) : (qcOf w).toNat = w.toNat / 0o2000 % 4 := by
  simp only [qcOf, BitVec.extractLsb'_toNat, Nat.shiftRight_eq_div_pow]

theorem pcOf_toNat (w : W15) : (pcOf w).toNat = w.toNat / 0o1000 % 8 := by
  simp only [pcOf, BitVec.extractLsb'_toNat, Nat.shiftRight_eq_div_pow]

theorem k12Of_toNat (w : W15) : (k12Of w).toNat = w.toNat % 0o10000 := by
  simp only [k12Of, BitVec.extractLsb'_toNat, Nat.shiftRight_zero]

theorem k10Of_toNat (w : W15) : (k10Of w).toNat = w.toNat % 0o2000 := by
  simp only [k10Of, BitVec.extractLsb'_toNat, Nat.shiftRight_zero]

theorem k9Of_toNat (w : W15) : (k9Of w).toNat = w.toNat % 0o1000 := by
  simp only [k9Of, BitVec.extractLsb'_toNat, Nat.shiftRight_zero]

/-! ## The fields of a word that a format puts together (R102) -/

@[simp] theorem codeOf_wordF12 (code : BitVec 3) (k12 : W12) : codeOf (wordF12 code k12) = code := by
  have := k12.isLt
  apply BitVec.eq_of_toNat_eq
  rw [codeOf_toNat, wordF12_toNat]
  omega

@[simp] theorem k12Of_wordF12 (code : BitVec 3) (k12 : W12) : k12Of (wordF12 code k12) = k12 := by
  have := k12.isLt
  apply BitVec.eq_of_toNat_eq
  rw [k12Of_toNat, wordF12_toNat]
  omega

/-- The quarter code of a word in format F12 is the top of its address. -/
theorem qcOf_wordF12_toNat (code : BitVec 3) (k12 : W12) :
    (qcOf (wordF12 code k12)).toNat = k12.toNat / 0o2000 := by
  have := k12.isLt
  rw [qcOf_toNat, wordF12_toNat]
  omega

@[simp] theorem codeOf_wordF10 (code : BitVec 3) (qc : BitVec 2) (k10 : W10) :
    codeOf (wordF10 code qc k10) = code := by
  have := k10.isLt
  have := qc.isLt
  apply BitVec.eq_of_toNat_eq
  rw [codeOf_toNat, wordF10_toNat]
  omega

@[simp] theorem qcOf_wordF10 (code : BitVec 3) (qc : BitVec 2) (k10 : W10) :
    qcOf (wordF10 code qc k10) = qc := by
  have := k10.isLt
  have := qc.isLt
  apply BitVec.eq_of_toNat_eq
  rw [qcOf_toNat, wordF10_toNat]
  omega

@[simp] theorem k10Of_wordF10 (code : BitVec 3) (qc : BitVec 2) (k10 : W10) :
    k10Of (wordF10 code qc k10) = k10 := by
  have := k10.isLt
  apply BitVec.eq_of_toNat_eq
  rw [k10Of_toNat, wordF10_toNat]
  omega

@[simp] theorem codeOf_wordF9 (pc : BitVec 3) (k9 : W9) : codeOf (wordF9 pc k9) = 0#3 := by
  have := k9.isLt
  have := pc.isLt
  apply BitVec.eq_of_toNat_eq
  rw [codeOf_toNat, wordF9_toNat, BitVec.toNat_ofNat]
  omega

@[simp] theorem pcOf_wordF9 (pc : BitVec 3) (k9 : W9) : pcOf (wordF9 pc k9) = pc := by
  have := k9.isLt
  have := pc.isLt
  apply BitVec.eq_of_toNat_eq
  rw [pcOf_toNat, wordF9_toNat]
  omega

@[simp] theorem k9Of_wordF9 (pc : BitVec 3) (k9 : W9) : k9Of (wordF9 pc k9) = k9 := by
  have := k9.isLt
  apply BitVec.eq_of_toNat_eq
  rw [k9Of_toNat, wordF9_toNat]
  omega

/-! ## A word is put together from its fields (R102) -/

theorem wordF12_of_fields {w : W15} {code : BitVec 3} (hcode : (codeOf w).toNat = code.toNat) :
    wordF12 code (k12Of w) = w := by
  apply BitVec.eq_of_toNat_eq
  rw [wordF12_toNat, k12Of_toNat, ← hcode, codeOf_toNat]
  omega

theorem wordF10_of_fields {w : W15} {code : BitVec 3} {qc : BitVec 2}
    (hcode : (codeOf w).toNat = code.toNat) (hqc : (qcOf w).toNat = qc.toNat) :
    wordF10 code qc (k10Of w) = w := by
  apply BitVec.eq_of_toNat_eq
  rw [wordF10_toNat, k10Of_toNat, ← hcode, ← hqc, codeOf_toNat, qcOf_toNat]
  omega

theorem wordF9_of_fields {w : W15} {pc : BitVec 3} (hcode : (codeOf w).toNat = 0)
    (hpc : (pcOf w).toNat = pc.toNat) : wordF9 pc (k9Of w) = w := by
  rw [codeOf_toNat] at hcode
  apply BitVec.eq_of_toNat_eq
  rw [wordF9_toNat, k9Of_toNat, ← hpc, pcOf_toNat]
  omega

/-! ## The well-formed address fields (R102, R104, R108) -/

theorem tc_wellFormed_iff (k12 : W12) :
    (Instr.tc k12).wellFormed = true ↔ k12.toNat ∉ literalWords := by
  simp [Instr.wellFormed]

theorem index_wellFormed_iff (k10 : W10) :
    (Instr.index k10).wellFormed = true ↔ k10.toNat ≠ 0o17 := by
  simp [Instr.wellFormed]

theorem fixedTarget_iff (k12 : W12) : fixedTarget k12 = true ↔ 0o2000 ≤ k12.toNat :=
  decide_eq_true_iff

/-- A word in format F12 has a quarter code above 0 where its target is fixed. -/
theorem qcOf_wordF12_ne_zero (code : BitVec 3) {k12 : W12} (h : fixedTarget k12 = true) :
    (qcOf (wordF12 code k12)).toNat ≠ 0 := by
  rw [fixedTarget_iff] at h
  rw [qcOf_wordF12_toNat]
  omega

/-- The target in a word whose quarter code is above 0 is fixed. -/
theorem fixedTarget_k12Of {w : W15} (h : (qcOf w).toNat ≠ 0) : fixedTarget (k12Of w) = true := by
  rw [qcOf_toNat] at h
  rw [fixedTarget_iff, k12Of_toNat]
  omega

/-! ## The literal words of basic mode (R104) -/

/-- The test is on the whole word. -/
theorem decodeTransfer_eq (w : W15) :
    decodeTransfer w =
      if w = 0#15 then .xxalq
      else if w = 1#15 then .xlq
      else if w = 2#15 then .ret
      else if w = 3#15 then .relint
      else if w = 4#15 then .inhint
      else if w = 6#15 then .extend
      else .tc (k12Of w) := by
  simp only [← BitVec.toNat_inj, BitVec.reduceToNat]
  unfold decodeTransfer
  split <;> simp_all

/-- Any other word is TC. -/
theorem decodeTransfer_of_not_literal {w : W15} (h : w.toNat ∉ literalWords) :
    decodeTransfer w = .tc (k12Of w) := by
  simp only [literalWords, List.mem_cons, List.not_mem_nil, or_false, not_or] at h
  simp [decodeTransfer_eq, ← BitVec.toNat_inj, h]

/-- Settles O3: such a word has code 0, and its low twelve bits are the word. -/
theorem literalWordsOfBasicMode : Obligations.LiteralWordsOfBasicMode := by
  unfold Obligations.LiteralWordsOfBasicMode
  intro w hw
  have hcode : (codeOf w).toNat = 0 := by rw [codeOf_toNat]; omega
  have hbasic : decode false w = decodeTransfer w := by simp [decode, decodeBasic, hcode]
  have hk12 : k12Of w = w.setWidth 12 := rfl
  rw [hbasic, decodeTransfer_eq, hk12]

/-! ## Decoding what the encoder writes -/

/-- Settles O4: each word is a closed term. -/
theorem writtenWordsDecode : Obligations.WrittenWordsDecode := by
  unfold Obligations.WrittenWordsDecode
  decide

/-- Settles O1, format by format: the decoder reads back the fields that the encoder puts together.
The hypothesis is needed for TC, INDEX and the branches to a fixed target, where a field may hold the
word of another instruction. -/
theorem decodeOfEncode : Obligations.DecodeOfEncode := by
  unfold Obligations.DecodeOfEncode
  intro i hi
  cases i with
  | xxalq | xlq | ret | relint | inhint | extend | resume => rfl
  | tc k12 =>
    have hword : (wordF12 0#3 k12).toNat = k12.toNat := by simp [wordF12_toNat]
    have hlit : (wordF12 0#3 k12).toNat ∉ literalWords := hword ▸ (tc_wellFormed_iff k12).1 hi
    simp [encode, Instr.isExtracode, decode, decodeBasic, decodeTransfer_of_not_literal hlit]
  | index k10 =>
    have hne := (index_wellFormed_iff k10).1 hi
    simp [encode, Instr.isExtracode, decode, decodeBasic, decodeIndex, hne]
  | tcf k12 =>
    have hqc := qcOf_wordF12_ne_zero 1#3 hi
    simp [encode, Instr.isExtracode, decode, decodeBasic, hqc]
  | bzf k12 =>
    have hqc := qcOf_wordF12_ne_zero 1#3 hi
    simp [encode, Instr.isExtracode, decode, decodeExtracode, hqc]
  | bzmf k12 =>
    have hqc := qcOf_wordF12_ne_zero 6#3 hi
    simp [encode, Instr.isExtracode, decode, decodeExtracode, hqc]
  | ca | cs | ad | mask | ccs | das | lxch | incr | ads | dxch | ts | xch =>
    simp [encode, Instr.isExtracode, decode, decodeBasic]
  | dca | dcs | indexTwo | mp | dv | msu | qxch | aug | dim | su =>
    simp [encode, Instr.isExtracode, decode, decodeExtracode]
  | read | write | rand | wand | ror | wor | rxor | edrupt =>
    simp [encode, Instr.isExtracode, decode, decodeExtracode, decodePeripheral]

/-! ## The last branch of the decode tree: a field that is none of the other values -/

theorem toNat_eq_three {b : BitVec 2} (h0 : b.toNat ≠ 0) (h1 : b.toNat ≠ 1) (h2 : b.toNat ≠ 2) :
    b.toNat = 3 := by
  omega

theorem toNat_eq_seven {b : BitVec 3} (h0 : b.toNat ≠ 0) (h1 : b.toNat ≠ 1) (h2 : b.toNat ≠ 2)
    (h3 : b.toNat ≠ 3) (h4 : b.toNat ≠ 4) (h5 : b.toNat ≠ 5) (h6 : b.toNat ≠ 6) :
    b.toNat = 7 := by
  omega

/-! ## The meaning of a word in a mode (R103, R109) -/

/-- `i` is an instruction of the mode `extracode` whose word is `w`. -/
def IsMeaning (extracode : Bool) (w : W15) (i : Instr) : Prop :=
  i.wellFormed = true ∧ i.isExtracode = extracode ∧ encode i = w

theorem decodeTransfer_isMeaning_of_literal :
    ∀ n ∈ literalWords,
      IsMeaning false (BitVec.ofNat 15 n) (decodeTransfer (BitVec.ofNat 15 n)) := by
  unfold IsMeaning
  decide

/-- Code 0 of basic mode (R104). -/
theorem decodeTransfer_isMeaning {w : W15} (hcode : (codeOf w).toNat = 0) :
    IsMeaning false w (decodeTransfer w) := by
  by_cases hlit : w.toNat ∈ literalWords
  · simpa using decodeTransfer_isMeaning_of_literal _ hlit
  · have hk12 : (k12Of w).toNat = w.toNat := by
      rw [codeOf_toNat] at hcode
      rw [k12Of_toNat]
      omega
    rw [decodeTransfer_of_not_literal hlit]
    exact ⟨(tc_wellFormed_iff _).2 (hk12 ▸ hlit), rfl, wordF12_of_fields hcode⟩

/-- Code 5, quarter code 0 of basic mode (R105, R108). -/
theorem decodeIndex_isMeaning {w : W15} (hcode : (codeOf w).toNat = 5)
    (hqc : (qcOf w).toNat = 0) : IsMeaning false w (decodeIndex w) := by
  have hword : wordF10 5#3 0#2 (k10Of w) = w := wordF10_of_fields hcode hqc
  unfold decodeIndex
  split
  case isTrue hbrupt =>
    have hk10 : k10Of w = 0o17#10 := BitVec.eq_of_toNat_eq hbrupt
    rw [hk10] at hword
    exact ⟨rfl, rfl, hword⟩
  case isFalse hne => exact ⟨(index_wellFormed_iff _).2 hne, rfl, hword⟩

/-- Code 0 of extracode mode (R107). -/
theorem decodePeripheral_isMeaning {w : W15} (hcode : (codeOf w).toNat = 0) :
    IsMeaning true w (decodePeripheral w) := by
  unfold decodePeripheral
  split
  case h_8 h0 h1 h2 h3 h4 h5 h6 =>
    exact ⟨rfl, rfl, wordF9_of_fields hcode (toNat_eq_seven h0 h1 h2 h3 h4 h5 h6)⟩
  all_goals exact ⟨rfl, rfl, wordF9_of_fields hcode ‹_›⟩

/-- Basic mode (R104 to R106). -/
theorem decodeBasic_isMeaning (w : W15) : IsMeaning false w (decodeBasic w) := by
  unfold decodeBasic
  split
  next hcode => exact decodeTransfer_isMeaning hcode
  next hcode =>
    split
    next hqc => exact ⟨rfl, rfl, wordF10_of_fields hcode hqc⟩
    next hqc => exact ⟨fixedTarget_k12Of hqc, rfl, wordF12_of_fields hcode⟩
  next hcode =>
    split
    next hqc => exact ⟨rfl, rfl, wordF10_of_fields hcode hqc⟩
    next hqc => exact ⟨rfl, rfl, wordF10_of_fields hcode hqc⟩
    next hqc => exact ⟨rfl, rfl, wordF10_of_fields hcode hqc⟩
    next h0 h1 h2 => exact ⟨rfl, rfl, wordF10_of_fields hcode (toNat_eq_three h0 h1 h2)⟩
  next hcode => exact ⟨rfl, rfl, wordF12_of_fields hcode⟩
  next hcode => exact ⟨rfl, rfl, wordF12_of_fields hcode⟩
  next hcode =>
    split
    next hqc => exact decodeIndex_isMeaning hcode hqc
    next hqc => exact ⟨rfl, rfl, wordF10_of_fields hcode hqc⟩
    next hqc => exact ⟨rfl, rfl, wordF10_of_fields hcode hqc⟩
    next h0 h1 h2 => exact ⟨rfl, rfl, wordF10_of_fields hcode (toNat_eq_three h0 h1 h2)⟩
  next hcode => exact ⟨rfl, rfl, wordF12_of_fields hcode⟩
  next h0 h1 h2 h3 h4 h5 h6 =>
    exact ⟨rfl, rfl, wordF12_of_fields (toNat_eq_seven h0 h1 h2 h3 h4 h5 h6)⟩

/-- Extracode mode (R107). -/
theorem decodeExtracode_isMeaning (w : W15) : IsMeaning true w (decodeExtracode w) := by
  unfold decodeExtracode
  split
  next hcode => exact decodePeripheral_isMeaning hcode
  next hcode =>
    split
    next hqc => exact ⟨rfl, rfl, wordF10_of_fields hcode hqc⟩
    next hqc => exact ⟨fixedTarget_k12Of hqc, rfl, wordF12_of_fields hcode⟩
  next hcode =>
    split
    next hqc => exact ⟨rfl, rfl, wordF10_of_fields hcode hqc⟩
    next hqc => exact ⟨rfl, rfl, wordF10_of_fields hcode hqc⟩
    next hqc => exact ⟨rfl, rfl, wordF10_of_fields hcode hqc⟩
    next h0 h1 h2 => exact ⟨rfl, rfl, wordF10_of_fields hcode (toNat_eq_three h0 h1 h2)⟩
  next hcode => exact ⟨rfl, rfl, wordF12_of_fields hcode⟩
  next hcode => exact ⟨rfl, rfl, wordF12_of_fields hcode⟩
  next hcode => exact ⟨rfl, rfl, wordF12_of_fields hcode⟩
  next hcode =>
    split
    next hqc => exact ⟨rfl, rfl, wordF10_of_fields hcode hqc⟩
    next hqc => exact ⟨fixedTarget_k12Of hqc, rfl, wordF12_of_fields hcode⟩
  next h0 h1 h2 h3 h4 h5 h6 =>
    exact ⟨rfl, rfl, wordF12_of_fields (toNat_eq_seven h0 h1 h2 h3 h4 h5 h6)⟩

/-- Settles O2, one lemma for each mode. -/
theorem encodeOfDecode : Obligations.EncodeOfDecode := by
  unfold Obligations.EncodeOfDecode
  intro x w
  cases x with
  | false => exact decodeBasic_isMeaning w
  | true => exact decodeExtracode_isMeaning w

end Sys2Proof

/-! SUPPORT. One's complement by sign and magnitude (spec/40_arithmetic_primitives.md R129 to R143): a
word, a 16-bit value and a decent value are each a sign and a magnitude, and every primitive of the
model is said once on that form. -/

namespace Sys2Proof.Machine

/-! ## Sign and magnitude -/

/-- The one's-complement form of a sign and a magnitude on `w` bits: a negative value is the complement
of its magnitude. -/
def onesComp (w : Nat) (neg : Bool) (m : Nat) : BitVec w :=
  if neg then ~~~(BitVec.ofNat w m) else BitVec.ofNat w m

/-- The integer of a sign and a magnitude; both zeros give 0. -/
def signedInt (neg : Bool) (m : Nat) : Int := if neg then -(m : Int) else m

@[simp] theorem signedInt_false (m : Nat) : signedInt false m = m := rfl

@[simp] theorem signedInt_true (m : Nat) : signedInt true m = -(m : Int) := rfl

theorem signedInt_lt_zero_iff (s : Bool) (m : Nat) : signedInt s m < 0 ↔ s = true ∧ m ≠ 0 := by
  cases s <;> simp [Nat.pos_iff_ne_zero]

theorem signedInt_eq_zero_iff (s : Bool) (m : Nat) : signedInt s m = 0 ↔ m = 0 := by
  cases s <;> simp

theorem signedInt_mul (s t : Bool) (m n : Nat) :
    signedInt s m * signedInt t n = signedInt (s ^^ t) (m * n) := by
  cases s <;> cases t <;> simp

/-- Division that truncates toward zero divides the magnitudes. -/
theorem signedInt_tdiv (s t : Bool) (m n : Nat) :
    (signedInt s m).tdiv (signedInt t n) = signedInt (s ^^ t) (m / n) := by
  cases s <;> cases t <;> simp

/-- The remainder has the sign of the dividend. -/
theorem signedInt_tmod (s t : Bool) (m n : Nat) :
    (signedInt s m).tmod (signedInt t n) = signedInt s (m % n) := by
  cases s <;> cases t <;> simp [← Int.ofNat_tmod]

theorem onesComp_toNat {w m : Nat} (s : Bool) (hm : m < 2 ^ w) :
    (onesComp w s m).toNat = if s then 2 ^ w - 1 - m else m := by
  cases s <;> simp [onesComp, Nat.mod_eq_of_lt hm]

@[simp] theorem onesComp_not (w m : Nat) (s : Bool) :
    ~~~(onesComp w s m) = onesComp w (!s) m := by
  cases s <;> simp [onesComp]

theorem onesComp_getLsbD {w m i : Nat} (s : Bool) (hi : i < w) :
    (onesComp w s m).getLsbD i = (s ^^ m.testBit i) := by
  cases s <;> simp only [onesComp, Bool.false_eq_true, if_true, if_false, BitVec.getLsbD_not,
    BitVec.getLsbD_ofNat, hi, decide_true, Bool.true_and, Bool.false_xor, Bool.true_xor]

/-- Every bit above the magnitude is the sign. -/
theorem onesComp_sign {w m i : Nat} (s : Bool) (hm : m < 2 ^ i) (hi : i < w) :
    (onesComp w s m).getLsbD i = s := by
  rw [onesComp_getLsbD s hi, Nat.testBit_lt_two_pow hm, Bool.xor_false]

theorem exists_onesComp {w : Nat} (v : BitVec (w + 1)) :
    ∃ s m, m < 2 ^ w ∧ v = onesComp (w + 1) s m := by
  have hv := v.isLt
  have hw : 2 ^ (w + 1) = 2 * 2 ^ w := by ring
  rcases Nat.lt_or_ge v.toNat (2 ^ w) with hlow | hhigh
  · refine ⟨false, v.toNat, hlow, BitVec.eq_of_toNat_eq ?_⟩
    rw [onesComp_toNat _ hv, if_neg Bool.false_ne_true]
  · refine ⟨true, 2 ^ (w + 1) - 1 - v.toNat, by omega, BitVec.eq_of_toNat_eq ?_⟩
    rw [onesComp_toNat _ (by omega), if_pos rfl]
    omega

/-- A word is a sign and 14 magnitude bits (R129). -/
theorem exists_onesComp15 (v : W15) : ∃ s m, m < 2 ^ 14 ∧ v = onesComp 15 s m := exists_onesComp v

theorem onesComp_inj {w m n : Nat} {s t : Bool} (hm : m < 2 ^ w) (hn : n < 2 ^ w) :
    onesComp (w + 1) s m = onesComp (w + 1) t n ↔ s = t ∧ m = n := by
  refine ⟨fun h => ?_, fun ⟨hs, hmn⟩ => by rw [hs, hmn]⟩
  have hlt : 2 ^ w < 2 ^ (w + 1) := Nat.pow_lt_pow_right (by omega) (by omega)
  have hsign := congrArg (fun v => v.getLsbD w) h
  have hnat := congrArg BitVec.toNat h
  simp only [onesComp_sign _ hm (Nat.lt_succ_self w), onesComp_sign _ hn (Nat.lt_succ_self w)]
    at hsign
  subst hsign
  rw [onesComp_toNat _ (by omega), onesComp_toNat _ (by omega)] at hnat
  refine ⟨rfl, ?_⟩
  split at hnat <;> omega

theorem onesComp_extractLsb' {w i k : Nat} (s : Bool) (m : Nat) (h : i + k ≤ w) :
    (onesComp w s m).extractLsb' i k = onesComp k s (m / 2 ^ i) := by
  apply BitVec.eq_of_getLsbD_eq
  intro j hj
  rw [BitVec.getLsbD_extractLsb', onesComp_getLsbD s (by omega), onesComp_getLsbD s hj,
    Nat.testBit_div_two_pow]
  simp [hj, Nat.add_comm]

/-- A sign set above the low bits of a value of that sign. -/
theorem cons_onesComp (w m : Nat) (s : Bool) :
    BitVec.cons s (onesComp w s m) = onesComp (w + 1) s (m % 2 ^ w) := by
  apply BitVec.eq_of_getLsbD_eq
  intro j hj
  rw [BitVec.getLsbD_cons, onesComp_getLsbD s hj, Nat.testBit_mod_two_pow]
  split
  next htop => simp [htop]
  next hlow =>
    have hjw : j < w := by omega
    rw [onesComp_getLsbD s hjw]
    simp [hjw]

/-! ## Masks -/

/-- A test of one bit. -/
theorem and_twoPow_ne_zero_iff {w i : Nat} (v : BitVec w) (hi : i < w) :
    v &&& BitVec.twoPow w i ≠ 0#w ↔ v.getLsbD i = true := by
  have hpow : BitVec.twoPow w i ≠ 0#w := fun h => by
    simpa [hi] using congrArg (fun x => x.getLsbD i) h
  rw [BitVec.and_twoPow]
  cases v.getLsbD i <;> simp [hpow]

theorem onesComp_and_twoPow {w m i : Nat} (s : Bool) (hm : m < 2 ^ i) (hi : i < w) :
    onesComp w s m &&& BitVec.twoPow w i = if s then BitVec.twoPow w i else 0#w := by
  rw [BitVec.and_twoPow, onesComp_sign s hm hi]

theorem onesComp_and_twoPow_ne_zero {w m i : Nat} (s : Bool) (hm : m < 2 ^ i) (hi : i < w) :
    onesComp w s m &&& BitVec.twoPow w i ≠ 0#w ↔ s = true := by
  rw [and_twoPow_ne_zero_iff _ hi, onesComp_sign s hm hi]

/-- A mask of the `k` low bits. -/
theorem toNat_and_mask {w : Nat} (v : BitVec w) {k : Nat} (hk : k ≤ w) :
    (v &&& BitVec.ofNat w (2 ^ k - 1)).toNat = v.toNat % 2 ^ k := by
  have hpow : 2 ^ k ≤ 2 ^ w := Nat.pow_le_pow_right (by omega) hk
  have hpos : 0 < 2 ^ k := Nat.two_pow_pos k
  have hlt : 2 ^ k - 1 < 2 ^ w := by omega
  rw [BitVec.toNat_and, BitVec.toNat_ofNat, Nat.mod_eq_of_lt hlt, Nat.and_two_pow_sub_one_eq_mod]

theorem toNat_onesComp_and_mask {w m k : Nat} (hm : m < 2 ^ k) (hk : k ≤ w) :
    (onesComp w false m &&& BitVec.ofNat w (2 ^ k - 1)).toNat = m := by
  have hw : m < 2 ^ w := Nat.lt_of_lt_of_le hm (Nat.pow_le_pow_right (by omega) hk)
  rw [toNat_and_mask _ hk, onesComp_toNat _ hw, if_neg Bool.false_ne_true, Nat.mod_eq_of_lt hm]

/-- Bits set above a value add to it. -/
theorem toNat_or_disjoint {w : Nat} {x y : BitVec w} {k a : Nat} (hx : x.toNat < 2 ^ k)
    (hy : y.toNat = 2 ^ k * a) : (x ||| y).toNat = y.toNat + x.toNat := by
  rw [BitVec.toNat_or, hy, Nat.or_comm, ← Nat.two_pow_add_eq_or_of_lt hx]

/-! ## Words: widening, narrowing, overflow, integers (R130 to R140) -/

theorem signExtend_eq_cons (v : W15) : signExtend v = BitVec.cons (v.getLsbD 14) v := by
  apply BitVec.eq_of_getElem_eq
  intro i hi
  simp only [signExtend, BitVec.getElem_cons]
  interval_cases i <;> simp

theorem overflowCorrect_eq_cons (v : W16) :
    overflowCorrect v = BitVec.cons (v.getLsbD 15) (v.extractLsb' 0 14) := by
  apply BitVec.eq_of_getElem_eq
  intro i hi
  simp only [overflowCorrect, BitVec.getElem_cons]
  interval_cases i <;> simp

/-- What `OVF` looks at. -/
theorem and_topBits (v : W16) : v &&& 0o140000#16 = (v.extractLsb' 14 2).setWidth 16 <<< 14 := by
  apply BitVec.eq_of_getElem_eq
  intro i hi
  interval_cases i <;> simp

theorem signExtend_onesComp (s : Bool) {m : Nat} (hm : m < 2 ^ 14) :
    signExtend (onesComp 15 s m) = onesComp 16 s m := by
  rw [signExtend_eq_cons, onesComp_sign s hm (by omega), cons_onesComp,
    Nat.mod_eq_of_lt (by omega)]

theorem overflowCorrect_onesComp (s : Bool) {m : Nat} (hm : m < 2 ^ 15) :
    overflowCorrect (onesComp 16 s m) = onesComp 15 s (m % 2 ^ 14) := by
  rw [overflowCorrect_eq_cons, onesComp_sign s hm (by omega), onesComp_extractLsb' s m (by omega),
    cons_onesComp, pow_zero, Nat.div_one]

theorem ovf_onesComp (s : Bool) {m : Nat} (hm : m < 2 ^ 15) :
    ovf (onesComp 16 s m) =
      if m < 2 ^ 14 then 0#15 else if s then 0o77776#15 else 0o00001#15 := by
  rw [ovf, and_topBits, onesComp_extractLsb' s m (by omega)]
  by_cases h : m < 2 ^ 14
  · rw [if_pos h, Nat.div_eq_of_lt h]
    cases s <;> rfl
  · rw [if_neg h, show m / 2 ^ 14 = 1 by omega]
    cases s <;> rfl

theorem ovf_onesComp_eq_zero_iff (s : Bool) {m : Nat} (hm : m < 2 ^ 15) :
    ovf (onesComp 16 s m) = 0#15 ↔ m < 2 ^ 14 := by
  rw [ovf_onesComp s hm]
  by_cases h : m < 2 ^ 14
  · simp only [h, if_true]
  · cases s <;> simp only [h, if_false, if_true, Bool.false_eq_true, iff_false] <;> decide

/-- The three values of `OVF` (R134). -/
theorem ovf_cases (v : W16) : ovf v = 0o00001#15 ∨ ovf v = 0o77776#15 ∨ ovf v = 0#15 := by
  unfold ovf
  split
  · exact .inl rfl
  · split
    · exact .inr (.inl rfl)
    · exact .inr (.inr rfl)

/-- The overflow is a word of magnitude 1 or 0. -/
theorem exists_ovf (v : W16) : ∃ t n, n ≤ 1 ∧ ovf v = onesComp 15 t n := by
  rcases ovf_cases v with h | h | h
  · exact ⟨false, 1, le_rfl, h⟩
  · exact ⟨true, 1, le_rfl, h⟩
  · exact ⟨false, 0, Nat.zero_le 1, h⟩

theorem wordToInt_onesComp (s : Bool) {m : Nat} (hm : m < 2 ^ 14) :
    wordToInt (onesComp 15 s m) = signedInt s m := by
  have hsign : onesComp 15 s m &&& 0o40000#15 ≠ 0#15 ↔ s = true :=
    onesComp_and_twoPow_ne_zero (i := 14) s hm (by omega)
  have hmag : (onesComp 15 false m &&& 0o37777#15).toNat = m :=
    toNat_onesComp_and_mask hm (by omega)
  rw [wordToInt, if_congr hsign rfl rfl, onesComp_not, BitVec.and_comm 0o37777#15]
  cases s
  · simp only [Bool.false_eq_true, if_false, signedInt_false, hmag]
  · simp only [if_true, signedInt_true, Bool.not_true, hmag]

theorem intToWord_signedInt (s : Bool) {m : Nat} (h0 : m ≠ 0) :
    intToWord (signedInt s m) = onesComp 15 s m := by
  rw [intToWord, if_congr (signedInt_lt_zero_iff s m) rfl rfl]
  cases s
  · rw [if_neg (by simp), signedInt_false]
    exact BitVec.ofInt_natCast 15 m
  · rw [if_pos ⟨rfl, h0⟩, signedInt_true, neg_neg, BitVec.ofInt_natCast]
    exact BitVec.allOnes_and

theorem onesComp15_eq_zero_iff (s : Bool) {m : Nat} (hm : m < 2 ^ 14) :
    onesComp 15 s m = 0#15 ↔ s = false ∧ m = 0 :=
  onesComp_inj (t := false) (n := 0) hm (by omega)

theorem isZero15_onesComp (s : Bool) {m : Nat} (hm : m < 2 ^ 14) :
    isZero15 (onesComp 15 s m) = decide (m = 0) := by
  have hneg : onesComp 15 s m = 0o77777#15 ↔ s = true ∧ m = 0 :=
    onesComp_inj (t := true) (n := 0) hm (by omega)
  rw [isZero15, Bool.eq_iff_iff]
  simp only [Bool.or_eq_true, beq_iff_eq, onesComp15_eq_zero_iff s hm, hneg]
  cases s <;> simp

theorem abs15_onesComp (s : Bool) {m : Nat} (hm : m < 2 ^ 14) :
    abs15 (onesComp 15 s m) = onesComp 15 false m := by
  have hsign : onesComp 15 s m &&& 0o40000#15 ≠ 0#15 ↔ s = true :=
    onesComp_and_twoPow_ne_zero (i := 14) s hm (by omega)
  rw [abs15, if_congr hsign rfl rfl, onesComp_not]
  cases s <;> rfl

theorem overflowCorrect_signExtend (v : W15) : overflowCorrect (signExtend v) = v := by
  obtain ⟨s, m, hm, rfl⟩ := exists_onesComp15 v
  rw [signExtend_onesComp s hm, overflowCorrect_onesComp s (by omega), Nat.mod_eq_of_lt hm]

/-- Settles O5: narrowing keeps a magnitude of 14 bits, and `OVF` is 0 just for those. -/
theorem overflowCorrectOfSignExtend : Obligations.OverflowCorrectOfSignExtend := by
  unfold Obligations.OverflowCorrectOfSignExtend
  refine ⟨overflowCorrect_signExtend, fun x => ?_⟩
  obtain ⟨s, m, hm, rfl⟩ := exists_onesComp (w := 15) x
  rw [overflowCorrect_onesComp s hm, signExtend_onesComp s (by omega),
    ovf_onesComp_eq_zero_iff s hm, onesComp_inj (w := 15) (by omega) hm,
    Nat.mod_eq_iff_lt (by omega)]
  exact and_iff_right rfl

end Sys2Proof.Machine

/-! SUPPORT. The adder (spec/40_arithmetic_primitives.md R133 to R135): sums of values of one sign and
of opposite signs. -/

namespace Sys2Proof.Machine

theorem add16_toNat (a b : W16) :
    (add16 a b).toNat =
      if 2 ^ 16 ≤ a.toNat + b.toNat then a.toNat + b.toNat + 1 - 2 ^ 16
      else a.toNat + b.toNat := by
  have ha := a.isLt
  have hb := b.isLt
  simp only [add16]
  split <;> rw [BitVec.toNat_ofNat] <;> split <;> omega

theorem add16_comm (a b : W16) : add16 a b = add16 b a := by
  simp only [add16, Nat.add_comm]

theorem add16_zero (v : W16) : add16 v 0#16 = v := by
  have hv := v.isLt
  apply BitVec.eq_of_toNat_eq
  rw [add16_toNat, BitVec.toNat_ofNat, if_neg (by omega)]
  rfl

theorem add16_onesComp_same (s : Bool) {m n : Nat} (h : m + n < 2 ^ 15) :
    add16 (onesComp 16 s m) (onesComp 16 s n) = onesComp 16 s (m + n) := by
  apply BitVec.eq_of_toNat_eq
  rw [add16_toNat, onesComp_toNat s (by omega), onesComp_toNat s (by omega),
    onesComp_toNat s (by omega)]
  cases s
  · simp only [Bool.false_eq_true, if_false]
    split <;> omega
  · simp only [if_true]
    split <;> omega

/-- Equal magnitudes of opposite signs give -0. -/
theorem add16_onesComp_opposite {m n : Nat} (hm : m < 2 ^ 15) (hn : n < 2 ^ 15) :
    add16 (onesComp 16 false m) (onesComp 16 true n) =
      if n < m then onesComp 16 false (m - n) else onesComp 16 true (n - m) := by
  apply BitVec.eq_of_toNat_eq
  rw [add16_toNat, onesComp_toNat false (by omega), onesComp_toNat true (by omega)]
  by_cases h : n < m
  · rw [if_pos h, onesComp_toNat false (by omega)]
    simp only [Bool.false_eq_true, if_false, if_true]
    split <;> omega
  · rw [if_neg h, onesComp_toNat true (by omega)]
    simp only [Bool.false_eq_true, if_false, if_true]
    split <;> omega

theorem exists_add16_opposite {m n : Nat} (hm : m < 2 ^ 15) (hn : n < 2 ^ 15) :
    ∃ u k, k ≤ m + n ∧ add16 (onesComp 16 false m) (onesComp 16 true n) = onesComp 16 u k ∧
      signedInt u k = signedInt false m + signedInt true n ∧ (k = 0 → u = true) := by
  rw [add16_onesComp_opposite hm hn, signedInt_false, signedInt_true]
  by_cases h : n < m
  · refine ⟨false, m - n, by omega, if_pos h, ?_, by omega⟩
    rw [signedInt_false]
    omega
  · refine ⟨true, n - m, by omega, if_neg h, ?_, fun _ => rfl⟩
    rw [signedInt_true]
    omega

/-- What the adder does to any two values whose magnitudes add up to 15 bits: the sum is exact, and a
zero sum is +0 for two positive operands alone. -/
theorem exists_add16 (s t : Bool) {m n : Nat} (h : m + n < 2 ^ 15) :
    ∃ u k, k ≤ m + n ∧ add16 (onesComp 16 s m) (onesComp 16 t n) = onesComp 16 u k ∧
      signedInt u k = signedInt s m + signedInt t n ∧ (k = 0 → u = (s || t)) := by
  cases s <;> cases t
  case false.true => exact exists_add16_opposite (by omega) (by omega)
  case true.false =>
    obtain ⟨u, k, hk, hsum, hint, hzero⟩ :=
      exists_add16_opposite (m := n) (n := m) (by omega) (by omega)
    exact ⟨u, k, by omega, by rw [add16_comm, hsum], by rw [hint, add_comm], hzero⟩
  case false.false =>
    exact ⟨false, m + n, le_rfl, add16_onesComp_same false h, Nat.cast_add m n, fun _ => rfl⟩
  case true.true =>
    refine ⟨true, m + n, le_rfl, add16_onesComp_same true h, ?_, fun _ => rfl⟩
    simp only [signedInt_true]
    omega

/-- Settles O6: the sum of two words has a magnitude of 15 bits, whose upper bit is the overflow. -/
theorem additionLaws : Obligations.AdditionLaws := by
  unfold Obligations.AdditionLaws
  intro a b
  obtain ⟨s, m, hm, rfl⟩ := exists_onesComp15 a
  obtain ⟨t, n, hn, rfl⟩ := exists_onesComp15 b
  obtain ⟨u, k, hk, hsum, hint, hzero⟩ := exists_add16 s t (m := m) (n := n) (by omega)
  have hk15 : k < 2 ^ 15 := by omega
  simp only [wordToInt_onesComp _ hm, wordToInt_onesComp _ hn, signExtend_onesComp _ hm,
    signExtend_onesComp _ hn, hsum, ← hint, onesComp15_eq_zero_iff _ hm,
    onesComp15_eq_zero_iff _ hn, overflowCorrect_onesComp u hk15, onesComp_not,
    ovf_onesComp u hk15, onesComp_sign (w := 16) u hk15 (by omega), signedInt_eq_zero_iff]
  refine ⟨fun ⟨hlow, hhigh, hne⟩ => ?_, fun h0 => ?_, fun habove => ?_, fun hbelow => ?_⟩
  · have hk14 : k < 2 ^ 14 := by
      cases u <;> simp only [signedInt_false, signedInt_true] at hlow hhigh <;> omega
    rw [intToWord_signedInt u (mt (signedInt_eq_zero_iff u k).2 hne), signExtend_onesComp u hk14]
  · obtain rfl := hzero h0
    subst h0
    cases s <;> cases t
    case false.false =>
      simp only [signedInt_false, Bool.false_or] at hint
      rw [if_pos ⟨⟨rfl, by omega⟩, rfl, by omega⟩]
      rfl
    all_goals
      rw [if_neg (by simp)]
      rfl
  · obtain rfl : u = false := by
      cases u
      · rfl
      · rw [signedInt_true] at habove
        omega
    rw [signedInt_false] at habove ⊢
    rw [if_neg (by omega), if_neg Bool.false_ne_true, onesComp_toNat false (by omega),
      if_neg Bool.false_ne_true]
    exact ⟨rfl, rfl, by omega⟩
  · obtain rfl : u = true := by
      cases u
      · rw [signedInt_false] at hbelow
        omega
      · rfl
    rw [signedInt_true] at hbelow ⊢
    rw [if_neg (by omega), Bool.not_true, onesComp_toNat false (by omega),
      if_neg Bool.false_ne_true]
    exact ⟨rfl, rfl, by omega⟩

end Sys2Proof.Machine

/-! SUPPORT. Decent values and pairs of words (spec/40_arithmetic_primitives.md R141 to R143), and the
product of two words (spec/45_arithmetic_logic.md R266). -/

namespace Sys2Proof.Machine

/-! ## From a decent value -/

theorem decentToInt_onesComp (s : Bool) {m : Nat} (hm : m < 2 ^ 28) :
    decentToInt (onesComp 30 s m) = signedInt s m := by
  have hsign : onesComp 30 s m &&& 0o2000000000#30 ≠ 0#30 ↔ s = true :=
    onesComp_and_twoPow_ne_zero (i := 28) s hm (by omega)
  have hmag : (onesComp 30 false m &&& 0o1777777777#30).toNat = m :=
    toNat_onesComp_and_mask hm (by omega)
  rw [decentToInt, if_congr hsign rfl rfl, onesComp_not, BitVec.and_comm 0o1777777777#30]
  cases s
  · simp only [Bool.false_eq_true, if_false, signedInt_false, hmag]
  · simp only [if_true, signedInt_true, Bool.not_true, hmag]

theorem decentToPair_fst (d : BitVec 30) :
    (decentToPair d).1 = BitVec.cons (d.getLsbD 29) (d.extractLsb' 14 14) := by
  have hsign : ((d >>> 14).setWidth 16).getLsbD 15 = d.getLsbD 29 := by
    rw [BitVec.getLsbD_setWidth, BitVec.getLsbD_ushiftRight]
    rfl
  have hmag : ((d >>> 14).setWidth 16).extractLsb' 0 14 = d.extractLsb' 14 14 :=
    BitVec.eq_of_toNat_eq (by simp [Nat.shiftRight_eq_div_pow])
  unfold decentToPair
  rw [overflowCorrect_eq_cons, hsign, hmag]

theorem decentToPair_snd (d : BitVec 30) :
    (decentToPair d).2 = BitVec.cons (d.getLsbD 29) (d.extractLsb' 0 14) := by
  have hsign : d &&& 0o4000000000#30 ≠ 0#30 ↔ d.getLsbD 29 = true :=
    and_twoPow_ne_zero_iff (i := 29) d (by omega)
  have hlow : ((d &&& 0o37777#30).setWidth 15 : W15).toNat = d.toNat % 2 ^ 14 := by
    have hmask : (d &&& 0o37777#30).toNat = d.toNat % 2 ^ 14 :=
      toNat_and_mask d (k := 14) (by omega)
    rw [BitVec.toNat_setWidth, hmask]
    omega
  have hset : ((d &&& 0o37777#30).setWidth 15 ||| 0o40000#15 : W15).toNat =
      0o40000 + d.toNat % 2 ^ 14 := by
    rw [toNat_or_disjoint (k := 14) (a := 1) (by omega) rfl, hlow]
    rfl
  simp only [decentToPair, hsign]
  apply BitVec.eq_of_toNat_eq
  rw [BitVec.toNat_cons', BitVec.extractLsb'_toNat]
  cases d.getLsbD 29
  · simpa using hlow
  · simpa using hset

/-- The two words of a decent value: its sign on the upper and on the lower half of its magnitude. -/
theorem decentToPair_onesComp (s : Bool) {m : Nat} (hm : m < 2 ^ 28) :
    decentToPair (onesComp 30 s m) =
      (onesComp 15 s (m / 2 ^ 14), onesComp 15 s (m % 2 ^ 14)) := by
  have hsign : (onesComp 30 s m).getLsbD 29 = s := onesComp_sign s (by omega) (by omega)
  refine Prod.ext ?_ ?_
  · rw [decentToPair_fst, hsign, onesComp_extractLsb' s m (by omega), cons_onesComp,
      Nat.mod_eq_of_lt (by omega)]
  · rw [decentToPair_snd, hsign, onesComp_extractLsb' s m (by omega), cons_onesComp, pow_zero,
      Nat.div_one]

theorem wordToInt_split (s : Bool) {m : Nat} (hm : m < 2 ^ 28) :
    wordToInt (onesComp 15 s (m / 2 ^ 14)) * 16384 + wordToInt (onesComp 15 s (m % 2 ^ 14)) =
      signedInt s m := by
  rw [wordToInt_onesComp s (by omega), wordToInt_onesComp s (by omega)]
  cases s
  · simp only [signedInt_false]
    omega
  · simp only [signedInt_true]
    omega

theorem sign_split (s : Bool) {m : Nat} (hm : m < 2 ^ 28) :
    (onesComp 15 s (m / 2 ^ 14)).getLsbD 14 = (onesComp 15 s (m % 2 ^ 14)).getLsbD 14 := by
  rw [onesComp_sign s (by omega) (by omega), onesComp_sign s (by omega) (by omega)]

/-! ## To a decent value: 29 bits, then the copy of the sign -/

theorem toNat_setWidth_onesComp29 (s : Bool) {m : Nat} (hm : m < 2 ^ 28) :
    ((onesComp 29 s m).setWidth 30).toNat = if s then 2 ^ 29 - 1 - m else m := by
  rw [BitVec.toNat_setWidth, onesComp_toNat s (by omega)]
  split <;> omega

theorem decentSign_onesComp (s : Bool) {m : Nat} (hm : m < 2 ^ 28) :
    decentSign ((onesComp 29 s m).setWidth 30) = onesComp 30 s m := by
  have hnat := toNat_setWidth_onesComp29 s hm
  have hsign : (onesComp 29 s m).setWidth 30 &&& 0o2000000000#30 ≠ 0#30 ↔ s = true := by
    refine (and_twoPow_ne_zero_iff (i := 28) _ (by omega)).trans ?_
    rw [BitVec.getLsbD_setWidth, onesComp_sign s hm (by omega)]
    simp
  rw [decentSign, if_congr hsign rfl rfl]
  apply BitVec.eq_of_toNat_eq
  rw [onesComp_toNat s (by omega)]
  cases s
  · exact hnat
  · have hset : ((onesComp 29 true m).setWidth 30 ||| 0o4000000000#30).toNat =
        (0o4000000000#30).toNat + ((onesComp 29 true m).setWidth 30).toNat :=
      toNat_or_disjoint (k := 29) (a := 1) (by rw [hnat, if_pos rfl]; omega) rfl
    rw [if_pos rfl, hset, hnat, if_pos rfl, if_pos rfl, BitVec.toNat_ofNat]
    omega

theorem intToDecent_signedInt (s : Bool) {m : Nat} (h0 : m ≠ 0) (hm : m < 2 ^ 28) :
    intToDecent (signedInt s m) = (onesComp 29 s m).setWidth 30 := by
  have hmag : 0o1777777777#30 &&& BitVec.ofNat 30 m = onesComp 30 false m := by
    apply BitVec.eq_of_toNat_eq
    rw [BitVec.and_comm, onesComp_toNat _ (by omega), if_neg Bool.false_ne_true]
    exact toNat_onesComp_and_mask (w := 30) hm (by omega)
  rw [intToDecent, if_congr (signedInt_lt_zero_iff s m) rfl rfl]
  apply BitVec.eq_of_toNat_eq
  rw [toNat_setWidth_onesComp29 s hm]
  cases s
  · rw [if_neg (by simp), signedInt_false, BitVec.ofInt_natCast, hmag,
      onesComp_toNat _ (by omega)]
    rfl
  · have hlow : (onesComp 30 true m &&& 0o3777777777#30).toNat =
        (onesComp 30 true m).toNat % 2 ^ 29 := toNat_and_mask _ (k := 29) (by omega)
    rw [if_pos ⟨rfl, h0⟩, signedInt_true, neg_neg, BitVec.ofInt_natCast, hmag, onesComp_not,
      BitVec.and_comm, Bool.not_false, hlow, onesComp_toNat _ (by omega), if_pos rfl, if_pos rfl]
    omega

/-! ## A pair of words as one sign and one magnitude (R143) -/

/-- The sign of a pair: that of the upper word, or of the lower where the upper is a zero. -/
def pairSign (s : Bool) (m : Nat) (t : Bool) : Bool := if m = 0 then t else s

/-- The magnitude of a pair: the lower word counts against an upper word of the other sign. -/
def pairMagnitude (s : Bool) (m : Nat) (t : Bool) (n : Nat) : Nat :=
  if m = 0 ∨ s = t then m * 2 ^ 14 + n else m * 2 ^ 14 - n

theorem pairMagnitude_lt {s t : Bool} {m n : Nat} (hm : m < 2 ^ 14) (hn : n < 2 ^ 14) :
    pairMagnitude s m t n < 2 ^ 28 := by
  unfold pairMagnitude
  split <;> omega

theorem pairMagnitude_eq_zero_iff {s t : Bool} {m n : Nat} (hn : n < 2 ^ 14) :
    pairMagnitude s m t n = 0 ↔ m = 0 ∧ n = 0 := by
  unfold pairMagnitude
  split <;> omega

theorem signedInt_pair {s t : Bool} {m n : Nat} (hn : n < 2 ^ 14) :
    signedInt (pairSign s m t) (pairMagnitude s m t n) =
      signedInt s m * 16384 + signedInt t n := by
  by_cases h0 : m = 0
  · subst h0
    cases s <;> simp [pairSign, pairMagnitude]
  · rw [pairSign, if_neg h0]
    by_cases hst : s = t
    · rw [pairMagnitude, if_pos (.inr hst), ← hst]
      cases s <;> simp only [signedInt_false, signedInt_true] <;> omega
    · rw [pairMagnitude, if_neg (by simp [h0, hst])]
      cases s
      · obtain rfl : t = true := by simpa using hst
        simp only [signedInt_false, signedInt_true]
        omega
      · obtain rfl : t = false := by simpa using hst
        simp only [signedInt_false, signedInt_true]
        omega

/-- One taken off a positive upper word. -/
theorem onesComp_pred {m : Nat} (h0 : m ≠ 0) (hm : m < 2 ^ 14) :
    onesComp 15 false m - 1#15 = onesComp 15 false (m - 1) := by
  simp only [onesComp, Bool.false_eq_true, if_false]
  bv_omega

/-- The lower word after the borrow from the upper one. -/
theorem onesComp_borrow {n : Nat} (hn : n < 2 ^ 14) :
    onesComp 15 true n + 0o40000#15 + 1#15 = onesComp 15 false (2 ^ 14 - n) := by
  simp only [onesComp, Bool.false_eq_true, if_false, if_true]
  bv_omega

/-- The reconciliation keeps the integer and gives both words the sign of the upper one. -/
theorem reconcileSigns_onesComp {s t : Bool} {m n : Nat} (h0 : m ≠ 0) (hm : m < 2 ^ 14)
    (hn : n < 2 ^ 14) :
    reconcileSigns (onesComp 15 s m) (onesComp 15 t n) =
      (onesComp 15 s (pairMagnitude s m t n / 2 ^ 14),
        onesComp 15 s (pairMagnitude s m t n % 2 ^ 14)) := by
  have hms : onesComp 15 s m &&& 0o40000#15 = if s then 0o40000#15 else 0#15 :=
    onesComp_and_twoPow (i := 14) s hm (by omega)
  have hls : onesComp 15 t n &&& 0o40000#15 = if t then 0o40000#15 else 0#15 :=
    onesComp_and_twoPow (i := 14) t hn (by omega)
  rw [reconcileSigns, hms, hls, isZero15_onesComp t hn]
  by_cases hst : s = t
  · subst hst
    have hdiv : (m * 2 ^ 14 + n) / 2 ^ 14 = m := by omega
    have hmod : (m * 2 ^ 14 + n) % 2 ^ 14 = n := by omega
    rw [if_neg (by simp), pairMagnitude, if_pos (.inr rfl), hdiv, hmod]
  have hmag : pairMagnitude s m t n = m * 2 ^ 14 - n := if_neg (by simp [h0, hst])
  rw [if_pos (by cases s <;> cases t <;> simp_all), hmag]
  by_cases hn0 : n = 0
  · subst hn0
    have hdiv : (m * 2 ^ 14 - 0) / 2 ^ 14 = m := by omega
    have hmod : (m * 2 ^ 14 - 0) % 2 ^ 14 = 0 := by omega
    rw [if_pos (by simp), hdiv, hmod]
    cases s <;> rfl
  · have hdiv : (m * 2 ^ 14 - n) / 2 ^ 14 = m - 1 := by omega
    have hmod : (m * 2 ^ 14 - n) % 2 ^ 14 = 2 ^ 14 - n := by omega
    rw [if_neg (by simp [hn0]), hdiv, hmod]
    cases s
    · obtain rfl : t = true := by simpa using hst
      simp [onesComp_pred h0 hm, onesComp_borrow hn]
    · obtain rfl : t = false := by simpa using hst
      simp [onesComp_pred h0 hm, onesComp_borrow hn]

/-- Two words of one sign, put side by side. -/
theorem joinPair_onesComp {s : Bool} {m : Nat} (hm : m < 2 ^ 28) :
    (0o3777740000#30 &&& ((onesComp 15 s (m / 2 ^ 14)).setWidth 30 <<< 14)) |||
      (0o37777#30 &&& (onesComp 15 s (m % 2 ^ 14)).setWidth 30) =
        (onesComp 29 s m).setWidth 30 := by
  have hmask (v : W15) : 0o3777740000#30 &&& (v.setWidth 30 <<< 14) = v.setWidth 30 <<< 14 := by
    apply BitVec.eq_of_getElem_eq
    intro i hi
    interval_cases i <;> simp
  have hhigh : ((onesComp 15 s (m / 2 ^ 14)).setWidth 30 <<< 14).toNat =
      2 ^ 14 * if s then 2 ^ 15 - 1 - m / 2 ^ 14 else m / 2 ^ 14 := by
    rw [BitVec.toNat_shiftLeft, BitVec.toNat_setWidth, onesComp_toNat s (by omega),
      Nat.shiftLeft_eq]
    split <;> omega
  have hlow : ((onesComp 15 s (m % 2 ^ 14)).setWidth 30 &&& 0o37777#30).toNat =
      if s then 2 ^ 14 - 1 - m % 2 ^ 14 else m % 2 ^ 14 := by
    refine (toNat_and_mask _ (k := 14) (by omega)).trans ?_
    rw [BitVec.toNat_setWidth, onesComp_toNat s (by omega)]
    split <;> omega
  apply BitVec.eq_of_toNat_eq
  rw [hmask, BitVec.and_comm, BitVec.or_comm,
    toNat_or_disjoint (k := 14) (by rw [hlow]; split <;> omega) hhigh, hhigh, hlow,
    toNat_setWidth_onesComp29 s hm]
  split <;> omega

/-- A 16-bit value widened to 30 bits, its sign copied up. -/
theorem widen30_onesComp {t : Bool} {n : Nat} (hn : n < 2 ^ 14) :
    (if (onesComp 16 t n).setWidth 30 &&& 0o100000#30 ≠ 0#30 then
        (onesComp 16 t n).setWidth 30 ||| 0o7777600000#30
      else (onesComp 16 t n).setWidth 30) = onesComp 30 t n := by
  have hsign : (onesComp 16 t n).setWidth 30 &&& 0o100000#30 ≠ 0#30 ↔ t = true := by
    refine (and_twoPow_ne_zero_iff (i := 15) _ (by omega)).trans ?_
    rw [BitVec.getLsbD_setWidth, onesComp_sign t (by omega) (by omega)]
    simp
  have hnat : ((onesComp 16 t n).setWidth 30).toNat = if t then 2 ^ 16 - 1 - n else n := by
    rw [BitVec.toNat_setWidth, onesComp_toNat t (by omega)]
    split <;> omega
  rw [if_congr hsign rfl rfl]
  apply BitVec.eq_of_toNat_eq
  rw [onesComp_toNat t (by omega)]
  cases t
  · exact hnat
  · have hfill := toNat_or_disjoint (x := (onesComp 16 true n).setWidth 30) (y := 0o7777600000#30)
      (k := 16) (a := 2 ^ 14 - 1) (by rw [hnat, if_pos rfl]; omega) rfl
    rw [if_pos rfl, hfill, hnat, if_pos rfl, if_pos rfl, BitVec.toNat_ofNat]
    omega

theorem pairToDecent_onesComp {s t : Bool} {m n : Nat} (hm : m < 2 ^ 14) (hn : n < 2 ^ 14) :
    pairToDecent (onesComp 15 s m) (onesComp 15 t n) =
      onesComp 30 (pairSign s m t) (pairMagnitude s m t n) := by
  have hlt := pairMagnitude_lt (s := s) (t := t) hm hn
  unfold pairToDecent
  rw [isZero15_onesComp s hm]
  by_cases h0 : m = 0
  · subst h0
    rw [signExtend_onesComp t hn]
    simp only [pairSign, pairMagnitude, decide_true, if_true, true_or, Nat.zero_mul, Nat.zero_add]
    exact widen30_onesComp hn
  · rw [reconcileSigns_onesComp h0 hm hn]
    simp only [h0, decide_false, Bool.false_eq_true, if_false]
    rw [joinPair_onesComp hlt, decentSign_onesComp s hlt, pairSign, if_neg h0]

/-- Settles O7: the decent form of a pair is its sign and magnitude, and gives two words of that sign. -/
theorem pairAndDecentAgree : Obligations.PairAndDecentAgree := by
  unfold Obligations.PairAndDecentAgree
  intro msw lsw
  obtain ⟨s, m, hm, rfl⟩ := exists_onesComp15 msw
  obtain ⟨t, n, hn, rfl⟩ := exists_onesComp15 lsw
  have hlt := pairMagnitude_lt (s := s) (t := t) hm hn
  simp only [pairToDecent_onesComp hm hn, decentToInt_onesComp _ hlt, decentToPair_onesComp _ hlt,
    wordToInt_onesComp _ hm, wordToInt_onesComp _ hn]
  exact ⟨signedInt_pair hn, wordToInt_split _ hlt, sign_split _ hlt⟩

/-! ## The product (R266) -/

theorem mul_lt_decent {m n : Nat} (hm : m < 2 ^ 14) (hn : n < 2 ^ 14) : m * n < 2 ^ 28 :=
  calc m * n < 2 ^ 14 * 2 ^ 14 := Nat.mul_lt_mul'' hm hn
    _ = 2 ^ 28 := by norm_num

theorem product_onesComp {s t : Bool} {m n : Nat} (hm : m < 2 ^ 14) (hn : n < 2 ^ 14)
    (hm0 : m ≠ 0) (hn0 : n ≠ 0) :
    product (onesComp 15 s m) (onesComp 15 t n) =
      (onesComp 15 (s ^^ t) (m * n / 2 ^ 14), onesComp 15 (s ^^ t) (m * n % 2 ^ 14)) := by
  have hlt := mul_lt_decent hm hn
  rw [product, isZero15_onesComp s hm, isZero15_onesComp t hn, if_neg (by simpa using hn0),
    if_neg (by simpa using hm0), wordToInt_onesComp s hm, wordToInt_onesComp t hn, signedInt_mul,
    intToDecent_signedInt _ (Nat.mul_ne_zero hm0 hn0) hlt, decentSign_onesComp _ hlt,
    decentToPair_onesComp _ hlt]

/-- Settles O8: the product of the magnitudes fits a decent value, which splits into two words of one
sign. -/
theorem productIsExact : Obligations.ProductIsExact := by
  unfold Obligations.ProductIsExact
  intro op other hop hother
  obtain ⟨s, m, hm, rfl⟩ := exists_onesComp15 op
  obtain ⟨t, n, hn, rfl⟩ := exists_onesComp15 other
  have hm0 : m ≠ 0 := by simpa [isZero15_onesComp s hm] using hop
  have hn0 : n ≠ 0 := by simpa [isZero15_onesComp t hn] using hother
  have hlt := mul_lt_decent hm hn
  simp only [product_onesComp hm hn hm0 hn0, wordToInt_onesComp s hm, wordToInt_onesComp t hn,
    onesComp_sign s (w := 15) hm (by omega), onesComp_sign t (w := 15) hn (by omega),
    signedInt_mul]
  exact ⟨wordToInt_split _ hlt, onesComp_sign _ (by omega) (by omega), (sign_split _ hlt).symm⟩

end Sys2Proof.Machine

/-! SUPPORT. DAS on a pair in memory (spec/45_arithmetic_logic.md R263): what the adder leaves in a word
and in the overflow, and where the two words of a pair are. -/

namespace Sys2Proof.Machine

/-! ## The overflow as a carry -/

/-- A 16-bit value is its corrected word and its overflow, weighted 2^14. -/
theorem overflow_split (s : Bool) {m : Nat} (hm : m < 2 ^ 15) :
    wordToInt (ovf (onesComp 16 s m)) * 16384 + wordToInt (overflowCorrect (onesComp 16 s m)) =
      signedInt s m := by
  rw [ovf_onesComp s hm, overflowCorrect_onesComp s hm, wordToInt_onesComp s (by omega)]
  by_cases h : m < 2 ^ 14
  · rw [if_pos h, Nat.mod_eq_of_lt h, show wordToInt 0#15 = 0 from rfl, zero_mul, zero_add]
  · have hmod : m % 2 ^ 14 = m - 2 ^ 14 := by omega
    have hpos : wordToInt 0o00001#15 = 1 := rfl
    have hneg : wordToInt 0o77776#15 = -1 := rfl
    rw [if_neg h, hmod]
    cases s
    · rw [if_neg Bool.false_ne_true, hpos, signedInt_false, signedInt_false]
      omega
    · rw [if_pos rfl, hneg, signedInt_true, signedInt_true]
      omega

theorem overflowSign_eq (v : W16) : overflowSign v = signExtend (ovf v) := by
  unfold overflowSign
  rcases ovf_cases v with h | h | h <;> rw [h] <;> rfl

theorem carryOverflow_eq (msw lsw : W16) :
    carryOverflow msw lsw = add16 msw (signExtend (ovf lsw)) := by
  unfold carryOverflow
  rcases ovf_cases lsw with h | h | h
  · rw [if_pos h, h, show signExtend 0o00001#15 = 0o000001#16 from rfl]
  · rw [if_neg (by rw [h]; decide), if_pos h, h,
      show signExtend 0o77776#15 = 0o177776#16 from rfl]
  · rw [if_neg (by rw [h]; decide), if_neg (by rw [h]; decide), h,
      show signExtend 0#15 = 0#16 from rfl, add16_zero]

/-- The lower sum of DAS, of the words in L and in memory. -/
def dasLow (y yl : W15) : W16 := add16 (signExtend y) (signExtend yl)

/-- The upper sum of DAS, of the words in A and in memory, with the carry of the lower sum. -/
def dasHigh (x xh y yl : W15) : W16 :=
  carryOverflow (add16 (signExtend x) (signExtend xh)) (dasLow y yl)

theorem dasLow_split (y yl : W15) :
    wordToInt (ovf (dasLow y yl)) * 16384 + wordToInt (overflowCorrect (dasLow y yl)) =
      wordToInt y + wordToInt yl := by
  obtain ⟨s, m, hm, rfl⟩ := exists_onesComp15 y
  obtain ⟨t, n, hn, rfl⟩ := exists_onesComp15 yl
  obtain ⟨u, k, hk, hsum, hint, -⟩ := exists_add16 s t (m := m) (n := n) (by omega)
  rw [dasLow, signExtend_onesComp s hm, signExtend_onesComp t hn, hsum,
    overflow_split u (by omega), hint, wordToInt_onesComp s hm, wordToInt_onesComp t hn]

/-- The two additions of the upper half stay within 15 bits of magnitude: 2 * 16383 + 1. -/
theorem dasHigh_split (x xh y yl : W15) :
    wordToInt (ovf (dasHigh x xh y yl)) * 16384 +
        wordToInt (overflowCorrect (dasHigh x xh y yl)) =
      wordToInt x + wordToInt xh + wordToInt (ovf (dasLow y yl)) := by
  obtain ⟨s, m, hm, rfl⟩ := exists_onesComp15 x
  obtain ⟨t, n, hn, rfl⟩ := exists_onesComp15 xh
  obtain ⟨c, e, he, hovf⟩ := exists_ovf (dasLow y yl)
  obtain ⟨u, k, hk, hsum, hint, -⟩ := exists_add16 s t (m := m) (n := n) (by omega)
  obtain ⟨u', k', hk', hsum', hint', -⟩ := exists_add16 u c (m := k) (n := e) (by omega)
  rw [dasHigh, carryOverflow_eq, hovf, signExtend_onesComp s hm, signExtend_onesComp t hn, hsum,
    signExtend_onesComp c (by omega), hsum', overflow_split u' (by omega), hint', hint,
    wordToInt_onesComp s hm, wordToInt_onesComp t hn, wordToInt_onesComp c (by omega)]

/-! ## The two cells of a pair -/

/-- In every erasable window the low eight bits of the address are the offset. -/
theorem resolve_ram_offset (s : State) {d : W12} (hlow : 0o60 < d.toNat)
    (hhigh : d.toNat ≤ 0o1777) :
    ∃ bank, resolve s d = .ram bank (BitVec.ofNat 8 (d.toNat % 0o400)) := by
  rcases Nat.lt_or_ge d.toNat 0o1400 with hu | hs
  · exact ⟨_, resolve_erasable s hlow (by omega)⟩
  · exact ⟨_, resolve_switched s hs hhigh⟩

/-- The words of a pair are two cells, even across the border of a window. -/
theorem resolve_ne_of_succ (s : State) {d f : W12} (hf : 0o60 < f.toNat) (hd : d.toNat ≤ 0o1777)
    (h : f.toNat + 1 = d.toNat) : resolve s d ≠ resolve s f := by
  obtain ⟨bank, hbank⟩ := resolve_ram_offset s (d := d) (by omega) hd
  obtain ⟨bank', hbank'⟩ := resolve_ram_offset s hf (by omega)
  rw [hbank, hbank']
  intro heq
  injection heq with _ hoff
  have hnat := congrArg BitVec.toNat hoff
  rw [BitVec.toNat_ofNat, BitVec.toNat_ofNat] at hnat
  omega

/-- A 16-bit store to an erasable cell leaves the corrected word. -/
theorem memRead_wr16_ram (s : State) {d : W12} (v : W16) (hlow : 0o60 < d.toNat)
    (hhigh : d.toNat ≤ 0o1777) : (memRead (wr16 s d v) d).setWidth 15 = overflowCorrect v := by
  rw [memRead_wr16 s v hhigh]
  unfold readBack16 readBack
  rw [if_neg (by omega), if_neg (by omega), if_neg (by omega), if_neg (by omega), if_neg (by omega),
    if_neg (by omega), if_neg (by omega), if_pos hhigh, ← setWidth_setWidth_eq_mask]
  simp

/-- A 16-bit store to an erasable cell leaves every other place. -/
theorem memRead_wr16_other (s : State) {d f : W12} (v : W16) (hlow : 0o60 < f.toNat)
    (hhigh : f.toNat ≤ 0o1777) (h : resolve s d ≠ resolve s f) :
    memRead (wr16 s f v) d = memRead s d := by
  obtain ⟨heb, hfb⟩ := wr16_banks s v hlow
  obtain ⟨bank, offset, hram⟩ := resolve_ram s hlow hhigh
  refine memRead_congr heb hfb (by simp) (wr16_keeps s f v _ ?_)
  rw [storedPlaces, hram]
  simpa [writtenPlaces, hram] using h

/-- DAS above the registers, with no overflow in A and L: the two sums are stored, lower first. -/
theorem exec_das_memory {f : W10} {s : State} {x y xh yl : W15} (hf : 0o61 < f.toNat)
    (hx : s.a = signExtend x) (hy : s.l = signExtend y)
    (hxh : (memRead s (f.setWidth 12 - 1#12)).setWidth 15 = xh)
    (hyl : (memRead s (f.setWidth 12)).setWidth 15 = yl) :
    exec (.das f) s = .next
      (wr16 (wr16 { beginExecute s with a := overflowSign (dasHigh x xh y yl), l := 0#16 }
          (f.setWidth 12) (foldOverflow (dasLow y yl)))
        (f.setWidth 12 - 1#12) (dasHigh x xh y yl)) := by
  have hlower : rd16 (beginExecute s) (f.setWidth 12) = signExtend yl := by
    rw [rd16_beginExecute s (by bv_omega), rd16_of_not_wide s (by bv_omega), hyl]
  have hupper : rd16 (beginExecute s) (f.setWidth 12 - 1#12) = signExtend xh := by
    rw [rd16_beginExecute s (by bv_omega), rd16_of_not_wide s (by bv_omega), hxh]
  have h0 : f ≠ 0#10 := by bv_omega
  have h1 : f ≠ 1#10 := by bv_omega
  simp only [exec, execDas, erasable, pairFirst, if_neg h0, if_neg h1, beginExecute_a,
    beginExecute_l, hx, hy, hlower, hupper, dasHigh, dasLow]

/-- Settles O33: each half is its stored word and an overflow, the lower one carried, the upper one
left in A. -/
theorem dasAddsDoublePrecision : Obligations.DasAddsDoublePrecision := by
  unfold Obligations.DasAddsDoublePrecision
  intro f s x y hf hx hy
  refine ⟨_, exec_das_memory hf hx hy rfl rfl, ?_⟩
  have hlow : 0o60 < (f.setWidth 12 - 1#12 : W12).toNat := by bv_omega
  have hhigh : (f.setWidth 12 : W12).toNat ≤ 0o1777 := by bv_omega
  have hsucc : (f.setWidth 12 - 1#12 : W12).toNat + 1 = (f.setWidth 12 : W12).toNat := by bv_omega
  have hupper0 : (f.setWidth 12 - 1#12 : W12) ≠ 0#12 := by bv_omega
  have hlower0 : (f.setWidth 12 : W12) ≠ 0#12 := by bv_omega
  simp only
  rw [wr16_a_of_ne _ _ hupper0, wr16_a_of_ne _ _ hlower0, overflowSign_eq,
    overflowCorrect_signExtend, memRead_wr16_ram _ _ hlow (by omega),
    memRead_wr16_other _ _ hlow (by omega) (resolve_ne_of_succ _ hlow hhigh hsucc),
    memRead_wr16_ram _ _ (by omega) hhigh, foldOverflow, overflowCorrect_signExtend]
  generalize (memRead s (f.setWidth 12 - 1#12)).setWidth 15 = xh
  generalize (memRead s (f.setWidth 12)).setWidth 15 = yl
  have hlower := dasLow_split y yl
  have hupper := dasHigh_split x xh y yl
  omega

end Sys2Proof.Machine

/-! SUPPORT. The divide procedure (spec/46_divide.md R291) as a restoring division of magnitudes: the
remainder is kept as a negative value, the bits of the lower magnitude wait in the quotient word. -/

namespace Sys2Proof.Machine

/-! ## One iteration (R291, step 6) -/

/-- The shift of the remainder, its sign bit kept. -/
theorem shiftRemainder_onesComp {r : Nat} (hr : r < 2 ^ 14) :
    0o100000#16 ||| ((onesComp 16 true r &&& 0o037777#16) <<< 1) =
      onesComp 16 true (2 * r + 1) := by
  have hlow : (onesComp 16 true r &&& 0o037777#16).toNat = 2 ^ 14 - 1 - r := by
    refine (toNat_and_mask _ (k := 14) (by omega)).trans ?_
    rw [onesComp_toNat _ (by omega), if_pos rfl]
    omega
  have hshift : ((onesComp 16 true r &&& 0o037777#16) <<< 1).toNat = 2 * (2 ^ 14 - 1 - r) := by
    rw [BitVec.toNat_shiftLeft, hlow, Nat.shiftLeft_eq]
    omega
  have hor := toNat_or_disjoint (x := (onesComp 16 true r &&& 0o037777#16) <<< 1)
    (y := 0o100000#16) (k := 15) (a := 1) (by rw [hshift]; omega) rfl
  apply BitVec.eq_of_toNat_eq
  rw [BitVec.or_comm, hor, hshift, onesComp_toNat _ (by omega), if_pos rfl, BitVec.toNat_ofNat]
  omega

theorem onesComp_double_or_one {r : Nat} (hr : r < 2 ^ 14) :
    onesComp 16 true (2 * r + 1) ||| 1#16 = onesComp 16 true (2 * r) := by
  have hnat : (onesComp 16 true (2 * r + 1)).toNat = 2 ^ 1 * (2 ^ 15 - 1 - r) := by
    rw [onesComp_toNat _ (by omega), if_pos rfl]
    omega
  apply BitVec.eq_of_toNat_eq
  rw [BitVec.or_comm, toNat_or_disjoint (k := 1) (by decide) hnat, hnat,
    onesComp_toNat _ (by omega), if_pos rfl, BitVec.toNat_ofNat]
  omega

theorem shiftQuotient_ofNat (q : Nat) : BitVec.ofNat 16 q <<< 1 = BitVec.ofNat 16 (2 * q) := by
  apply BitVec.eq_of_toNat_eq
  rw [BitVec.toNat_shiftLeft, BitVec.toNat_ofNat, BitVec.toNat_ofNat, Nat.shiftLeft_eq]
  omega

theorem double_or_one_ofNat (q : Nat) :
    BitVec.ofNat 16 (2 * q) ||| 1#16 = BitVec.ofNat 16 (2 * q + 1) := by
  have hnat : (BitVec.ofNat 16 (2 * q)).toNat = 2 ^ 1 * (q % 2 ^ 15) := by
    rw [BitVec.toNat_ofNat]
    omega
  apply BitVec.eq_of_toNat_eq
  rw [BitVec.or_comm, toNat_or_disjoint (k := 1) (by decide) hnat, hnat, BitVec.toNat_ofNat,
    BitVec.toNat_ofNat]
  omega

/-- The bit that the shift of the quotient brings to the top. -/
theorem topBit_ofNat (q : Nat) :
    BitVec.ofNat 16 (2 * q) &&& 0o100000#16 ≠ 0#16 ↔ q / 2 ^ 14 % 2 = 1 := by
  refine (and_twoPow_ne_zero_iff (i := 15) _ (by omega)).trans ?_
  rw [BitVec.getLsbD_ofNat, Nat.testBit_eq_decide_div_mod_eq]
  simp only [Nat.reduceLT, decide_true, Bool.true_and, decide_eq_true_eq]
  omega

/-- One iteration brings the next bit of the dividend to the remainder `r`, and takes the divisor `d`
off where it goes. -/
theorem divideIteration_onesComp {d r : Nat} (hd : d < 2 ^ 14) (hr : r < 2 ^ 14) (q : Nat) :
    divideIteration (onesComp 16 false d) (BitVec.ofNat 16 q, onesComp 16 true r) =
      if d ≤ 2 * r + q / 2 ^ 14 % 2 then
        (BitVec.ofNat 16 (2 * q + 1), onesComp 16 true (2 * r + q / 2 ^ 14 % 2 - d))
      else (BitVec.ofNat 16 (2 * q), onesComp 16 true (2 * r + q / 2 ^ 14 % 2)) := by
  have hsign : onesComp 16 true r &&& 0o100000#16 = 0o100000#16 :=
    onesComp_and_twoPow (i := 15) true (by omega) (by omega)
  have hrem : (if BitVec.ofNat 16 (2 * q) &&& 0o100000#16 = 0#16 then onesComp 16 true (2 * r)
      else onesComp 16 true (2 * r + 1)) = onesComp 16 true (2 * r + q / 2 ^ 14 % 2) := by
    by_cases htop : q / 2 ^ 14 % 2 = 1
    · rw [if_neg ((topBit_ofNat q).2 htop), htop]
    · rw [if_pos (not_not.1 (mt (topBit_ofNat q).1 htop)),
        show q / 2 ^ 14 % 2 = 0 by omega, Nat.add_zero]
  have hbit : q / 2 ^ 14 % 2 < 2 := Nat.mod_lt _ (by omega)
  simp only [divideIteration, shiftQuotient_ofNat, hsign, shiftRemainder_onesComp hr,
    show 0o100000#16 >>> 15 = 1#16 from rfl, onesComp_double_or_one hr, hrem, double_or_one_ofNat,
    add16_comm _ (onesComp 16 false d)]
  generalize q / 2 ^ 14 % 2 = b at hbit ⊢
  rw [add16_onesComp_opposite (by omega) (by omega)]
  by_cases hle : d ≤ 2 * r + b
  · have hneg : onesComp 16 true (2 * r + b - d) &&& 0o100000#16 ≠ 0#16 :=
      (onesComp_and_twoPow_ne_zero (i := 15) true (by omega) (by omega)).2 rfl
    rw [if_neg (Nat.not_lt.2 hle), if_pos hneg, if_pos hle]
  · have hpos : ¬onesComp 16 false (d - (2 * r + b)) &&& 0o100000#16 ≠ 0#16 := fun h =>
      Bool.false_ne_true ((onesComp_and_twoPow_ne_zero (i := 15) false (by omega) (by omega)).1 h)
    rw [if_pos (Nat.lt_of_not_le hle), if_neg hpos, if_neg hle]

/-! ## The iterations -/

/-- What `n` more iterations divide: the remainder, and below it the next `n` bits of the quotient
word, from bit 14 down. -/
def pendingDividend (n q r : Nat) : Nat := r * 2 ^ n + q % 2 ^ 15 / 2 ^ (15 - n)

theorem pendingDividend_zero (q r : Nat) : pendingDividend 0 q r = r := by
  unfold pendingDividend
  omega

theorem pendingDividend_add (n q r d : Nat) :
    pendingDividend n q (r + d) = pendingDividend n q r + d * 2 ^ n := by
  unfold pendingDividend
  ring

/-- A shift keeps what is to be divided, whatever bit `e` comes in below. -/
theorem pendingDividend_succ {n : Nat} (hn : n ≤ 14) (q r : Nat) {e : Nat} (he : e < 2) :
    pendingDividend (n + 1) q r = pendingDividend n (2 * q + e) (2 * r + q / 2 ^ 14 % 2) := by
  have hpow : 2 ^ 14 = 2 ^ n * 2 ^ (14 - n) := by rw [← pow_add, Nat.add_sub_of_le hn]
  have hnew : (2 * q + e) % 2 ^ 15 / 2 ^ (15 - n) = q % 2 ^ 14 / 2 ^ (14 - n) := by
    rw [show 15 - n = 14 - n + 1 by omega, pow_succ' 2 (14 - n), ← Nat.div_div_eq_div_mul]
    congr 1
    omega
  have hold : q % 2 ^ 15 / 2 ^ (15 - (n + 1)) =
      q / 2 ^ 14 % 2 * 2 ^ n + q % 2 ^ 14 / 2 ^ (14 - n) := by
    rw [show q % 2 ^ 15 = q % 2 ^ 14 + 2 ^ (14 - n) * (q / 2 ^ 14 % 2 * 2 ^ n) by
        rw [mul_left_comm, mul_comm (2 ^ (14 - n)), ← hpow]
        omega,
      show 15 - (n + 1) = 14 - n by omega, Nat.add_mul_div_left _ _ (Nat.two_pow_pos _), add_comm]
  rw [pendingDividend, pendingDividend, hnew, hold]
  ring

/-- With the remainder below the divisor, the iterations divide what is pending. -/
theorem divideIterate_of_lt {d : Nat} (hd : d < 2 ^ 14) {n : Nat} (hn : n ≤ 15) (q : Nat)
    {r : Nat} (hr : r < d) :
    divideIterate (onesComp 16 false d) n (BitVec.ofNat 16 q, onesComp 16 true r) =
      (BitVec.ofNat 16 (q * 2 ^ n + pendingDividend n q r / d),
        onesComp 16 true (pendingDividend n q r % d)) := by
  induction n generalizing q r with
  | zero =>
    rw [pendingDividend_zero, Nat.div_eq_of_lt hr, Nat.mod_eq_of_lt hr, pow_zero, mul_one, add_zero]
    rfl
  | succ n ih =>
    have hbit : q / 2 ^ 14 % 2 < 2 := Nat.mod_lt _ (by omega)
    rw [divideIterate, divideIteration_onesComp hd (by omega)]
    by_cases hle : d ≤ 2 * r + q / 2 ^ 14 % 2
    · have htake : pendingDividend (n + 1) q r =
          pendingDividend n (2 * q + 1) (2 * r + q / 2 ^ 14 % 2 - d) + d * 2 ^ n := by
        rw [← pendingDividend_add, Nat.sub_add_cancel hle,
          ← pendingDividend_succ (by omega) q r (by omega)]
      rw [if_pos hle, ih (by omega) _ (by omega), htake, Nat.add_mul_div_left _ _ (by omega),
        Nat.add_mul_mod_self_left]
      congr 2
      ring
    · have hkeep : pendingDividend (n + 1) q r =
          pendingDividend n (2 * q) (2 * r + q / 2 ^ 14 % 2) :=
        pendingDividend_succ (e := 0) (by omega) q r (by omega)
      rw [if_neg hle, ih (by omega) _ (by omega), hkeep]
      congr 2
      ring

/-- With the remainder equal to the divisor and zeros pending, every iteration takes the divisor off and
finds the same remainder. -/
theorem divideIterate_of_tie {d : Nat} (hd : d < 2 ^ 14) (n q : Nat)
    (hq : (q + 1) * 2 ^ n ≤ 2 ^ 15) :
    divideIterate (onesComp 16 false d) n (BitVec.ofNat 16 q, onesComp 16 true d) =
      (BitVec.ofNat 16 ((q + 1) * 2 ^ n - 1), onesComp 16 true d) := by
  induction n generalizing q with
  | zero => simp [divideIterate]
  | succ n ih =>
    have hstep : (2 * q + 1 + 1) * 2 ^ n = (q + 1) * 2 ^ (n + 1) := by ring
    have hq14 : q < 2 ^ 14 := by
      have hpos := Nat.two_pow_pos n
      nlinarith only [hq, hpos, pow_succ 2 n]
    rw [divideIterate, divideIteration_onesComp hd hd, Nat.div_eq_of_lt hq14, if_pos (by omega),
      show 2 * d + 0 % 2 - d = d by omega, ih _ (by omega), hstep]

/-! ## The preparation (R291, steps 1 to 5) -/

/-- The sign bit of a 16-bit value. -/
def signBit (s : Bool) : W16 := if s then 0o100000#16 else 0#16

theorem onesComp_and_signBit (s : Bool) {m : Nat} (hm : m < 2 ^ 15) :
    onesComp 16 s m &&& 0o100000#16 = signBit s :=
  onesComp_and_twoPow (i := 15) s hm (by omega)

theorem signBit_inj {s t : Bool} : signBit s = signBit t ↔ s = t := by
  cases s <;> cases t <;> decide

theorem signBit_eq_zero_iff {s : Bool} : signBit s = 0#16 ↔ s = false := signBit_inj (t := false)

/-- The lower word with its bias of 2^14, `neg` where its sign is not the dividend's. -/
def biasedLow (neg : Bool) (n : Nat) : Nat :=
  if neg = true ∧ n ≠ 0 then 2 ^ 14 - n else 2 ^ 14 + n

theorem biasedLow_lt (neg : Bool) {n : Nat} (hn : n < 2 ^ 14) : biasedLow neg n < 2 ^ 15 := by
  unfold biasedLow
  split <;> omega

theorem add16_bias (neg : Bool) {n : Nat} (hn : n < 2 ^ 14) :
    add16 (onesComp 16 neg n) 0o040000#16 = onesComp 16 false (biasedLow neg n) := by
  have hbias : 0o040000#16 = onesComp 16 false (2 ^ 14) := rfl
  rw [hbias]
  cases neg
  · rw [add16_onesComp_same false (by omega), biasedLow, if_neg (by simp), Nat.add_comm]
  · rw [add16_comm, add16_onesComp_opposite (by omega) (by omega), if_pos hn, biasedLow]
    by_cases h0 : n = 0
    · subst h0
      rfl
    · rw [if_pos ⟨rfl, h0⟩]

theorem topBits_ne_bias_iff {k : Nat} (hk : k < 2 ^ 15) :
    onesComp 16 false k &&& 0o140000#16 ≠ 0o040000#16 ↔ k < 2 ^ 14 := by
  rw [and_topBits, onesComp_extractLsb' false k (by omega)]
  by_cases h : k < 2 ^ 14
  · rw [Nat.div_eq_of_lt h, iff_true_right h]
    decide
  · rw [show k / 2 ^ 14 = 1 by omega, iff_false_right h]
    decide

/-- The bias is lost just where the lower word counts against the upper one, which then pays 1: so the
biased word holds the lower half of the pair's magnitude. -/
theorem biasedLow_cases (s t : Bool) (m : Nat) {n : Nat} (hn : n < 2 ^ 14) :
    let k := biasedLow (t ^^ pairSign s m t) n
    let p := pairMagnitude s m t n
    (k < 2 ^ 14 ∧ m ≠ 0 ∧ p / 2 ^ 14 = m - 1 ∧ p % 2 ^ 14 = k) ∨
      (2 ^ 14 ≤ k ∧ p / 2 ^ 14 = m ∧ p % 2 ^ 14 = k - 2 ^ 14) := by
  by_cases hagree : m = 0 ∨ s = t
  · have hsign : pairSign s m t = t := by
      unfold pairSign
      split
      · rfl
      · exact hagree.resolve_left ‹_›
    simp only [hsign, Bool.xor_self, biasedLow, Bool.false_eq_true, false_and, if_false,
      pairMagnitude, if_pos hagree]
    omega
  · obtain ⟨h0, hst⟩ := not_or.1 hagree
    have hsign : (t ^^ pairSign s m t) = true := by
      rw [pairSign, if_neg h0]
      exact bne_iff_ne.2 (Ne.symm hst)
    simp only [hsign, biasedLow, true_and, pairMagnitude, if_neg hagree]
    split <;> omega

/-- One added to a negative upper word. -/
theorem onesComp_succ {m : Nat} (h0 : m ≠ 0) (hm : m < 2 ^ 14) :
    add16 (onesComp 16 true m) 0o000001#16 = onesComp 16 true (m - 1) := by
  rw [show 0o000001#16 = onesComp 16 false 1 from rfl, add16_comm,
    add16_onesComp_opposite (by omega) (by omega), if_neg (by omega)]

theorem rotateLow_onesComp {k : Nat} (hk : k < 2 ^ 15) :
    signBit false ||| ((onesComp 16 false k &&& 0o037777#16) <<< 1) ||| signBit false >>> 15 =
      BitVec.ofNat 16 (2 * (k % 2 ^ 14)) := by
  have hlow : (onesComp 16 false k &&& 0o037777#16).toNat = k % 2 ^ 14 := by
    refine (toNat_and_mask _ (k := 14) (by omega)).trans ?_
    rw [onesComp_toNat _ (by omega), if_neg Bool.false_ne_true]
  rw [show signBit false = 0#16 from rfl, BitVec.zero_or, BitVec.zero_ushiftRight, BitVec.or_zero]
  apply BitVec.eq_of_toNat_eq
  rw [BitVec.toNat_shiftLeft, hlow, Nat.shiftLeft_eq, BitVec.toNat_ofNat, Nat.mul_comm, pow_one]

/-- The setup of the procedure on three words without overflow: the signs, the magnitude of the divisor,
and the two halves of the dividend's magnitude. -/
theorem divideSetup_onesComp {s t u : Bool} {m n d : Nat} (hm : m < 2 ^ 14) (hn : n < 2 ^ 14)
    (hd : d < 2 ^ 14) :
    divideSetup (onesComp 16 s m) (onesComp 16 t n) (onesComp 16 u d) =
      { dividendSign := signBit (pairSign s m t)
        divisorSign := signBit u
        lowSign := 0#16
        divisor := onesComp 16 false d
        remainder := onesComp 16 true (pairMagnitude s m t n / 2 ^ 14)
        quotient := BitVec.ofNat 16 (2 * (pairMagnitude s m t n % 2 ^ 14)) } := by
  have hupper : (if signBit s = 0#16 then ~~~(onesComp 16 s m) else onesComp 16 s m) =
      onesComp 16 true m := by
    cases s <;> simp [signBit_eq_zero_iff]
  have hzero : onesComp 16 true m = 0o177777#16 ↔ m = 0 :=
    (onesComp_inj (w := 15) (t := true) (n := 0) (by omega) (by omega)).trans (and_iff_right rfl)
  have hsign : (if m = 0 then signBit t else signBit s) = signBit (pairSign s m t) := by
    unfold pairSign
    split <;> rfl
  have hlower : (if signBit (pairSign s m t) ≠ 0#16 then ~~~(onesComp 16 t n)
      else onesComp 16 t n) = onesComp 16 (t ^^ pairSign s m t) n := by
    cases pairSign s m t <;> simp [signBit_eq_zero_iff]
  have hdivisor : (if signBit u ≠ 0#16 then ~~~(onesComp 16 u d) else onesComp 16 u d) =
      onesComp 16 false d := by
    cases u <;> simp [signBit_eq_zero_iff]
  have hbiased := biasedLow_lt (t ^^ pairSign s m t) hn
  simp only [divideSetup, onesComp_and_signBit s (m := m) (by omega),
    onesComp_and_signBit t (m := n) (by omega), onesComp_and_signBit u (m := d) (by omega), hupper,
    hzero, hsign, hlower, hdivisor, add16_bias _ hn, topBits_ne_bias_iff hbiased,
    onesComp_and_signBit false hbiased, rotateLow_onesComp hbiased]
  rcases biasedLow_cases s t m hn with ⟨hk, h0, hdiv, hmod⟩ | ⟨hk, hdiv, hmod⟩
  · rw [if_pos hk, onesComp_succ h0 hm, hdiv, hmod, Nat.mod_eq_of_lt hk]
    rfl
  · have hdrop : biasedLow (t ^^ pairSign s m t) n % 2 ^ 14 =
        biasedLow (t ^^ pairSign s m t) n - 2 ^ 14 := by omega
    rw [if_neg (Nat.not_lt.2 hk), hdiv, hmod, hdrop]
    rfl

/-! ## The procedure, and its law in range (R293) -/

/-- The signs that the procedure gives to what its iterations leave. -/
theorem divSim_onesComp {s t u : Bool} {m n d q r : Nat} (hm : m < 2 ^ 14) (hn : n < 2 ^ 14)
    (hd : d < 2 ^ 14)
    (hrun : divideIterate (onesComp 16 false d) 14
        (BitVec.ofNat 16 (2 * (pairMagnitude s m t n % 2 ^ 14)),
          onesComp 16 true (pairMagnitude s m t n / 2 ^ 14)) =
      (BitVec.ofNat 16 q, onesComp 16 true r)) :
    divSim (onesComp 16 s m) (onesComp 16 t n) (onesComp 16 u d) =
      (onesComp 16 (pairSign s m t ^^ u) (q % 2 ^ 15), onesComp 16 (pairSign s m t) r) := by
  have hmask : 0#16 ||| (BitVec.ofNat 16 q &&& 0o077777#16) = onesComp 16 false (q % 2 ^ 15) := by
    apply BitVec.eq_of_toNat_eq
    rw [BitVec.zero_or, onesComp_toNat _ (by omega), if_neg Bool.false_ne_true]
    refine (toNat_and_mask _ (k := 15) (by omega)).trans ?_
    rw [BitVec.toNat_ofNat]
    omega
  simp only [divSim, divideSetup_onesComp hm hn hd, hrun, hmask, onesComp_not, Bool.not_false,
    Bool.not_true, ne_eq, signBit_inj, signBit_eq_zero_iff]
  cases pairSign s m t <;> cases u <;> rfl

theorem quotient_lt {p d : Nat} (h : p / 2 ^ 14 < d) : p / d < 2 ^ 14 :=
  Nat.div_lt_of_lt_mul (by omega)

theorem divSim_inRange {s t u : Bool} {m n d : Nat} (hm : m < 2 ^ 14) (hn : n < 2 ^ 14)
    (hd : d < 2 ^ 14) (hlt : pairMagnitude s m t n / 2 ^ 14 < d) :
    divSim (onesComp 16 s m) (onesComp 16 t n) (onesComp 16 u d) =
      (onesComp 16 (pairSign s m t ^^ u) (pairMagnitude s m t n / d),
        onesComp 16 (pairSign s m t) (pairMagnitude s m t n % d)) := by
  have hpending : pendingDividend 14 (2 * (pairMagnitude s m t n % 2 ^ 14))
      (pairMagnitude s m t n / 2 ^ 14) = pairMagnitude s m t n := by
    unfold pendingDividend
    omega
  have hquot := quotient_lt hlt
  rw [divSim_onesComp hm hn hd (divideIterate_of_lt hd (by omega) _ hlt), hpending]
  generalize pairMagnitude s m t n / d = quot at hquot
  congr 2
  omega

theorem divSim_tie {s t u : Bool} {m n d : Nat} (hm : m < 2 ^ 14) (hn : n < 2 ^ 14)
    (hd : d < 2 ^ 14) (htie : pairMagnitude s m t n = d * 2 ^ 14) :
    divSim (onesComp 16 s m) (onesComp 16 t n) (onesComp 16 u d) =
      (onesComp 16 (pairSign s m t ^^ u) 0o37777, onesComp 16 (pairSign s m t) d) := by
  refine divSim_onesComp (q := 2 ^ 14 - 1) hm hn hd ?_
  rw [htie, Nat.mul_mod_left, Nat.mul_div_cancel _ (by omega)]
  exact divideIterate_of_tie hd 14 0 (by omega)

/-- The greatest magnitude, with the sign of a quotient. -/
theorem greatest_onesComp (s t : Bool) :
    onesComp 16 (s ^^ t) 0o37777 = if s = t then 0o037777#16 else 0o140000#16 := by
  cases s <;> cases t <;> rfl

/-- A result with its own zero for each sign. -/
theorem signExtend_intToWord_signedInt (s : Bool) {m : Nat} (hm : m < 2 ^ 14) :
    (if signedInt s m ≠ 0 then signExtend (intToWord (signedInt s m))
      else if s = true then 0o177777#16 else 0#16) = onesComp 16 s m := by
  by_cases h0 : m = 0
  · subst h0
    rw [if_neg (by simp [signedInt_eq_zero_iff])]
    cases s <;> rfl
  · rw [if_pos (mt (signedInt_eq_zero_iff s m).1 h0), intToWord_signedInt s h0,
      signExtend_onesComp s hm]

/-- Settles O9: (a) by the division in range, (b) and (c) by the tie, of which three zeros are a
case. -/
theorem divideInRange : Obligations.DivideInRange := by
  unfold Obligations.DivideInRange
  intro a l k
  obtain ⟨s, m, hm, rfl⟩ := exists_onesComp15 a
  obtain ⟨t, n, hn, rfl⟩ := exists_onesComp15 l
  obtain ⟨u, d, hd, rfl⟩ := exists_onesComp15 k
  have hlt := pairMagnitude_lt (s := s) (t := t) hm hn
  have hupper : pairMagnitude s m t n / 2 ^ 14 < 2 ^ 14 := by omega
  have hdecSign : (onesComp 30 (pairSign s m t) (pairMagnitude s m t n)).getLsbD 29 =
      pairSign s m t := onesComp_sign _ (by omega) (by omega)
  simp only [pairToDecent_onesComp hm hn, decentToPair_onesComp _ hlt, decentToInt_onesComp _ hlt,
    wordToInt_onesComp u hd, signExtend_onesComp s hm, signExtend_onesComp t hn,
    signExtend_onesComp u hd, signedInt_tdiv, signedInt_tmod, hdecSign,
    onesComp_sign u (w := 15) hd (by omega), onesComp_sign (w := 15) _ hupper (by omega)]
  rw [abs15_onesComp _ hupper, abs15_onesComp u hd, onesComp_toNat false (by omega),
    onesComp_toNat false (by omega), onesComp_inj (w := 14) hupper hd, isZero15_onesComp u hd,
    isZero15_onesComp _ hupper, isZero15_onesComp _ (Nat.mod_lt _ (by omega))]
  simp only [Bool.false_eq_true, if_false, true_and, decide_eq_true_eq, decide_eq_false_iff_not]
  refine ⟨fun hbelow => ?_, fun ⟨htie, _, hlower⟩ => ?_, fun ⟨hhigh, hlower, hk0⟩ => ?_⟩
  · have hquot := quotient_lt hbelow
    have hrem : pairMagnitude s m t n % d < d := Nat.mod_lt _ (by omega)
    have hne : pairSign s m t ≠ u ↔ (pairSign s m t ^^ u) = true := bne_iff_ne.symm
    rw [divSim_inRange hm hn hd hbelow, if_congr hne rfl rfl,
      signExtend_intToWord_signedInt _ hquot, signExtend_intToWord_signedInt _ (by omega)]
  · rw [divSim_tie hm hn hd (by omega), greatest_onesComp, htie, signExtend_onesComp _ hd]
  · obtain ⟨rfl, rfl⟩ :=
      (pairMagnitude_eq_zero_iff hn).1 (show pairMagnitude s m t n = 0 by omega)
    rw [divSim_tie hm hn hd (by omega), greatest_onesComp, hk0, pairSign, if_pos rfl]

end Sys2Proof.Machine

/-! SUPPORT. The execution cycle (spec/41_execution_cycle.md R160 to R174): what the head of a Step does,
one equation for each way a Step goes, what a Step returns, and which instructions refuse. -/

namespace Sys2Proof.Machine

/-! ## The head (R161) and the fetch -/

@[simp] theorem stepHead_extraDelay (s : State) : (stepHead s).extraDelay = s.extraDelay := by
  rw [stepHead_fields s]
@[simp] theorem stepHead_cycleCounter (s : State) :
    (stepHead s).cycleCounter = s.cycleCounter + 1 := by
  rw [stepHead_fields s]
@[simp] theorem stepHead_scalerCounter (s : State) :
    (stepHead s).scalerCounter = s.scalerCounter + config.scalerIncrement := by
  rw [stepHead_fields s]
@[simp] theorem stepHead_indexValue (s : State) : (stepHead s).indexValue = s.indexValue := by
  rw [stepHead_fields s]
@[simp] theorem stepHead_extracode (s : State) : (stepHead s).extracode = s.extracode := by
  rw [stepHead_fields s]
@[simp] theorem stepHead_substitute (s : State) : (stepHead s).substitute = s.substitute := by
  rw [stepHead_fields s]
@[simp] theorem stepHead_irqLast (s : State) : (stepHead s).irqLast = s.irqLast := by
  rw [stepHead_fields s]

@[simp] theorem fetchState_cycleCounter (s : State) :
    (fetchState s).cycleCounter = s.cycleCounter + 1 := by
  rw [fetchState_fields s]

/-- The downrupt timer is armed and its time has come (R161). -/
def DownruptDue (s : State) : Prop := s.downruptArmed = true ∧ s.downruptTime ≤ s.cycleCounter

theorem stepHead_of_due {s : State} (h : DownruptDue s) :
    stepHead s = { raiseIrq s 8 with
      downruptArmed := false
      cycleCounter := s.cycleCounter + 1
      scalerCounter := s.scalerCounter + config.scalerIncrement } := by
  obtain ⟨harmed, htime⟩ := h
  simp only [stepHead, harmed, decide_eq_true htime, Bool.and_self, if_true]
  rfl

theorem stepHead_of_not_due {s : State} (h : ¬DownruptDue s) :
    stepHead s = { s with
      cycleCounter := s.cycleCounter + 1
      scalerCounter := s.scalerCounter + config.scalerIncrement } := by
  have hd : (s.downruptArmed && decide (s.downruptTime ≤ s.cycleCounter)) = false := by
    simpa [DownruptDue] using h
  simp only [stepHead, hd, Bool.false_eq_true, if_false]

theorem irqPending_stepHead_of_due {s : State} (h : DownruptDue s) (n : Nat) :
    irqPending (stepHead s) n = (n == 8 || irqPending s n) := by
  rw [stepHead_of_due h, ← irqPending_raiseIrq s n (by decide) (by decide)]
  exact irqPending_congr rfl n

/-! ## The delays (R162) -/

theorem consumeDelay_of_extraDelay {s : State} (h : 0 < s.extraDelay) :
    consumeDelay s = some { s with extraDelay := s.extraDelay - 1 } := if_pos h

theorem consumeDelay_of_pendDelay {s : State} (h0 : s.extraDelay = 0) (hflag : s.pendFlag = true)
    (h : 0 < s.pendDelay) : consumeDelay s = some { s with pendDelay := s.pendDelay - 1 } := by
  rw [consumeDelay, if_neg (by omega), if_pos ⟨hflag, h⟩]

theorem consumeDelay_of_idle {s : State} (h0 : s.extraDelay = 0)
    (h : s.pendFlag = false ∨ s.pendDelay = 0) : consumeDelay s = none := by
  have hn : ¬(s.pendFlag = true ∧ 0 < s.pendDelay) := by
    rintro ⟨hflag, hpos⟩
    rcases h with h | h
    · exact absurd (hflag.symm.trans h) (by decide)
    · omega
  rw [consumeDelay, if_neg (by omega), if_neg hn]

theorem consumeTimerDelay_of_extraDelay {s : State} (h : 0 < s.extraDelay) :
    consumeTimerDelay s = some { s with extraDelay := s.extraDelay - 1 } := if_pos h

theorem consumeTimerDelay_of_none {s : State} (h : s.extraDelay = 0) :
    consumeTimerDelay s = none := if_neg (by omega)

/-! ## The accounting (R168, R169) -/

theorem accountInstr_of_charged {s : State} (h : s.pendFlag = true) (i : Instr) :
    accountInstr s i = .run i { s with pendFlag := false } := if_pos h

theorem accountInstr_of_multiCycle {s : State} {i : Instr} (h : s.pendFlag = false)
    (hi : 1 < config.mct i) :
    accountInstr s i = .wait { s with pendFlag := true, pendDelay := config.mct i - 2 } := by
  rw [accountInstr, if_neg (by simp [h]), if_pos hi]

theorem accountInstr_of_oneCycle {s : State} {i : Instr} (h : s.pendFlag = false)
    (hi : config.mct i ≤ 1) : accountInstr s i = .run i s := by
  rw [accountInstr, if_neg (by simp [h]), if_neg (by omega)]

/-- A charged instruction is not interrupted (R335). -/
theorem eligible_of_charged {s : State} (h : s.pendFlag = true) (iw : W15) :
    eligible s iw = false := by
  simp [eligible, h]

/-! ## The plan, one equation for each way a Step goes (R160) -/

theorem planStep_of_not_ready {s : State} (h : s.ready = false) :
    planStep s = .refuse .stepBeforeLoad := if_neg (by simp [h])

theorem planStep_of_delay {s t : State} (hr : s.ready = true)
    (h : consumeDelay (stepHead s) = some t) : planStep s = .wait t := by
  simp only [planStep, hr, h, if_true]

theorem planStep_of_no_delay {s : State} (hr : s.ready = true)
    (h : consumeDelay (stepHead s) = none) : planStep s = planAfterDelay (stepHead s) := by
  simp only [planStep, hr, h, if_true]

theorem planStep_of_timerDelay {s : State} (hr : s.ready = true)
    (h : consumeDelay (stepHead s) = none) (h0 : 0 < (fetchState s).extraDelay) :
    planStep s = .wait { fetchState s with extraDelay := (fetchState s).extraDelay - 1 } := by
  have ht : consumeTimerDelay (runTimers (stepHead s)) = some _ :=
    consumeTimerDelay_of_extraDelay h0
  simp only [planStep_of_no_delay hr h, planAfterDelay, ht]
  rfl

theorem planStep_of_fetch {s : State} (hr : s.ready = true) (h : consumeDelay (stepHead s) = none)
    (h0 : (fetchState s).extraDelay = 0) :
    planStep s = dispatchInstr (fetchState s) (decodedInstr (fetchState s)) := by
  have ht : consumeTimerDelay (runTimers (stepHead s)) = none := consumeTimerDelay_of_none h0
  simp only [planStep_of_no_delay hr h, planAfterDelay, ht]
  rfl

/-- Where no interrupt is entered, a Step that fetches comes to the accounting. -/
theorem planStep_of_account {s : State} (hr : s.ready = true)
    (h : consumeDelay (stepHead s) = none) (h0 : (fetchState s).extraDelay = 0)
    (hne : ∀ k, decodedInstr (fetchState s) ≠ .edrupt k)
    (hi : firstPending (fetchState s) = none ∨
      eligible (fetchState s) (effectiveWord (fetchState s)) = false) :
    planStep s = accountInstr (fetchState s) (decodedInstr (fetchState s)) :=
  (planStep_of_fetch hr h h0).trans (dispatchInstr_of_none _ hne hi)

/-! ## What a Step returns (R173) -/

theorem step_waits {s u : State} (hp : planStep s = .wait u) :
    step s = .next u ∧ stepReturns s = false :=
  ⟨step_of_wait hp, by rw [stepReturns, hp]⟩

theorem step_runs {s u : State} {i : Instr} (hp : planStep s = .run i u) :
    step s = exec i u ∧ stepReturns s = true :=
  ⟨step_of_run hp, by rw [stepReturns, hp]⟩

theorem stepReturns_of_enter {s u : State} (hp : planStep s = .enter u) : stepReturns s = true := by
  rw [stepReturns, hp]

/-- Settles O41: the Step comes to the accounting, which charges the instruction. -/
theorem stepChargesMultiCycle : Obligations.StepChargesMultiCycle := by
  unfold Obligations.StepChargesMultiCycle
  rintro s _ hr hc rfl h0 hflag hmct hne hi
  exact step_waits ((planStep_of_account hr hc h0 hne hi).trans
    (accountInstr_of_multiCycle hflag hmct))

/-- Settles O42, by the equations of the plan; the head leaves the delay counters as they are. -/
theorem stepConsumesOneDelay : Obligations.StepConsumesOneDelay := by
  unfold Obligations.StepConsumesOneDelay
  refine fun s hr => ⟨fun hextra => ?_, fun ⟨hextra, hflag, hpend⟩ => ?_,
    fun ⟨hextra, hidle⟩ => ?_, ?_⟩
  · have hd := consumeDelay_of_extraDelay (s := stepHead s) (by simpa using hextra)
    rw [stepHead_extraDelay] at hd
    exact step_waits (planStep_of_delay hr hd)
  · have hd := consumeDelay_of_pendDelay (s := stepHead s) (by simpa using hextra)
      (by simpa using hflag) (by simpa using hpend)
    rw [stepHead_pendDelay] at hd
    exact step_waits (planStep_of_delay hr hd)
  · exact planStep_of_no_delay hr
      (consumeDelay_of_idle (by simpa using hextra) (by simpa using hidle))
  · rintro _ rfl hnone hextra
    exact step_waits (planStep_of_timerDelay hr hnone hextra)

/-- Settles O40: the fetch comes to the accounting, which runs a charged instruction and one of one
cycle; EDRUPT runs at its fetch. -/
theorem stepRunsDecodedInstruction : Obligations.StepRunsDecodedInstruction := by
  unfold Obligations.StepRunsDecodedInstruction
  rintro s _ i hr hc rfl h0 hi
  obtain rfl : i = decodedInstr (fetchState s) := hi
  refine ⟨fun hflag hne => ?_, fun hflag hmct hint hne => ?_, fun k hk => ?_⟩
  · exact step_runs ((planStep_of_account hr hc h0 hne (.inr (eligible_of_charged hflag _))).trans
      (accountInstr_of_charged hflag _))
  · exact step_runs ((planStep_of_account hr hc h0 hne hint).trans
      (accountInstr_of_oneCycle hflag hmct))
  · have hp := planStep_of_fetch hr hc h0
    rw [hk] at hp ⊢
    exact step_runs hp

/-! ## The cycle counter -/

/-- Every Step that gives a next state is one cycle: the head counts it, and nothing after the head
touches the counter. -/
theorem step_cycleCounter {s t : State} (h : step s = .next t) :
    t.cycleCounter = s.cycleCounter + 1 := by
  cases step_case h with
  | delay hp ht => rw [consumeDelay_fields ht]; simp
  | timerDelay hp ht => simp [ht]
  | charge hp ht => simp [ht]
  | enter hp ht => obtain ⟨n, -, rfl⟩ := tryVector_eq_some ht; simp
  | run u hp ht hu =>
    obtain ⟨-, ⟨hcycle, -⟩, -⟩ := exec_engineKept ht
    rcases hu with rfl | ⟨-, rfl⟩ <;> simp [hcycle]

/-- Settles O43, by the two cases of the head and `step_cycleCounter`. -/
theorem stepCountsCycles : Obligations.StepCountsCycles := by
  unfold Obligations.StepCountsCycles
  refine ⟨fun s => ⟨fun hdue => ⟨?_, ?_, fun n hn => ?_⟩, fun hdue => ?_,
    stepHead_cycleCounter s, stepHead_scalerCounter s⟩, fun s t => step_cycleCounter⟩
  · rw [irqPending_stepHead_of_due hdue]; rfl
  · rw [stepHead_of_due hdue]
  · simp [irqPending_stepHead_of_due hdue, hn]
  · rw [stepHead_of_not_due hdue]
    exact ⟨rfl, rfl⟩

/-! ## Waiting Steps -/

/-- The state with other delay counters. -/
def withDelays (s : State) (flag : Bool) (pend extra : Nat) : State :=
  { s with pendFlag := flag, pendDelay := pend, extraDelay := extra }

/-- A Step that completes nothing is its head, perhaps its timers, and a change of the delay counters
(R162, R164, R168). -/
theorem step_of_waiting {s t : State} (h : step s = .next t) (hret : stepReturns s = false) :
    ∃ u flag pend extra, TimerFrame (stepHead s) u ∧ t = withDelays u flag pend extra := by
  have hf : TimerFrame (stepHead s) (fetchState s) := runTimers_frame _
  cases step_case h with
  | delay hp ht => exact ⟨stepHead s, _, _, _, .refl _, consumeDelay_fields ht⟩
  | timerDelay hp ht => exact ⟨fetchState s, _, _, _, hf, ht⟩
  | charge hp ht => exact ⟨fetchState s, _, _, _, hf, ht⟩
  | enter hp ht => rw [stepReturns_of_enter hp] at hret; cases hret
  | run u hp ht hu => rw [(step_runs hp).2] at hret; cases hret

/-- What the head and the timers leave of the places and the channels. -/
theorem TimerFrame.keeps_of_stepHead {s u : State} (h : TimerFrame (stepHead s) u) :
    KeepsPlaces s u timerPlaces ∧ KeepsChannels s u [3, 4] := by
  obtain ⟨hplaces, hchannels⟩ := stepHead_keeps s
  exact ⟨fun p hp => (h.places p hp).trans (hplaces p List.not_mem_nil),
    fun c hc => (h.channels c hc).trans (hchannels c List.not_mem_nil)⟩

/-- Settles O47: nothing that the statement keeps depends on the delay counters, so the frame
is that of the head and the timers. -/
theorem waitingStepKeepsRegisters : Obligations.WaitingStepKeepsRegisters := by
  unfold Obligations.WaitingStepKeepsRegisters
  intro s t h hret
  obtain ⟨u, flag, pend, extra, hu, rfl⟩ := step_of_waiting h hret
  obtain ⟨hplaces, hchannels⟩ := hu.keeps_of_stepHead
  refine ⟨hplaces, hchannels, ?_⟩
  rw [hu.fields]
  simp [withDelays]

/-! ## Refusals -/

/-- The instructions that the rules refuse, each with its name (R232, R233, R239, R263, R290). -/
inductive RefusedAs : Instr → Refusal → Prop
  | dca : RefusedAs (.dca 0#12) .dcaFieldZero
  | dcs : RefusedAs (.dcs 0#12) .dcsFieldZero
  | dxch : RefusedAs (.dxch 0#10) .dxchFieldZero
  | das : RefusedAs (.das 0#10) .dasFieldZero
  | dvA : RefusedAs (.dv 0#10) .dvDivisorInDividend
  | dvL : RefusedAs (.dv 1#10) .dvDivisorInDividend

/-- The outcomes of an instruction: a next state, or the refusal of its name. A fault is none. -/
inductive NextOrRefused (i : Instr) : Host.Outcome State Fault Refusal → Prop
  | next (t : State) : NextOrRefused i (.next t)
  | refused {r : Refusal} (h : RefusedAs i r) : NextOrRefused i (.refused r)

theorem NextOrRefused.ite {i : Instr} {o o' : Host.Outcome State Fault Refusal} {c : Prop}
    [Decidable c] (h : c → NextOrRefused i o) (h' : NextOrRefused i o') :
    NextOrRefused i (if c then o else o') := by
  split
  next hc => exact h hc
  next => exact h'

/-- No instruction faults, and those that refuse do it for the fields of `RefusedAs` alone. -/
theorem exec_nextOrRefused (i : Instr) (s : State) : NextOrRefused i (exec i s) := by
  cases i with
  | dca _ => exact .ite (by rintro rfl; exact .refused .dca) (.ite (fun _ => .next _) (.next _))
  | dcs _ => exact .ite (by rintro rfl; exact .refused .dcs) (.ite (fun _ => .next _) (.next _))
  | dxch _ => exact .ite (by rintro rfl; exact .refused .dxch) (.ite (fun _ => .next _) (.next _))
  | das _ => exact .ite (by rintro rfl; exact .refused .das) (.ite (fun _ => .next _) (.next _))
  | dv _ =>
    refine .ite (fun hk => ?_) (.next _)
    rcases hk with rfl | rfl
    · exact .refused .dvA
    · exact .refused .dvL
  | ccs _ | mask _ | index _ | xch _ | lxch _ | qxch _ => exact .ite (fun _ => .next _) (.next _)
  | ts _ => exact .ite (fun _ => .next _) (.ite (fun _ => .next _) (.next _))
  | _ => exact .next _

/-- The plan of a Step after the load refuses nothing: what it refuses, the instruction does. -/
theorem planStep_of_ready {s : State} (hr : s.ready = true) :
    (∃ t, step s = .next t) ∨ ∃ i u, planStep s = .run i u := by
  rcases planStep_cases s with ⟨hn, -⟩ | ⟨-, u, -, hp⟩ | ⟨-, -, ⟨u, -, hp⟩ | ⟨-, hp⟩⟩
  · exact absurd (hr.symm.trans hn) (by decide)
  · exact .inl ⟨u, step_of_wait hp⟩
  · exact .inl ⟨u, step_of_wait hp⟩
  · rw [← fetchState] at hp
    rcases dispatchInstr_cases (fetchState s) (decodedInstr (fetchState s)) with
      ⟨k, -, hrun⟩ | ⟨-, -, u, -, henter⟩ | ⟨-, hacc⟩
    · exact .inr ⟨_, _, hp.trans hrun⟩
    · exact .inl ⟨u, step_of_enter (hp.trans henter)⟩
    · rw [hacc] at hp
      rcases accountInstr_cases (fetchState s) (decodedInstr (fetchState s)) with
        ⟨-, hrun⟩ | ⟨-, -, hcharge⟩ | ⟨-, -, hrun⟩
      · exact .inr ⟨_, _, hp.trans hrun⟩
      · exact .inl ⟨_, step_of_wait (hp.trans hcharge)⟩
      · exact .inr ⟨_, _, hp.trans hrun⟩

theorem step_of_not_ready {s : State} (h : s.ready = false) :
    step s = .refused .stepBeforeLoad := by
  rw [step, planStep_of_not_ready h]

/-- Settles O51: before the load the plan refuses; after it only an instruction that runs can, and
`exec_nextOrRefused` lists those. -/
theorem stepRefusesOnlyListedCases : Obligations.StepRefusesOnlyListedCases := by
  unfold Obligations.StepRefusesOnlyListedCases
  refine ⟨fun s => step_of_not_ready, fun s => ?_⟩
  cases hr : s.ready with
  | false => exact .inr (.inl ⟨rfl, step_of_not_ready hr⟩)
  | true =>
    rcases planStep_of_ready hr with hnext | ⟨i, u, hp⟩
    · exact .inl hnext
    · rw [step_of_run hp]
      have hout := exec_nextOrRefused i u
      generalize exec i u = o at hout
      cases hout with
      | next t => exact .inl ⟨t, rfl⟩
      | refused hlisted =>
        refine .inr (.inr ⟨u, ?_⟩)
        cases hlisted with
        | dca => exact .inl ⟨hp, rfl⟩
        | dcs => exact .inr (.inl ⟨hp, rfl⟩)
        | dxch => exact .inr (.inr (.inl ⟨hp, rfl⟩))
        | das => exact .inr (.inr (.inr (.inl ⟨hp, rfl⟩)))
        | dvA => exact .inr (.inr (.inr (.inr ⟨.inl hp, rfl⟩)))
        | dvL => exact .inr (.inr (.inr (.inr ⟨.inr hp, rfl⟩)))

/-! ## The four writes before an instruction's effect (R170) -/

/-- Settles O15: the frame is that of an instruction that writes Z and leaves A, L and Q. -/
theorem fourWritesPrecedeEffect : Obligations.FourWritesPrecedeEffect := by
  unfold Obligations.FourWritesPrecedeEffect
  refine fun s => ⟨?_, writesOnly_registers s s.a s.l s.q (s.z + 1#12) (.inr rfl) (.inr rfl)
    (.inr rfl) (by simp)⟩
  rw [beginExecute_z, BitVec.toNat_add]
  rfl

end Sys2Proof.Machine

/-! SUPPORT. Control transfer (spec/42_control_transfer.md R190 to R197): what a linking transfer and
a branch write, and CCS by the sign and the magnitude of its operand. -/

namespace Sys2Proof.Machine

/-! ## Transfers (R190 to R194) -/

/-- What sets Z writes this register alone. -/
theorem writesOnly_z (s : State) (z : W12) :
    WritesOnly s { beginExecute s with z := z } [.reg 5] :=
  writesOnly_registers s s.a s.l s.q z (.inr rfl) (.inr rfl) (.inr rfl) (by simp)

/-- The return address goes to Q. -/
theorem transferLink_of_ne_two (s : State) {k : W12} (h : k ≠ 2#12) :
    transferLink s k = { s with q := s.z.setWidth 16, z := k } := if_neg h

theorem transferLink_two (s : State) : transferLink s 2#12 = { s with z := 2#12 } := rfl

theorem transferLink_z (s : State) (k : W12) : (transferLink s k).z = k := by
  unfold transferLink
  split <;> rfl

/-- The return address is that of the next word, Z having advanced (R170). -/
theorem transferLink_q_of_ne_two (s : State) {k : W12} (h : k ≠ 2#12) :
    (transferLink (beginExecute s) k).q = (s.z + 1#12).setWidth 16 := by
  rw [transferLink_of_ne_two _ h, beginExecute_z]

theorem writesOnly_transferLink (s : State) {k : W12} (h : k ≠ 2#12) :
    WritesOnly s (transferLink (beginExecute s) k) [.reg 5, .reg 2] := by
  rw [transferLink_of_ne_two _ h]
  exact writesOnly_registers s s.a s.l _ k (.inr rfl) (.inr rfl) (.inl (by simp)) (by simp)

theorem writesOnly_transferLink_two (s : State) :
    WritesOnly s (transferLink (beginExecute s) 2#12) [.reg 5] := by
  rw [transferLink_two]
  exact writesOnly_z s 2#12

/-- Settles O16: the two cases of the linking transfer. -/
theorem tcTransfersAndLinks : Obligations.TcTransfersAndLinks := by
  unfold Obligations.TcTransfersAndLinks
  intro k s
  have hword : HasWord (.tc k) false k.toNat 1 :=
    ⟨rfl, (wordF12_toNat 0#3 k).trans (by simp), rfl⟩
  refine ⟨hword, _, rfl, transferLink_z _ k, fun h => ?_, fun h => ?_⟩
  · exact ⟨transferLink_q_of_ne_two s h, writesOnly_transferLink s h⟩
  · rw [h]
    exact writesOnly_transferLink_two s

/-- Settles O17: the literals are the linking transfers to A, L and Q. -/
theorem literalTransfers : Obligations.LiteralTransfers := by
  unfold Obligations.LiteralTransfers
  have ha : (0#12 : W12) ≠ 2#12 := by decide
  have hl : (1#12 : W12) ≠ 2#12 := by decide
  exact fun s =>
    ⟨⟨⟨rfl, rfl, rfl⟩, _, rfl, transferLink_z _ _, transferLink_q_of_ne_two s ha,
        writesOnly_transferLink s ha⟩,
      ⟨⟨rfl, rfl, rfl⟩, _, rfl, transferLink_z _ _, transferLink_q_of_ne_two s hl,
        writesOnly_transferLink s hl⟩,
      ⟨⟨rfl, rfl, rfl⟩, _, rfl, transferLink_z _ _, writesOnly_transferLink_two s⟩⟩

/-- Settles O18: the only register that TCF writes is Z. -/
theorem tcfTransfers : Obligations.TcfTransfers := by
  unfold Obligations.TcfTransfers
  exact fun k s => ⟨⟨rfl, wordF12_toNat 1#3 k, rfl⟩, _, rfl, rfl, writesOnly_z s k⟩

/-! ## CCS by sign and magnitude (R195) -/

/-- How many words CCS skips for an operand of this sign and magnitude. -/
def ccsSkip (neg : Bool) (m : Nat) : Nat :=
  if m = 0 then if neg then 3 else 1 else if neg then 2 else 0

/-- The skip of an operand of 16 bits, as R195 tells them apart: the zeros first, then the sign. -/
theorem ccsSkip_of_zeros (neg : Bool) (m : Nat) :
    BitVec.ofNat 12 (ccsSkip neg m) =
      if neg = false ∧ m = 0 then 1#12 else if neg = true ∧ m = 0 then 3#12
        else if neg = true then 2#12 else 0#12 := by
  unfold ccsSkip
  by_cases h0 : m = 0 <;> cases neg <;> simp [h0]

/-- The skip of a word, by the integer it stands for: -0 is what is left. -/
theorem ccsSkip_of_int (neg : Bool) (m : Nat) :
    BitVec.ofNat 12 (ccsSkip neg m) =
      if 0 < signedInt neg m then 0#12 else if neg = false ∧ m = 0 then 1#12
        else if signedInt neg m < 0 then 2#12 else 3#12 := by
  unfold ccsSkip
  by_cases h0 : m = 0 <;> cases neg <;> simp [h0, Nat.pos_iff_ne_zero]

theorem dabs_onesComp (s : Bool) {m : Nat} (hm : m < 2 ^ 14) :
    dabs (onesComp 15 s m) = BitVec.ofNat 15 (m - 1) := by
  have hsign : onesComp 15 s m &&& 0o40000#15 ≠ 0#15 ↔ s = true :=
    onesComp_and_twoPow_ne_zero (i := 14) s hm (by omega)
  have hmag : (if s = true then 0o37777#15 &&& ~~~(onesComp 15 s m) else onesComp 15 s m) =
      BitVec.ofNat 15 m := by
    cases s
    · rfl
    · refine BitVec.eq_of_toNat_eq ?_
      have hmask : (onesComp 15 false m &&& 0o37777#15).toNat = m :=
        toNat_onesComp_and_mask hm (by omega)
      rw [if_pos rfl, onesComp_not, Bool.not_true, BitVec.and_comm, hmask, BitVec.toNat_ofNat,
        Nat.mod_eq_of_lt (by omega)]
  simp only [dabs, if_congr hsign rfl rfl, hmag]
  split <;> bv_omega

theorem odabs_onesComp (s : Bool) {m : Nat} (hm : m < 2 ^ 15) :
    odabs (onesComp 16 s m) = BitVec.ofNat 16 (m - 1) := by
  have hsign : onesComp 16 s m &&& 0o100000#16 ≠ 0#16 ↔ s = true :=
    onesComp_and_twoPow_ne_zero (i := 15) s hm (by omega)
  have hmag : (if s = true then ~~~(onesComp 16 s m) else onesComp 16 s m) =
      BitVec.ofNat 16 m := by
    cases s
    · rfl
    · rw [if_pos rfl, onesComp_not]; rfl
  simp only [odabs, if_congr hsign rfl rfl, hmag]
  split <;> bv_omega

theorem ccsSkipWord_onesComp (s : Bool) {m : Nat} (hm : m < 2 ^ 14) :
    ccsSkipWord (onesComp 15 s m) = ccsSkip s m := by
  have hsign : onesComp 15 s m &&& 0o40000#15 ≠ 0#15 ↔ s = true :=
    onesComp_and_twoPow_ne_zero (i := 14) s hm (by omega)
  have hneg : onesComp 15 s m = 0o77777#15 ↔ s = true ∧ m = 0 :=
    onesComp_inj (t := true) (n := 0) hm (by omega)
  rw [ccsSkipWord, if_congr (onesComp15_eq_zero_iff s hm) rfl rfl, if_congr hneg rfl rfl,
    if_congr hsign rfl rfl, ccsSkip]
  cases s <;> simp

/-- An overflow has a magnitude of 2^14 or more, so that it decides by its sign. -/
theorem ccsSkipReg_onesComp (s : Bool) {m : Nat} (hm : m < 2 ^ 15) :
    ccsSkipReg (onesComp 16 s m) = ccsSkip s m := by
  rw [ccsSkipReg, ovf_onesComp s hm]
  by_cases h : m < 2 ^ 14
  · rw [if_pos h, if_neg (by decide), if_neg (by decide), overflowCorrect_onesComp s hm,
      Nat.mod_eq_of_lt h, ccsSkipWord_onesComp s h]
  · rw [if_neg h, ccsSkip, if_neg (by omega : m ≠ 0)]
    cases s <;> rfl

/-- The state after CCS of an operand of this sign and magnitude. -/
def ccsResult (s : State) (neg : Bool) (m : Nat) : State :=
  { beginExecute s with
    a := BitVec.ofNat 16 (m - 1)
    z := s.z + 1#12 + BitVec.ofNat 12 (ccsSkip neg m) }

theorem writesOnly_ccsResult (s : State) (neg : Bool) (m : Nat) :
    WritesOnly s (ccsResult s neg m) [.reg 0, .reg 5] :=
  writesOnly_registers s _ s.l s.q _ (.inl (by simp)) (.inr rfl) (.inr rfl) (by simp)

theorem ccsResult_a_toNat (s : State) (neg : Bool) {m : Nat} (hm : m < 2 ^ 15) :
    (ccsResult s neg m).a.toNat = m - 1 := by
  simp only [ccsResult, BitVec.toNat_ofNat]
  omega

theorem isWide_erasable_iff (k : W10) : isWide (erasable k) = true ↔ k.toNat ≤ 2 := by
  rw [isWide, decide_eq_true_iff, erasable, BitVec.toNat_setWidth_of_le (by omega)]

/-- CCS outside A, L and Q: the operand is a word, read after Z has advanced. -/
theorem exec_ccs_word {k : W10} {s : State} {neg : Bool} {m : Nat} (hk : 2 < k.toNat)
    (hm : m < 2 ^ 14)
    (hop : (memRead (beginExecute s) (k.setWidth 12)).setWidth 15 = onesComp 15 neg m) :
    exec (.ccs k) s = .next (ccsResult s neg m) := by
  have hnarrow : ¬isWide (erasable k) = true := fun h =>
    absurd ((isWide_erasable_iff k).1 h) (by omega)
  have ha : (BitVec.ofNat 15 (m - 1)).setWidth 16 = BitVec.ofNat 16 (m - 1) := by bv_omega
  have hword : memWord (beginExecute s) (erasable k) = onesComp 15 neg m := hop
  simp only [exec, execCcs, if_neg hnarrow, hword, dabs_onesComp neg hm,
    ccsSkipWord_onesComp neg hm, ha]
  rfl

/-- CCS of A, L or Q: the operand has 15 magnitude bits, the overflow among them. -/
theorem exec_ccs_register {k : W10} {s : State} {neg : Bool} {m : Nat} (hk : k.toNat ≤ 2)
    (hm : m < 2 ^ 15) (hv : memRead s (k.setWidth 12) = onesComp 16 neg m) :
    exec (.ccs k) s = .next (ccsResult s neg m) := by
  have hread : memRead (beginExecute s) (erasable k) = onesComp 16 neg m := by
    rw [← hv]
    exact memRead_beginExecute s (by unfold erasable; bv_omega)
  simp only [exec, execCcs, if_pos ((isWide_erasable_iff k).2 hk), hread, odabs_onesComp neg hm,
    ccsSkipReg_onesComp neg hm]
  rfl

/-- Settles O19: both kinds of operand are a sign and a magnitude, which give A and the skip. -/
theorem ccsCountsAndSkips : Obligations.CcsCountsAndSkips := by
  unfold Obligations.CcsCountsAndSkips
  intro k s
  refine ⟨⟨rfl, wordF10_toNat 1#3 0#2 k, rfl⟩, ?_⟩
  by_cases hk : k.toNat ≤ 2
  · obtain ⟨neg, m, hm, hv⟩ := exists_onesComp (w := 15) (memRead s (k.setWidth 12))
    refine ⟨_, exec_ccs_register hk hm hv, writesOnly_ccsResult s neg m,
      fun h => absurd hk (by omega), fun _ => ?_⟩
    have hsign : (onesComp 16 neg m).getLsbD 15 = neg := onesComp_sign neg hm (by omega)
    have hplus : onesComp 16 neg m = 0#16 ↔ neg = false ∧ m = 0 :=
      onesComp_inj (t := false) (n := 0) hm (by omega)
    have hminus : onesComp 16 neg m = 0o177777#16 ↔ neg = true ∧ m = 0 :=
      onesComp_inj (t := true) (n := 0) hm (by omega)
    simp only [hv, hsign, hplus, hminus, onesComp_not]
    refine ⟨?_, congrArg (s.z + 1#12 + ·) (ccsSkip_of_zeros neg m)⟩
    rw [ccsResult_a_toNat s neg hm]
    cases neg <;> simp [onesComp_toNat false (show m < 2 ^ 16 by omega)]
  · obtain ⟨neg, m, hm, hop⟩ :=
      exists_onesComp15 ((memRead (beginExecute s) (k.setWidth 12)).setWidth 15)
    refine ⟨_, exec_ccs_word (by omega) hm hop, writesOnly_ccsResult s neg m,
      fun _ => ?_, fun h => absurd h hk⟩
    simp only [hop, wordToInt_onesComp neg hm, onesComp15_eq_zero_iff neg hm]
    refine ⟨?_, congrArg (s.z + 1#12 + ·) (ccsSkip_of_int neg m)⟩
    rw [ccsResult_a_toNat s neg (by omega)]
    cases neg <;> simp

/-! ## BZF and BZMF (R196, R197) -/

theorem isZero16_iff (v : W16) : isZero16 v = true ↔ v = 0#16 ∨ v = 0o177777#16 := by
  simp only [isZero16, Bool.or_eq_true, beq_iff_eq]

theorem isZeroOrMinus16_iff (v : W16) :
    isZeroOrMinus16 v = true ↔ v = 0#16 ∨ v.getLsbD 15 = true := by
  have hbit : v &&& 0o100000#16 ≠ 0#16 ↔ v.getLsbD 15 = true :=
    and_twoPow_ne_zero_iff (i := 15) v (by omega)
  simp only [isZeroOrMinus16, Bool.or_eq_true, beq_iff_eq, bne_iff_ne, hbit]

/-- A branch that is taken sets Z alone. -/
theorem branch_of_taken {i : Instr} {s : State} {taken : Bool} {k : W12}
    (he : exec i s = .next (branchOrDelay (beginExecute s) taken k)) (h : taken = true) :
    ∃ t, exec i s = .next t ∧ t.z = k ∧ WritesOnly s t [.reg 5] := by
  rw [he, branchOrDelay, if_pos h]
  exact ⟨_, rfl, rfl, writesOnly_z s k⟩

/-- A branch that is not taken charges the fall-through delay. -/
theorem branch_of_not_taken {i : Instr} {s : State} {taken : Bool} {k : W12}
    (he : exec i s = .next (branchOrDelay (beginExecute s) taken k)) (h : ¬taken = true) :
    exec i s = .next { beginExecute s with
      extraDelay := s.extraDelay + config.branchFallthroughDelay } := by
  rw [he, branchOrDelay, if_neg h, beginExecute_extraDelay]

/-- Settles O20: the two clauses of each branch are whether its condition on A holds. -/
theorem zeroBranches : Obligations.ZeroBranches := by
  unfold Obligations.ZeroBranches
  intro k s
  have hbzf : exec (.bzf k) s = .next (branchOrDelay (beginExecute s) (isZero16 s.a) k) := rfl
  have hbzmf : exec (.bzmf k) s =
      .next (branchOrDelay (beginExecute s) (isZeroOrMinus16 s.a) k) := rfl
  refine ⟨⟨⟨rfl, wordF12_toNat 1#3 k, rfl⟩, fun h => ?_, fun ⟨hplus, hminus⟩ => ?_⟩,
    ⟨⟨rfl, wordF12_toNat 6#3 k, rfl⟩, fun h => ?_, fun ⟨hplus, hsign⟩ => ?_⟩⟩
  · exact branch_of_taken hbzf ((isZero16_iff _).2 h)
  · refine branch_of_not_taken hbzf ?_
    rw [isZero16_iff, not_or]
    exact ⟨hplus, hminus⟩
  · exact branch_of_taken hbzmf ((isZeroOrMinus16_iff _).2 h)
  · refine branch_of_not_taken hbzmf ?_
    rw [isZeroOrMinus16_iff, not_or, Bool.not_eq_true]
    exact ⟨hplus, hsign⟩

end Sys2Proof.Machine

/-! SUPPORT. Sequence control (spec/43_sequence_control.md R210 to R216): the operand of an index
prefix, the return from an interrupt, and what the entry of EDRUPT leaves. -/

namespace Sys2Proof.Machine

/-! ## The flags and the prefixes (R210 to R213, R215) -/

/-- Settles O21: the words are literals, and each meaning is its own equation. -/
theorem flagInstructions : Obligations.FlagInstructions := by
  unfold Obligations.FlagInstructions
  exact fun s => ⟨⟨⟨rfl, rfl, rfl⟩, rfl⟩, ⟨⟨rfl, rfl, rfl⟩, rfl⟩, ⟨⟨rfl, rfl, rfl⟩, rfl⟩⟩

/-- The operand of an instruction that corrects A, L and Q: Z advances before the operand is read,
which no register up to 2 sees. -/
theorem correctedOperand_beginExecute (s : State) (d : W12) :
    correctedOperand (beginExecute s) d =
      if d.toNat ≤ 2 then overflowCorrect (memRead s d)
      else (memRead (beginExecute s) d).setWidth 15 := by
  simp only [correctedOperand, isWide, decide_eq_true_iff]
  split_ifs with hwide
  · rw [memRead_beginExecute s (by bv_omega)]
  · rfl

theorem exec_index_of_ne {k : W10} (s : State) (h : k ≠ 0o17#10) :
    exec (.index k) s =
      .next { beginExecute s with indexValue := correctedOperand (beginExecute s) (erasable k) } :=
  if_neg fun e => h (BitVec.eq_of_toNat_eq e)

/-- The word of INDEX 017 is that of RESUME (R213). -/
theorem exec_index_resume (s : State) : exec (.index 0o17#10) s = exec .resume s := rfl

/-- Settles O22: both prefixes leave the corrected operand as the index value. -/
theorem indexPrefixes : Obligations.IndexPrefixes := by
  unfold Obligations.IndexPrefixes
  refine fun s => ⟨fun k => ⟨⟨rfl, wordF10_toNat 5#3 0#2 k, rfl⟩, fun h => ?_, fun h => ?_⟩,
    fun k => ⟨⟨rfl, wordF12_toNat 5#3 k, rfl⟩, ?_⟩⟩
  · have hfield : (erasable k).toNat = k.toNat := BitVec.toNat_setWidth_of_le (by omega)
    rw [exec_index_of_ne s h, correctedOperand_beginExecute, hfield]
    rfl
  · rw [h, exec_index_resume]
  · rw [← correctedOperand_beginExecute]
    rfl

/-! ## RESUME (R214) -/

/-- ZRUPT after an entry: the address after the interrupted instruction (R336). -/
theorem saveInterrupted_zrupt (s : State) (pc0 : W12) (iw : W15) :
    plainReg (saveInterrupted s pc0 iw) 0o15 = pc0.setWidth 15 + 1#15 :=
  plainReg_saveInterrupted s pc0 iw (by decide)

/-- BRUPT after an entry: the effective word (R336). -/
theorem saveInterrupted_brupt (s : State) (pc0 : W12) (iw : W15) :
    plainReg (saveInterrupted s pc0 iw) 0o17 = iw :=
  plainReg_saveInterrupted s pc0 iw (by decide)

theorem exec_resume (s : State) :
    exec .resume s = .next (returnFromInterrupt (beginExecute s)) := rfl

/-- RESUME leaves every place but Z as it was: A, L, Q and BB are not restored. -/
theorem resume_keepsPlaces (s : State) :
    KeepsPlaces s (returnFromInterrupt (beginExecute s)) [.reg 5] :=
  keepsPlaces_of_fields (.inr rfl) (.inr rfl) (.inr rfl) (.inr rfl) (.inr rfl) (.inl (by simp))
    (.inr rfl) rfl rfl rfl

/-- Z after RESUME: ZRUPT less 1, on 12 bits. -/
theorem resume_z (s : State) :
    (returnFromInterrupt (beginExecute s)).z = (plainReg s 0o15 - 1#15).setWidth 12 := rfl

/-- Settles O23: the return writes Z and two flags, after the writes of every instruction. -/
theorem resumeReturns : Obligations.ResumeReturns := by
  unfold Obligations.ResumeReturns
  refine fun s => ⟨⟨rfl, rfl, rfl⟩, _, exec_resume s, ?_, rfl, rfl, rfl, rfl, rfl, rfl, rfl,
    resume_keepsPlaces s, fun _ _ => rfl, ⟨rfl, rfl, rfl⟩, ⟨rfl, rfl, rfl, rfl, rfl⟩,
    ⟨rfl, rfl, rfl⟩⟩
  rw [resume_z]
  bv_omega

/-- After RESUME the next word is BRUPT, in basic mode. -/
theorem decodedInstr_resume (s : State) :
    decodedInstr (returnFromInterrupt (beginExecute s)) = decode false (plainReg s 0o17) := rfl

/-- Settles O46: ZRUPT is the address after the interrupted instruction, BRUPT its word. -/
theorem resumeUndoesEntry : Obligations.ResumeUndoesEntry := by
  unfold Obligations.ResumeUndoesEntry
  intro s u pc0 iw hzrupt hbrupt
  refine ⟨_, exec_resume u, ?_, ?_, rfl⟩
  · rw [resume_z, hzrupt, saveInterrupted_zrupt]
    bv_omega
  · rw [decodedInstr_resume, hbrupt, saveInterrupted_brupt]

/-! ## EDRUPT (R216, R336 to R339) -/

/-- What an interrupt entry at `pc0` with the effective word `iw` leaves, whatever vector it takes
and whatever it does to the requests (R336). -/
def EntryFrame (s t : State) (pc0 : W12) (iw : W15) : Prop :=
  (plainReg t 0o15).toNat = pc0.toNat + 1 ∧ plainReg t 0o17 = iw ∧
    t.inIsr = true ∧ t.intEnabled = s.intEnabled ∧ NoPrefix t ∧
    t.extraDelay = s.extraDelay + 1 ∧ t.pendFlag = s.pendFlag ∧ t.pendDelay = s.pendDelay ∧
    KeepsPlaces s t [.reg 5, .reg 0o15, .reg 0o17] ∧ KeepsChannels s t [] ∧ KeepsTimers s t ∧
    KeepsDownlink s t

/-- Saving the interrupted instruction after a choice of Z and of the requests. -/
theorem entryFrame_saveInterrupted (s : State) (z : W12) (irq : Vector Bool 10) (irqLast : Nat)
    (pc0 : W12) (iw : W15) :
    EntryFrame s (saveInterrupted { s with z := z, irq := irq, irqLast := irqLast } pc0 iw)
      pc0 iw := by
  have hvector : KeepsPlaces s { s with z := z, irq := irq, irqLast := irqLast } [.reg 5] :=
    keepsPlaces_of_fields (.inr rfl) (.inr rfl) (.inr rfl) (.inr rfl) (.inr rfl) (.inl (by simp))
      (.inr rfl) rfl rfl rfl
  refine ⟨?_, saveInterrupted_brupt _ pc0 iw, rfl, rfl, ⟨rfl, rfl, rfl⟩, rfl, rfl, rfl,
    hvector.trans (saveInterrupted_keeps _ pc0 iw), fun _ _ => rfl,
    ⟨rfl, rfl, rfl, rfl, rfl⟩, ⟨rfl, rfl, rfl⟩⟩
  rw [saveInterrupted_zrupt]
  bv_omega

theorem takeRequest_eq (s : State) (n : Nat) :
    takeRequest s n =
      { s with z := vectorAddress n, irq := (setIrq s n false).irq, irqLast := n } := by
  cases n <;> rfl

/-- The entry for the request of a slot: Z is its vector, and that request alone is cleared
(R336). -/
theorem entry_requests (s : State) {n : Nat} (h1 : 1 ≤ n) (h2 : n ≤ 10) (pc0 : W12) (iw : W15) :
    let t := saveInterrupted (takeRequest s n) pc0 iw
    t.z.toNat = 0o4000 + 4 * n ∧ t.irqLast = n ∧ irqPending t n = false ∧
      ∀ m, m ≠ n → irqPending t m = irqPending s m := by
  refine ⟨?_, by simp, ?_, fun m hm => ?_⟩
  · rw [saveInterrupted_z, takeRequest_z, vectorAddress_toNat h2]
  · rw [irqPending_saveInterrupted, irqPending_takeRequest s n h1 h2, if_pos rfl]
  · rw [irqPending_saveInterrupted, irqPending_takeRequest s m h1 h2, if_neg hm]

theorem vectorEdrupt_of_pending {s : State} {n : Nat} (h : firstPending s = some n) (pc0 : W12)
    (iw : W15) : vectorEdrupt s pc0 iw = saveInterrupted (takeRequest s n) pc0 iw := by
  rw [vectorEdrupt, h]

theorem vectorEdrupt_of_none {s : State} (h : firstPending s = none) (pc0 : W12) (iw : W15) :
    vectorEdrupt s pc0 iw = saveInterrupted { s with z := 0#12 } pc0 iw := by
  rw [vectorEdrupt, h]

/-- The entry of EDRUPT differs from another only in its vector and its requests. -/
theorem entryFrame_vectorEdrupt (s : State) (pc0 : W12) (iw : W15) :
    EntryFrame s (vectorEdrupt s pc0 iw) pc0 iw := by
  cases h : firstPending s with
  | some n =>
    rw [vectorEdrupt_of_pending h, takeRequest_eq]
    exact entryFrame_saveInterrupted s _ _ _ pc0 iw
  | none =>
    rw [vectorEdrupt_of_none h]
    exact entryFrame_saveInterrupted s 0#12 s.irq s.irqLast pc0 iw

/-- Settles O24: the scan finds the lowest pending request or none, and the frame is that of any
entry. -/
theorem edruptAlwaysEnters : Obligations.EdruptAlwaysEnters := by
  unfold Obligations.EdruptAlwaysEnters
  intro k s
  have hword : (encode (.edrupt k)).toNat = 0o7000 + k.toNat := wordF9_toNat 7#3 k
  obtain ⟨hzrupt, hbrupt, hframe⟩ := entryFrame_vectorEdrupt s s.z (encode (.edrupt k))
  refine ⟨⟨rfl, hword, rfl⟩, _, rfl, fun n h1 h2 hn hlow => ?_, fun hnone => ?_, hzrupt,
    (congrArg BitVec.toNat hbrupt).trans hword, hframe⟩
  · rw [vectorEdrupt_of_pending ((firstPending_eq_some s n).2 ⟨h1, h2, hn, hlow⟩)]
    exact entry_requests s h1 h2 s.z _
  · rw [vectorEdrupt_of_none ((firstPending_eq_none s).2 hnone)]
    exact ⟨rfl, rfl, rfl⟩

end Sys2Proof.Machine

/-! SUPPORT. Load, store and exchange (spec/44_load_store_exchange.md R232 to R239): what an exchange
leaves, what TS does on overflow, and the two words of a pair. -/

namespace Sys2Proof.Machine

/-! ## Reads and frames beside a store -/

/-- Of the four writes before an instruction's effect, Z's is the one to a place (R170). -/
theorem writesOnly_beginExecute (s : State) {w : List Place} (hz : Place.reg 5 ∈ w) :
    WritesOnly s (beginExecute s) w :=
  (writesOnly_z s (s.z + 1#12)).mono (by simpa using hz)

theorem rd16_congr {s t : State} {d : W12} (h : memRead t d = memRead s d) : rd16 t d = rd16 s d := by
  simp only [rd16, memWord, h]

/-- A write to L is seen by the operand L alone. -/
theorem rd16_setL (s : State) (l : W16) (d : W12) :
    rd16 { s with l := l } d = if d = 1#12 then l else rd16 s d := by
  split
  next h => rw [h]; rfl
  next h =>
    exact rd16_congr (memRead_registers s s.a l s.q s.z (fun _ => rfl) (absurd · h) (fun _ => rfl)
      (fun _ => rfl))

/-- An erasable cell keeps the corrected word of a 16-bit store. -/
theorem readBack16_of_ram {d : W12} (v : W16) (hlow : 0o60 < d.toNat) (hhigh : d.toNat ≤ 0o1777) :
    readBack16 d v = (overflowCorrect v).setWidth 16 := by
  unfold readBack16 readBack
  rw [if_neg (by omega), if_neg (by omega), if_neg (by omega), if_neg (by omega), if_neg (by omega),
    if_neg (by omega), if_neg (by omega), if_pos hhigh, ← setWidth_setWidth_eq_mask]
  simp

/-- A 10-bit field is an erasable address. -/
theorem erasable_le (k : W10) : (erasable k).toNat ≤ 0o1777 := by
  unfold erasable
  bv_omega

/-- Two 10-bit fields that differ are two addresses. -/
theorem erasable_ne {k j : W10} (h : k ≠ j) : erasable k ≠ erasable j := by
  unfold erasable
  bv_omega

/-! ## DCA and DCS (R232, R233) -/

/-- DCA of any field but 0: for field 1 too, which is the pair A, L. -/
theorem exec_dca_of_ne_zero {f : W12} (s : State) (h : f ≠ 0#12) :
    exec (.dca f) s = .next
      (let s2 := { beginExecute s with l := foldOverflow (rd16 (beginExecute s) f) }
       { s2 with a := rd16 s2 (f - 1#12) }) := by
  by_cases h1 : f = 1#12
  · rw [h1]; rfl
  · simp only [exec, execDca, if_neg h, if_neg h1, pairFirst]

/-- DCS of any field but 0. -/
theorem exec_dcs_of_ne_zero {f : W12} (s : State) (h : f ≠ 0#12) :
    exec (.dcs f) s = .next
      (let s2 := { beginExecute s with l := foldOverflow (~~~(rd16 (beginExecute s) f)) }
       { s2 with a := ~~~(rd16 s2 (f - 1#12)) }) := by
  by_cases h1 : f = 1#12
  · rw [h1]; rfl
  · simp only [exec, execDcs, if_neg h, if_neg h1, pairFirst]

/-- What sets A and L and advances Z writes these three registers. -/
theorem writesOnly_al (s : State) (a l : W16) :
    WritesOnly s { beginExecute s with a := a, l := l } [.reg 0, .reg 1, .reg 5] :=
  writesOnly_registers s a l s.q (s.z + 1#12) (.inl (by simp)) (.inl (by simp)) (.inr rfl) (by simp)

/-- The first word of a pair, read after L is written, is L where the field is 2. -/
theorem rd16_first_setL (s : State) (l : W16) (f : W12) :
    rd16 { s with l := l } (f - 1#12) = if f = 2#12 then l else rd16 s (f - 1#12) := by
  rw [rd16_setL]
  exact if_congr (by bv_omega) rfl rfl

/-- Settles O26: both loads write L before the first word is read, and nothing but A and L. -/
theorem doubleLoads : Obligations.DoubleLoads := by
  unfold Obligations.DoubleLoads
  intro f s
  refine ⟨⟨⟨rfl, wordF12_toNat 3#3 f, rfl⟩, fun h => ?_, fun h => ?_⟩,
    ⟨⟨rfl, wordF12_toNat 4#3 f, rfl⟩, fun h => ?_, fun h => ?_⟩⟩
  · rw [h]; rfl
  · exact ⟨_, exec_dca_of_ne_zero s h, rfl, writesOnly_al s _ _, rfl, rd16_first_setL _ _ f⟩
  · rw [h]; rfl
  · refine ⟨_, exec_dcs_of_ne_zero s h, rfl, writesOnly_al s _ _, rfl, ?_⟩
    exact (congrArg (~~~ ·) (rd16_first_setL _ _ f)).trans (apply_ite (~~~ ·) _ _ _)

/-! ## TS (R234) -/

/-- A has overflow: bits 15 and 14 differ (R134). -/
def tsOverflows (v : W16) : Bool := v.getLsbD 15 != v.getLsbD 14

/-- What TS leaves of A: +1 or -1 on overflow, by the sign. -/
def tsAccumulator (v : W16) : W16 :=
  if tsOverflows v then if v.getLsbD 15 then 0o177776#16 else 0o000001#16 else v

/-- Where TS goes on: on overflow the next word is skipped. -/
def tsNext (s : State) : W12 := s.z + 1#12 + if tsOverflows s.a then 1#12 else 0#12

/-- `OVF` by the bits it looks at. -/
theorem ovf_eq (v : W16) :
    ovf v = if tsOverflows v then if v.getLsbD 15 then 0o77776#15 else 0o00001#15 else 0#15 := by
  have h15 : v.getLsbD 15 = (v.extractLsb' 14 2).getLsbD 1 := by simp
  have h14 : v.getLsbD 14 = (v.extractLsb' 14 2).getLsbD 0 := by simp
  rw [ovf, and_topBits, tsOverflows, h15, h14]
  generalize v.extractLsb' 14 2 = b
  revert b
  decide

theorem ovf_ne_zero_iff (v : W16) : ovf v ≠ 0#15 ↔ tsOverflows v = true := by
  rw [ovf_eq]
  cases tsOverflows v <;> cases v.getLsbD 15 <;> decide

/-- On overflow TS widens the word `OVF`, which is +1 or -1. -/
theorem tsAccumulator_eq (v : W16) :
    tsAccumulator v = if ovf v ≠ 0#15 then signExtend (ovf v) else v := by
  simp only [ovf_ne_zero_iff, tsAccumulator]
  rw [ovf_eq]
  cases tsOverflows v
  · rfl
  · cases v.getLsbD 15 <;> rfl

theorem tsNext_eq (s : State) : tsNext s = s.z + 1#12 + if ovf s.a ≠ 0#15 then 1#12 else 0#12 := by
  simp only [ovf_ne_zero_iff, tsNext]

theorem exec_ts_a (s : State) :
    exec (.ts 0#10) s = .next { beginExecute s with z := tsNext s } := by
  rw [tsNext_eq]
  simp only [exec, execTs, if_true, skipWords]
  split_ifs
  · rfl
  · rw [BitVec.add_zero]; rfl

theorem exec_ts_z (s : State) :
    exec (.ts 5#10) s =
      .next { beginExecute s with z := s.a.setWidth 12, a := tsAccumulator s.a } := by
  have h0 : (5#10 : W10) ≠ 0#10 := by decide
  rw [tsAccumulator_eq]
  simp only [exec, execTs, if_neg h0, if_true]
  split_ifs <;> rfl

/-- TS of an address that is neither A nor Z: a store, and after it A and Z. -/
theorem exec_ts_store {k : W10} (s : State) (h0 : k ≠ 0#10) (h5 : k ≠ 5#10) :
    exec (.ts k) s = .next { wr16 (beginExecute s) (erasable k) s.a with
      a := tsAccumulator s.a, z := tsNext s } := by
  have ha : (wr16 (beginExecute s) (erasable k) s.a).a = s.a :=
    wr16_a_of_ne _ _ (erasable_ne h0)
  have hz : (wr16 (beginExecute s) (erasable k) s.a).z = s.z + 1#12 :=
    wr16_z_of_ne _ _ (erasable_ne h5)
  rw [tsAccumulator_eq, tsNext_eq]
  simp only [exec, execTs, if_neg h0, if_neg h5, skipWords]
  generalize wr16 (beginExecute s) (erasable k) s.a = u at ha hz ⊢
  rw [← ha, ← hz]
  split_ifs
  · rfl
  · rw [BitVec.add_zero]

/-- Settles O27: one equation for TS A, one for TS Z, one for every other address. -/
theorem tsStoresAndSkips : Obligations.TsStoresAndSkips := by
  unfold Obligations.TsStoresAndSkips
  intro k s
  refine ⟨⟨rfl, wordF10_toNat 5#3 2#2 k, rfl⟩, ?_⟩
  by_cases h0 : k = 0#10
  · subst h0
    exact ⟨_, exec_ts_a s, fun _ => ⟨rfl, writesOnly_z s _⟩, fun h => absurd h (by decide),
      fun h => absurd rfl h.1⟩
  by_cases h5 : k = 5#10
  · subst h5
    exact ⟨_, exec_ts_z s, fun h => absurd h h0, fun _ => ⟨rfl, rfl,
      writesOnly_registers s _ s.l s.q _ (.inl (by simp)) (.inr rfl) (.inr rfl) (by simp)⟩,
      fun h => absurd rfl h.2⟩
  have hread : memRead { wr16 (beginExecute s) (erasable k) s.a with
      a := tsAccumulator s.a, z := tsNext s } (erasable k) = readBack16 (erasable k) s.a :=
    (memRead_registers _ _ _ _ _ (absurd · (erasable_ne h0)) (fun _ => rfl) (fun _ => rfl)
      (absurd · (erasable_ne h5))).trans (memRead_wr16 _ _ (erasable_le k))
  have hbegin : WritesOnly s (beginExecute s) [.reg 0, .reg 5] :=
    writesOnly_beginExecute s (by simp)
  refine ⟨_, exec_ts_store s h0 h5, fun h => absurd h h0, fun h => absurd h h5,
    fun _ => ⟨rfl, rfl, hread, ?_⟩⟩
  rw [← storedPlaces_beginExecute]
  exact (hbegin.wr16 (erasable k) s.a).registers _ _ _ _ (.inl (by simp)) (.inr rfl) (.inr rfl)
    (.inl (by simp))

/-! ## The exchanges (R235 to R238) -/

/-- A location holds the old A after an exchange with it; the same of L and Q below. -/
theorem memRead_exchangeA (s : State) {d : W12} (hd : d.toNat ≤ 0o1777) (h : d ≠ 0#12) :
    memRead (exchangeA s d) d = readBack16 d s.a :=
  (memRead_registers _ _ _ _ _ (absurd · h) (fun _ => rfl) (fun _ => rfl) (fun _ => rfl)).trans
    (memRead_wr16 s _ hd)

theorem memRead_exchangeL (s : State) {d : W12} (hd : d.toNat ≤ 0o1777) (h : d ≠ 1#12) :
    memRead (exchangeL s d) d = readBack16 d s.l :=
  (memRead_registers _ _ _ _ _ (fun _ => rfl) (absurd · h) (fun _ => rfl) (fun _ => rfl)).trans
    (memRead_wr16 s _ hd)

theorem memRead_exchangeQ (s : State) {d : W12} (hd : d.toNat ≤ 0o1777) (h : d ≠ 2#12) :
    memRead (exchangeQ s d) d = readBack16 d s.q :=
  (memRead_registers _ _ _ _ _ (fun _ => rfl) (fun _ => rfl) (absurd · h) (fun _ => rfl)).trans
    (memRead_wr16 s _ hd)

/-- An exchange adds its register and the places of its store to a frame. -/
theorem WritesOnly.exchangeA {s t : State} {w : List Place} (h : WritesOnly s t w)
    (hm : Place.reg 0 ∈ w) (d : W12) {p : List Place} (hp : storedPlaces t d = p) :
    WritesOnly s (Machine.exchangeA t d) (w ++ p) :=
  hp ▸ (h.wr16 d t.a).registers _ _ _ _ (.inl (List.mem_append_left _ hm)) (.inr rfl) (.inr rfl)
    (.inr rfl)

theorem WritesOnly.exchangeL {s t : State} {w : List Place} (h : WritesOnly s t w)
    (hm : Place.reg 1 ∈ w) (d : W12) {p : List Place} (hp : storedPlaces t d = p) :
    WritesOnly s (Machine.exchangeL t d) (w ++ p) :=
  hp ▸ (h.wr16 d t.l).registers _ _ _ _ (.inr rfl) (.inl (List.mem_append_left _ hm)) (.inr rfl)
    (.inr rfl)

theorem WritesOnly.exchangeQ {s t : State} {w : List Place} (h : WritesOnly s t w)
    (hm : Place.reg 2 ∈ w) (d : W12) {p : List Place} (hp : storedPlaces t d = p) :
    WritesOnly s (Machine.exchangeQ t d) (w ++ p) :=
  hp ▸ (h.wr16 d t.q).registers _ _ _ _ (.inr rfl) (.inr rfl) (.inl (List.mem_append_left _ hm))
    (.inr rfl)

/-- Settles O28: the own address is the one branch of each exchange, and only a store to Z jumps. -/
theorem exchanges : Obligations.Exchanges := by
  unfold Obligations.Exchanges
  intro k s
  have hz (v : W16) (h : k ≠ 5#10) : (wr16 (beginExecute s) (erasable k) v).z = s.z + 1#12 :=
    wr16_z_of_ne _ v (erasable_ne h)
  have hd := erasable_le k
  have hp := storedPlaces_beginExecute s (erasable k)
  refine ⟨⟨⟨rfl, wordF10_toNat 5#3 3#2 k, rfl⟩, fun h => if_pos h, fun h => ?_⟩,
    ⟨⟨rfl, wordF10_toNat 2#3 1#2 k, rfl⟩, fun h => if_pos h, fun h => ?_⟩,
    ⟨⟨rfl, wordF10_toNat 2#3 1#2 k, rfl⟩, fun h => if_pos h, fun h => ?_⟩⟩
  · exact ⟨_, if_neg h, rfl, memRead_exchangeA _ hd (erasable_ne h), hz s.a,
      (writesOnly_beginExecute s (by simp)).exchangeA (by simp) _ hp⟩
  · exact ⟨_, if_neg h, rfl, memRead_exchangeL _ hd (erasable_ne h), hz s.l,
      (writesOnly_beginExecute s (by simp)).exchangeL (by simp) _ hp⟩
  · exact ⟨_, if_neg h, rfl, memRead_exchangeQ _ hd (erasable_ne h), hz s.q,
      (writesOnly_beginExecute s (by simp)).exchangeQ (by simp) _ hp⟩

/-! ## DXCH (R239) -/

/-- An exchange of L with an erasable cell changes L and this cell alone. -/
theorem memRead_exchangeL_other (s : State) {d f : W12} (hlow : 0o60 < f.toNat)
    (hhigh : f.toNat ≤ 0o1777) (h : resolve s d ≠ resolve s f) (hl : d ≠ 1#12) :
    memRead (exchangeL s f) d = memRead s d :=
  (memRead_registers _ _ _ _ _ (fun _ => rfl) (absurd · hl) (fun _ => rfl) (fun _ => rfl)).trans
    (memRead_wr16_other s _ hlow hhigh h)

/-- An exchange of A with an erasable cell changes A and this cell alone. -/
theorem memRead_exchangeA_other (s : State) {d f : W12} (hlow : 0o60 < f.toNat)
    (hhigh : f.toNat ≤ 0o1777) (h : resolve s d ≠ resolve s f) (ha : d ≠ 0#12) :
    memRead (exchangeA s f) d = memRead s d :=
  (memRead_registers _ _ _ _ _ (absurd · ha) (fun _ => rfl) (fun _ => rfl) (fun _ => rfl)).trans
    (memRead_wr16_other s _ hlow hhigh h)

/-- The exchange of L leaves A, but for that with A. -/
theorem exchangeL_a (s : State) {d : W12} (h : d ≠ 0#12) : (exchangeL s d).a = s.a :=
  wr16_a_of_ne s s.l h

/-- The next state of DXCH, where the second word is at `d`: the store of the second exchange takes
the A of the start. -/
def dxchResult (s : State) (d : W12) : State :=
  let s2 := exchangeL (beginExecute s) d
  { wr16 s2 (d - 1#12) s.a with a := rd16 s2 (d - 1#12) }

/-- The two exchanges: the first leaves A for the second. -/
theorem dxchResult_eq (s : State) {d : W12} (h : d ≠ 0#12) :
    dxchResult s d = exchangeA (exchangeL (beginExecute s) d) (d - 1#12) := by
  rw [exchangeA, exchangeL_a _ h]
  rfl

theorem exec_dxch {f : W10} (s : State) (h0 : f ≠ 0#10) (h1 : f ≠ 1#10) :
    exec (.dxch f) s = .next (dxchResult s (erasable f)) := by
  rw [dxchResult_eq s (erasable_ne h0)]
  exact (if_neg h0).trans (if_neg h1)

/-- L is exchanged once, where the first word is not L itself. -/
theorem dxchResult_l (s : State) {d : W12} (h : d ≠ 2#12) :
    (dxchResult s d).l = rd16 (beginExecute s) d :=
  wr16_l_of_ne (exchangeL (beginExecute s) d) s.a (by bv_omega)

/-- The next instruction follows, where neither word is Z. -/
theorem dxchResult_z (s : State) {d : W12} (h5 : d ≠ 5#12) (h6 : d ≠ 6#12) :
    (dxchResult s d).z = s.z + 1#12 :=
  (wr16_z_of_ne (exchangeL (beginExecute s) d) s.a (by bv_omega)).trans
    (wr16_z_of_ne (beginExecute s) s.l h5)

/-- The frame of the two exchanges: the first store moves no place that the second one writes. -/
theorem writesOnly_dxchResult (s : State) {d : W12} (h : d ≠ 0#12) :
    WritesOnly s (dxchResult s d)
      ([.reg 0, .reg 1, .reg 5] ++ storedPlaces s d ++ storedPlaces s (d - 1#12)) := by
  have hfirst : storedPlaces (exchangeL (beginExecute s) d) (d - 1#12) =
      storedPlaces s (d - 1#12) :=
    (storedPlaces_wr16 (beginExecute s) s.l (by bv_omega)).trans (storedPlaces_beginExecute s _)
  rw [dxchResult_eq s h]
  exact ((writesOnly_beginExecute s (by simp)).exchangeL (by simp) d
    (storedPlaces_beginExecute s d)).exchangeA (by simp) _ hfirst

/-! ### A pair in memory -/

section Memory

variable (s : State) {d : W12} (hlow : 0o61 < d.toNat) (hhigh : d.toNat ≤ 0o1777)
include hlow hhigh

/-- The second word is not reached by the second exchange. -/
theorem memRead_dxchResult_second :
    memRead (dxchResult s d) d = (overflowCorrect s.l).setWidth 16 := by
  have hne := resolve_ne_of_succ (exchangeL (beginExecute s) d) (d := d) (f := d - 1#12)
    (by bv_omega) hhigh (by bv_omega)
  rw [dxchResult_eq s (by bv_omega),
    memRead_exchangeA_other _ (by bv_omega) (by bv_omega) hne (by bv_omega),
    memRead_exchangeL _ hhigh (by bv_omega), readBack16_of_ram _ (by omega) hhigh, beginExecute_l]

theorem memRead_dxchResult_first :
    memRead (dxchResult s d) (d - 1#12) = (overflowCorrect s.a).setWidth 16 := by
  rw [dxchResult_eq s (by bv_omega), memRead_exchangeA _ (by bv_omega) (by bv_omega),
    readBack16_of_ram _ (by bv_omega) (by bv_omega), exchangeL_a _ (by bv_omega), beginExecute_a]

/-- The first word is not reached by the first exchange. -/
theorem dxchResult_a_of_memory : (dxchResult s d).a = rd16 s (d - 1#12) := by
  have hne := (resolve_ne_of_succ (beginExecute s) (d := d) (f := d - 1#12)
    (by bv_omega) hhigh (by bv_omega)).symm
  have hread := memRead_exchangeL_other (beginExecute s) (by omega) hhigh hne (by bv_omega)
  exact (rd16_congr hread).trans (rd16_beginExecute s (by bv_omega))

end Memory

/-! ### The pairs with Z in them -/

theorem wr16_to_fb (s : State) (v : W16) : wr16 s 4#12 v = writeFB s (overflowCorrect v) :=
  congrArg (writeFB s) (BitVec.setWidth_setWidth_of_le _ (by decide))

theorem wr16_to_z (s : State) (v : W16) :
    wr16 s 5#12 v = { s with z := (overflowCorrect v).setWidth 12 } :=
  congrArg (fun z => { s with z := z }) (BitVec.setWidth_setWidth_of_le _ (by decide))

theorem wr16_to_bb (s : State) (v : W16) : wr16 s 6#12 v = writeBB s (overflowCorrect v) :=
  congrArg (writeBB s) (BitVec.setWidth_setWidth_of_le _ (by decide))

theorem rd16_of_z (s : State) : rd16 s 5#12 = signExtend (s.z.setWidth 15) :=
  congrArg signExtend (BitVec.setWidth_setWidth_of_le _ (by decide))

/-- The pair FB, Z: L goes to Z and A to FB. -/
theorem dxchResult_five (s : State) :
    (dxchResult s 5#12).z = (overflowCorrect s.l).setWidth 12 ∧
      (dxchResult s 5#12).fb = overflowCorrect s.a &&& 0o76000#15 ∧
      (dxchResult s 5#12).l = signExtend ((s.z + 1#12).setWidth 15) := by
  have hfirst : (5#12 - 1#12 : W12) = 4#12 := by decide
  simp [dxchResult, exchangeL, hfirst, wr16_to_z, wr16_to_fb, rd16_of_z]

/-- The pair Z, BB: L goes to BB and A to Z. -/
theorem dxchResult_six (s : State) :
    (dxchResult s 6#12).z = (overflowCorrect s.a).setWidth 12 ∧
      (dxchResult s 6#12).bb = overflowCorrect s.l &&& 0o76007#15 ∧
      (dxchResult s 6#12).a = signExtend ((s.z + 1#12).setWidth 15) := by
  have hfirst : (6#12 - 1#12 : W12) = 5#12 := by decide
  simp [dxchResult, exchangeL, hfirst, wr16_to_z, wr16_to_bb, rd16_of_z]

/-- Settles O29: fields 0 and 1 are branches of their own, every other field is the two exchanges. -/
theorem dxchExchangesPair : Obligations.DxchExchangesPair := by
  unfold Obligations.DxchExchangesPair
  intro f s
  refine ⟨⟨rfl, wordF10_toNat 5#3 1#2 f, rfl⟩, fun h => if_pos h, fun h => ?_, fun h => ?_⟩
  · rw [h]; rfl
  have h0 : f ≠ 0#10 := by bv_omega
  have h1 : f ≠ 1#10 := by bv_omega
  have hd := erasable_le f
  refine ⟨exec_dxch s h0 h1, fun h2 => dxchResult_l s (erasable_ne h2), fun h2 => ?_,
    fun hram => ?_, fun h5 => ?_, fun h6 => ?_, writesOnly_dxchResult s (erasable_ne h0)⟩
  · subst h2
    exact ⟨rfl, rfl, rfl⟩
  · have hlow : 0o61 < (erasable f).toNat := by unfold erasable; bv_omega
    exact ⟨memRead_dxchResult_second s hlow hd, memRead_dxchResult_first s hlow hd,
      dxchResult_z s (by bv_omega) (by bv_omega), dxchResult_a_of_memory s hlow hd,
      (dxchResult_l s (by bv_omega)).trans (rd16_beginExecute s (by bv_omega))⟩
  · subst h5
    exact dxchResult_five s
  · subst h6
    exact dxchResult_six s

end Sys2Proof.Machine

/-! SUPPORT. Arithmetic and logic (spec/45_arithmetic_logic.md R260 to R270): what each instruction
puts in A, L and its location, and the two stores of DAS. -/

namespace Sys2Proof.Machine

/-! ## AD and MASK (R260, R264) -/

/-- MASK, its two operands told apart; the four writes before it change neither A, L nor Q. -/
theorem exec_mask (k : W12) (s : State) :
    exec (.mask k) s = .next { beginExecute s with
      a := if k.toNat ≤ 2 then s.a &&& memRead s k
        else signExtend (overflowCorrect s.a &&& (memRead (beginExecute s) k).setWidth 15) } := by
  simp only [exec, execMask, isWide, decide_eq_true_iff, memWord, beginExecute_a]
  split
  next h => rw [memRead_beginExecute s (by bv_omega)]
  next => rfl

/-- Settles O30: both write A alone. -/
theorem accumulatorArithmetic : Obligations.AccumulatorArithmetic := by
  unfold Obligations.AccumulatorArithmetic
  exact fun k s =>
    ⟨⟨⟨rfl, wordF12_toNat 6#3 k, rfl⟩, _, rfl, rfl, rfl, writesOnly_a s _⟩,
      ⟨⟨rfl, wordF12_toNat 7#3 k, rfl⟩, _, exec_mask k s, rfl, rfl, writesOnly_a s _⟩⟩

/-! ## ADS and INCR (R261, R262) -/

/-- ADS stores the sum it has put in A: for A itself the store changes nothing more. -/
theorem exec_ads (k : W10) (s : State) :
    exec (.ads k) s = .next
      (let sum := add16 s.a (rd16 (beginExecute s) (erasable k))
       wr16 { beginExecute s with a := sum } (erasable k) sum) := by
  by_cases h : k = 0#10
  · rw [h]; rfl
  · simp only [exec, execAds, if_neg h, beginExecute_a]

/-- A that is stored stays, where the store is to A too. -/
theorem wr16_setA_a (s : State) (v : W16) (d : W12) : (wr16 { s with a := v } d v).a = v := by
  by_cases h : d = 0#12
  · rw [h]; rfl
  · exact wr16_a_of_ne _ v h

/-- Settles O31: each is one 16-bit store, of the sum. -/
theorem storageSums : Obligations.StorageSums := by
  unfold Obligations.StorageSums
  intro k s
  have hd := erasable_le k
  have hp := storedPlaces_beginExecute s (erasable k)
  refine ⟨⟨⟨rfl, wordF10_toNat 2#3 3#2 k, rfl⟩, _, exec_ads k s, wr16_setA_a _ _ _, ?_,
      fun h => wr16_z_of_ne _ _ (erasable_ne h), ?_⟩,
    ⟨⟨rfl, wordF10_toNat 2#3 2#2 k, rfl⟩, _, rfl, memRead_wr16 _ _ hd,
      fun h => wr16_z_of_ne _ _ (erasable_ne h), ?_⟩⟩
  · exact (memRead_wr16 _ _ hd).trans (congrArg _ (wr16_setA_a _ _ _).symm)
  · exact hp ▸ (writesOnly_a s _).wr16 _ _
  · exact hp ▸ (writesOnly_beginExecute s (by simp)).wr16 _ _

/-! ## DAS (R263) -/

/-- The next state of DAS with these sums, where the second word of the pair is at `d`. -/
def dasResult (s : State) (d : W12) (msw lsw : W16) : State :=
  wr16 (wr16 { beginExecute s with a := overflowSign msw, l := 0#16 } d (foldOverflow lsw))
    (d - 1#12) msw

/-- DAS of any pair but (A, L): both words are read before anything is written. -/
theorem exec_das {f : W10} (s : State) (h0 : f ≠ 0#10) (h1 : f ≠ 1#10) :
    exec (.das f) s = .next
      (let lsw := add16 s.l (rd16 (beginExecute s) (erasable f))
       let msw := carryOverflow (add16 s.a (rd16 (beginExecute s) (erasable f - 1#12))) lsw
       dasResult s (erasable f) msw lsw) :=
  (if_neg h0).trans (if_neg h1)

theorem writesOnly_dasResult (s : State) {d : W12} (msw lsw : W16) (h : d ≠ 0#12) :
    WritesOnly s (dasResult s d msw lsw)
      ([.reg 0, .reg 1, .reg 5] ++ storedPlaces s d ++ storedPlaces s (d - 1#12)) := by
  have hsums := writesOnly_al s (overflowSign msw) 0#16
  have hfirst := storedPlaces_wr16 { beginExecute s with a := overflowSign msw, l := 0#16 }
    (foldOverflow lsw) (d := d) (f := d - 1#12) (by bv_omega)
  rw [← storedPlaces_beginExecute s d, ← storedPlaces_beginExecute s (d - 1#12)]
  exact hfirst ▸ (hsums.wr16 d _).wr16 (d - 1#12) msw

section Registers

variable (s : State) {d : W12} (msw lsw : W16)

/-- Neither word of the pair is A. -/
theorem dasResult_a (h0 : d ≠ 0#12) (h1 : d ≠ 1#12) :
    (dasResult s d msw lsw).a = overflowSign msw :=
  (wr16_a_of_ne _ _ (by bv_omega)).trans (wr16_a_of_ne _ _ h0)

/-- L is +0, where neither word of the pair is L. -/
theorem dasResult_l (h1 : d ≠ 1#12) (h2 : d ≠ 2#12) : (dasResult s d msw lsw).l = 0#16 :=
  (wr16_l_of_ne _ _ (by bv_omega)).trans (wr16_l_of_ne _ _ h1)

/-- The next instruction follows, where neither word of the pair is Z. -/
theorem dasResult_z (h5 : d ≠ 5#12) (h6 : d ≠ 6#12) :
    (dasResult s d msw lsw).z = s.z + 1#12 :=
  (wr16_z_of_ne _ _ (by bv_omega)).trans (wr16_z_of_ne _ _ h5)

end Registers

section Memory

variable (s : State) {d : W12} (msw lsw : W16) (hlow : 0o61 < d.toNat) (hhigh : d.toNat ≤ 0o1777)
include hlow hhigh

/-- The second word is not reached by the store of the first. -/
theorem memRead_dasResult_second :
    memRead (dasResult s d msw lsw) d = (overflowCorrect lsw).setWidth 16 := by
  rw [dasResult, memRead_wr16_other _ _ (by bv_omega) (by bv_omega)
      (resolve_ne_of_succ _ (by bv_omega) hhigh (by bv_omega)),
    memRead_wr16 _ _ hhigh, readBack16_of_ram _ (by omega) hhigh, foldOverflow,
    overflowCorrect_signExtend]

theorem memRead_dasResult_first :
    memRead (dasResult s d msw lsw) (d - 1#12) = (overflowCorrect msw).setWidth 16 := by
  rw [dasResult, memRead_wr16 _ _ (by bv_omega), readBack16_of_ram _ (by bv_omega) (by bv_omega)]

end Memory

/-- Settles O32: fields 0 and 1 are branches of their own, every other field is the two stores. -/
theorem dasStoresSums : Obligations.DasStoresSums := by
  unfold Obligations.DasStoresSums
  intro f s
  refine ⟨⟨rfl, wordF10_toNat 2#3 0#2 f, rfl⟩, fun h => if_pos h, fun h => ?_, fun h => ?_⟩
  · subst h
    exact ⟨_, rfl, rfl, rfl, rfl, writesOnly_al s _ _⟩
  have h0 : f ≠ 0#10 := by bv_omega
  have h1 : f ≠ 1#10 := by bv_omega
  have hd := erasable_le f
  refine ⟨exec_das s h0 h1, dasResult_a s _ _ (erasable_ne h0) (erasable_ne h1),
    fun h2 => dasResult_l s _ _ (erasable_ne h1) (erasable_ne h2), fun hram => ?_,
    writesOnly_dasResult s _ _ (erasable_ne h0)⟩
  have hlow : 0o61 < (erasable f).toNat := by unfold erasable; bv_omega
  exact ⟨memRead_dasResult_second s _ _ hlow hd, memRead_dasResult_first s _ _ hlow hd,
    dasResult_z s _ _ (by bv_omega) (by bv_omega)⟩

/-! ## MSU (R265) -/

/-- The sum of R265 with 1 taken off where its bit 14 is set. -/
def msuDifference (sum : Nat) : Nat :=
  if sum.testBit 14 then (sum ||| 0o100000) - 1 else sum

/-- The 18 bits of the model hold the sum of two 16-bit patterns and 1. -/
theorem modularDifference_eq (ui uj : W16) :
    modularDifference ui uj = BitVec.ofNat 16 (msuDifference (ui.toNat + uj.toNat + 1)) := by
  have hsum : (ui.setWidth 18 + uj.setWidth 18 + 1#18).toNat = ui.toNat + uj.toNat + 1 := by
    bv_omega
  rw [← hsum]
  unfold modularDifference
  generalize ui.setWidth 18 + uj.setWidth 18 + 1#18 = d
  have hbit : d &&& 0o40000#18 ≠ 0#18 ↔ d.toNat.testBit 14 = true :=
    and_twoPow_ne_zero_iff (i := 14) d (by omega)
  simp only [msuDifference, hbit]
  split
  next =>
    have hor : d.toNat ||| 0o100000 = (d ||| 0o100000#18).toNat := by rw [BitVec.toNat_or]; rfl
    have hpos : 0o100000 ≤ (d ||| 0o100000#18).toNat := hor ▸ Nat.right_le_or
    rw [hor]
    generalize d ||| 0o100000#18 = e at hpos
    bv_omega
  next => rfl

/-- An operand other than A, L and Q has 15 bits. -/
theorem memRead_lt_of_not_wide (s : State) {d : W12} (h : 2 < d.toNat) :
    (memRead s d).toNat < 2 ^ 15 := by
  have hw {w : Nat} (v : BitVec w) (hle : w ≤ 15) : (v.setWidth 16).toNat < 2 ^ 15 := by
    rw [BitVec.toNat_setWidth_of_le (by omega)]
    exact Nat.lt_of_lt_of_le v.isLt (Nat.pow_le_pow_right (by omega) hle)
  unfold memRead
  cases hp : resolve s d with
  | ram bank offset => exact hw _ le_rfl
  | rom bank offset => exact hw _ le_rfl
  | reg n =>
    have hn : 2 < n := by
      unfold resolve at hp
      split_ifs at hp
      cases hp
      exact h
    match n with
    | 3 | 4 | 6 => exact hw _ le_rfl
    | 5 => exact hw _ (by omega)
    | 7 => exact Nat.two_pow_pos 15
    | k + 8 => exact hw _ le_rfl

/-- The state after MSU, where the two patterns and 1 add up to `sum`. -/
def msuResult (k : W10) (s : State) (sum : Nat) : State :=
  { beginExecute s with
    a := if k.toNat = 2 then BitVec.ofNat 16 (msuDifference sum)
      else signExtend (BitVec.ofNat 15 (msuDifference sum)) }

/-- What A takes of the difference of two patterns: all of it for Q, its 15 low bits else. -/
theorem msuResult_eq (k : W10) (s : State) (ui uj : W16) :
    msuResult k s (ui.toNat + uj.toNat + 1) = { beginExecute s with
      a := if k = 2#10 then modularDifference ui uj
        else signExtend ((modularDifference ui uj).setWidth 15) } := by
  have hlow (n : Nat) : (BitVec.ofNat 16 n).setWidth 15 = BitVec.ofNat 15 n := by bv_omega
  have hq : k = 2#10 ↔ k.toNat = 2 := by bv_omega
  simp only [modularDifference_eq, hlow, hq]
  rfl

/-- MSU of A, L or Q subtracts 16-bit patterns. -/
theorem exec_msu_register {k : W10} (s : State) (hk : k.toNat ≤ 2) :
    exec (.msu k) s = .next
      (msuResult k s (s.a.toNat + (0o177777 - (memRead s (erasable k)).toNat) + 1)) := by
  have hread : memRead (beginExecute s) (erasable k) = memRead s (erasable k) :=
    memRead_beginExecute s (erasable_ne (j := 5#10) (by bv_omega))
  have huj : 0o177777 - (memRead s (erasable k)).toNat = (~~~(memRead s (erasable k))).toNat := by
    rw [BitVec.toNat_not]
  rw [huj, msuResult_eq]
  simp only [exec, execMsu, if_pos ((isWide_erasable_iff k).2 hk), hread, beginExecute_a]

/-- MSU of any other address subtracts 15-bit patterns. -/
theorem exec_msu_word {k : W10} (s : State) (hk : 2 < k.toNat) :
    exec (.msu k) s = .next
      (msuResult k s ((overflowCorrect s.a).toNat +
        (0o77777 - (memRead (beginExecute s) (erasable k)).toNat) + 1)) := by
  have hnarrow : ¬isWide (erasable k) = true := by rw [isWide_erasable_iff]; omega
  have hui : (overflowCorrect s.a).toNat = ((overflowCorrect s.a).setWidth 16).toNat :=
    (BitVec.toNat_setWidth_of_le (by omega)).symm
  have huj : 0o77777 - (memRead (beginExecute s) (erasable k)).toNat =
      ((~~~(memWord (beginExecute s) (erasable k))).setWidth 16).toNat := by
    have hlt := memRead_lt_of_not_wide (beginExecute s) (d := erasable k)
      (by unfold erasable; bv_omega)
    rw [BitVec.toNat_setWidth_of_le (by omega), BitVec.toNat_not, memWord, BitVec.toNat_setWidth,
      Nat.mod_eq_of_lt hlt]
  rw [hui, huj, msuResult_eq]
  simp only [exec, execMsu, if_neg hnarrow, beginExecute_a]

/-- Settles O34: the two widths of the operands, and the one of the difference. -/
theorem msuSubtractsModularly : Obligations.MsuSubtractsModularly := by
  unfold Obligations.MsuSubtractsModularly
  intro k s
  refine ⟨⟨rfl, wordF10_toNat 2#3 0#2 k, rfl⟩, ?_⟩
  by_cases hk : k.toNat ≤ 2
  · simp only [if_pos hk]
    exact ⟨_, exec_msu_register s hk, rfl, writesOnly_a s _, rfl⟩
  · simp only [if_neg hk]
    exact ⟨_, exec_msu_word s (by omega), rfl, writesOnly_a s _, rfl⟩

/-! ## MP (R266) -/

/-- A zero in A gives two zeros of the product's sign. -/
theorem product_zero_onesComp (s t : Bool) {n : Nat} (hn : n < 2 ^ 14) (hn0 : n ≠ 0) :
    product (onesComp 15 s 0) (onesComp 15 t n) =
      (onesComp 15 (s ^^ t) 0, onesComp 15 (s ^^ t) 0) := by
  have hzero : isZero15 (onesComp 15 s 0) = true := by cases s <;> decide
  have hsign : onesComp 15 t n &&& 0o40000#15 = if t then 0o40000#15 else 0#15 :=
    onesComp_and_twoPow (i := 14) t hn (by omega)
  rw [product, isZero15_onesComp t hn, if_neg (by simpa using hn0), if_pos hzero, hsign]
  cases s <;> cases t <;> decide

/-- A sign-extended word has no overflow. -/
theorem ovf_signExtend (v : W15) : ovf (signExtend v) = 0#15 :=
  (overflowCorrectOfSignExtend.2 _).1 (congrArg signExtend (overflowCorrect_signExtend v))

/-- The state after MP of these corrected operands. -/
def mpResult (s : State) (op other : W15) : State :=
  { beginExecute s with
    a := signExtend (product op other).1
    l := signExtend (product op other).2 }

theorem exec_mp (k : W12) (s : State) :
    exec (.mp k) s = .next (mpResult s (overflowCorrect s.a)
      (if k.toNat ≤ 2 then overflowCorrect (memRead s k)
        else (memRead (beginExecute s) k).setWidth 15)) := by
  rw [← correctedOperand_beginExecute]
  rfl

/-- A zero operand gives +0, whatever its sign. -/
theorem mpResult_of_zero_operand (s : State) (op : W15) {other : W15} (h : isZero15 other = true) :
    (mpResult s op other).a = 0#16 ∧ (mpResult s op other).l = 0#16 := by
  have hp : product op other = (0#15, 0#15) := if_pos h
  rw [mpResult, hp]
  exact ⟨rfl, rfl⟩

/-- A zero in A gives the zero of the product's sign. -/
theorem mpResult_of_zero_a (s : State) {op other : W15} (hother : isZero15 other = false)
    (hop : isZero15 op = true) :
    let zero : W16 := if op.getLsbD 14 != other.getLsbD 14 then 0o177777#16 else 0#16
    (mpResult s op other).a = zero ∧ (mpResult s op other).l = zero := by
  obtain ⟨u, m, hm, rfl⟩ := exists_onesComp15 op
  obtain ⟨t, n, hn, rfl⟩ := exists_onesComp15 other
  obtain rfl : m = 0 := by simpa [isZero15_onesComp u hm] using hop
  have hn0 : n ≠ 0 := by simpa [isZero15_onesComp t hn] using hother
  have hzero : signExtend (onesComp 15 (u ^^ t) 0) = if u != t then 0o177777#16 else 0#16 := by
    cases u <;> cases t <;> decide
  rw [mpResult, product_zero_onesComp u t hn hn0, onesComp_sign u hm (by omega),
    onesComp_sign t hn (by omega)]
  exact ⟨hzero, hzero⟩

/-- Two operands that are no zeros give the exact product, in two words of its sign. -/
theorem mpResult_of_ne_zero (s : State) {op other : W15} (hop : isZero15 op = false)
    (hother : isZero15 other = false) :
    let t := mpResult s op other
    wordToInt (overflowCorrect t.a) * 16384 + wordToInt (overflowCorrect t.l) =
        wordToInt op * wordToInt other ∧
      (overflowCorrect t.a).getLsbD 14 = (op.getLsbD 14 != other.getLsbD 14) ∧
      (overflowCorrect t.l).getLsbD 14 = (op.getLsbD 14 != other.getLsbD 14) ∧
      ovf t.a = 0#15 ∧ ovf t.l = 0#15 := by
  obtain ⟨hexact, hupper, hlower⟩ := productIsExact op other hop hother
  simp only [mpResult, overflowCorrect_signExtend]
  exact ⟨hexact, hupper, hlower.trans hupper, ovf_signExtend _, ovf_signExtend _⟩

/-- Settles O35: the three cases of the product. -/
theorem mpMultiplies : Obligations.MpMultiplies := by
  unfold Obligations.MpMultiplies
  intro k s
  exact ⟨⟨rfl, wordF12_toNat 7#3 k, rfl⟩, _, exec_mp k s, rfl, writesOnly_al s _ _,
    mpResult_of_zero_operand s _, fun ⟨hother, hop⟩ => mpResult_of_zero_a s hother hop,
    fun ⟨hother, hop⟩ => mpResult_of_ne_zero s hop hother⟩

/-! ## AUG, DIM and SU (R268 to R270) -/

theorem isPlaceholder_iff (i : Instr) :
    isPlaceholder i = true ↔ ∃ k, i = .aug k ∨ i = .dim k ∨ i = .su k := by
  constructor
  · intro h
    cases i with
    | aug k => exact ⟨k, .inl rfl⟩
    | dim k => exact ⟨k, .inr (.inl rfl)⟩
    | su k => exact ⟨k, .inr (.inr rfl)⟩
    | _ => exact absurd h Bool.false_ne_true
  · rintro ⟨k, rfl | rfl | rfl⟩ <;> rfl

/-- Settles O36: each of the three meanings is the four writes of every instruction (R170). -/
theorem placeholdersDoNothing : Obligations.PlaceholdersDoNothing := by
  unfold Obligations.PlaceholdersDoNothing
  exact ⟨fun k _ =>
    ⟨⟨rfl, wordF10_toNat 2#3 2#2 k, rfl⟩, rfl, ⟨rfl, wordF10_toNat 2#3 3#2 k, rfl⟩, rfl,
      ⟨rfl, wordF10_toNat 6#3 0#2 k, rfl⟩, rfl⟩, isPlaceholder_iff⟩

end Sys2Proof.Machine

/-! SUPPORT. Divide (spec/46_divide.md R290): the divisors that DV refuses, and what it does with any
other. -/

namespace Sys2Proof.Machine

/-! ## DV (R290) -/

/-- The divisor may not be a half of the dividend: fields 0 and 1 name A and L. -/
theorem exec_dv_of_le_one {k : W10} (s : State) (hk : k.toNat ≤ 1) :
    exec (.dv k) s = .refused .dvDivisorInDividend :=
  if_pos (by bv_omega)

/-- The state after DV with the quotient and remainder `r`. -/
def dvResult (s : State) (r : W16 × W16) : State := { beginExecute s with a := r.1, l := r.2 }

/-- DV by any other location: A and L are the ones before the instruction, and the divisor is read
after Z is advanced. -/
theorem exec_dv_of_one_lt {k : W10} (s : State) (hk : 1 < k.toNat) :
    exec (.dv k) s = .next
      (dvResult s (divSim s.a s.l (rd16 (beginExecute s) (erasable k)))) :=
  if_neg (by bv_omega)

/-- Settles O37: the refused divisors and the others, of which each gives A and L alone. -/
theorem dvDivides : Obligations.DvDivides := by
  unfold Obligations.DvDivides
  intro k s
  exact ⟨⟨rfl, wordF10_toNat 1#3 0#2 k, rfl⟩, exec_dv_of_le_one s,
    fun hk => ⟨_, exec_dv_of_one_lt s hk, rfl, rfl, writesOnly_al s _ _⟩⟩

end Sys2Proof.Machine

/-! SUPPORT. The I/O channel instructions (spec/47_io_instructions.md R310 to R317): the 16-bit form for
the channels that are L and Q, the 15-bit form for every other, and the seven instructions. -/

namespace Sys2Proof.Machine

/-! ## The two kinds of channel (R310) -/

theorem isRegisterChannel_iff (c : W9) :
    isRegisterChannel c = true ↔ c.toNat = 1 ∨ c.toNat = 2 := by
  simp [isRegisterChannel]

/-- Channels 01 and 02 read L and Q (R81). -/
theorem ioRead_register (s : State) {c : W9} (hc : c.toNat = 1 ∨ c.toNat = 2) :
    ioRead s c.toNat = if c.toNat = 1 then s.l else s.q := by
  rcases hc with h | h <;> rw [h] <;> rfl

/-- Every other channel of an address field reads its word of the channel array (R81). -/
theorem ioRead_array (s : State) {c : W9} (hc : ¬(c.toNat = 1 ∨ c.toNat = 2)) :
    (ioRead s c.toNat).setWidth 15 = chanRead s c.toNat := by
  have hin : ¬chanSize ≤ c.toNat := Nat.not_le.2 c.isLt
  rw [ioRead, if_neg hin, if_neg (not_or.1 hc).1, if_neg (not_or.1 hc).2]
  exact BitVec.setWidth_setWidth_of_le _ (by decide)

/-! ## Reads (R311, R313, R315, R317) -/

theorem channelValue_register (s : State) {c : W9} (hc : c.toNat = 1 ∨ c.toNat = 2) :
    channelValue s c = if c.toNat = 1 then s.l else s.q := by
  rw [channelValue, if_pos ((isRegisterChannel_iff c).2 hc), ioRead_register s hc]

theorem channelValue_array (s : State) {c : W9} (hc : ¬(c.toNat = 1 ∨ c.toNat = 2)) :
    channelValue s c = signExtend (chanRead s c.toNat) := by
  rw [channelValue, if_neg (mt (isRegisterChannel_iff c).1 hc), ioRead_array s hc]

theorem channelCombine_register (s : State) (op16 : W16 → W16 → W16) (op15 : W15 → W15 → W15)
    {c : W9} (hc : c.toNat = 1 ∨ c.toNat = 2) :
    channelCombine s c op16 op15 = op16 s.a (if c.toNat = 1 then s.l else s.q) := by
  rw [channelCombine, if_pos ((isRegisterChannel_iff c).2 hc), ioRead_register s hc]

theorem channelCombine_array (s : State) (op16 : W16 → W16 → W16) (op15 : W15 → W15 → W15)
    {c : W9} (hc : ¬(c.toNat = 1 ∨ c.toNat = 2)) :
    channelCombine s c op16 op15 =
      signExtend (op15 (overflowCorrect s.a) (chanRead s c.toNat)) := by
  rw [channelCombine, if_neg (mt (isRegisterChannel_iff c).1 hc), ioRead_array s hc]

/-- Settles O38: each of the four sets A after the four writes of every instruction, and reads the
channel as it was before. -/
theorem channelInputs : Obligations.ChannelInputs := by
  unfold Obligations.ChannelInputs
  intro c s
  exact
    ⟨⟨⟨rfl, (wordF9_toNat 0#3 c).trans (Nat.zero_add _), rfl⟩, _, rfl,
      channelValue_register (beginExecute s), channelValue_array (beginExecute s), rfl,
      writesOnly_a s _⟩,
    ⟨⟨rfl, wordF9_toNat 2#3 c, rfl⟩, _, rfl, channelCombine_register (beginExecute s) _ _,
      channelCombine_array (beginExecute s) _ _, rfl, writesOnly_a s _⟩,
    ⟨⟨rfl, wordF9_toNat 4#3 c, rfl⟩, _, rfl, channelCombine_register (beginExecute s) _ _,
      channelCombine_array (beginExecute s) _ _, rfl, writesOnly_a s _⟩,
    ⟨⟨rfl, wordF9_toNat 6#3 c, rfl⟩, _, rfl, channelCombine_register (beginExecute s) _ _,
      channelCombine_array (beginExecute s) _ _, rfl, writesOnly_a s _⟩⟩

/-! ## Writes (R312, R314, R316) -/

theorem channelStore_register (s : State) {c : W9} (v : W16) (hc : c.toNat = 1 ∨ c.toNat = 2) :
    channelStore s c v = ioWrite s c.toNat v :=
  if_pos ((isRegisterChannel_iff c).2 hc)

theorem channelStore_array (s : State) {c : W9} (v : W16) (hc : ¬(c.toNat = 1 ∨ c.toNat = 2)) :
    channelStore s c v = ioWrite s c.toNat ((overflowCorrect v).setWidth 16) :=
  if_neg (mt (isRegisterChannel_iff c).1 hc)

/-- A combination on 16 bits goes to A and to L or Q as it is. -/
theorem writeCombined_register (s : State) (op16 : W16 → W16 → W16) (op15 : W15 → W15 → W15)
    {c : W9} (hc : c.toNat = 1 ∨ c.toNat = 2) :
    writeCombined s c (channelCombine s c op16 op15) =
      let v := op16 s.a (if c.toNat = 1 then s.l else s.q)
      ioWrite { s with a := v } c.toNat v := by
  rw [writeCombined, channelStore_register _ _ hc, channelCombine_register s op16 op15 hc]

/-- A combination on 15 bits is widened into A; the correction on its way to the channel undoes the
widening. -/
theorem writeCombined_array (s : State) (op16 : W16 → W16 → W16) (op15 : W15 → W15 → W15)
    {c : W9} (hc : ¬(c.toNat = 1 ∨ c.toNat = 2)) :
    writeCombined s c (channelCombine s c op16 op15) =
      let v := op15 (overflowCorrect s.a) (chanRead s c.toNat)
      ioWrite { s with a := signExtend v } c.toNat (v.setWidth 16) := by
  rw [writeCombined, channelStore_array _ _ hc, channelCombine_array s op16 op15 hc,
    overflowCorrect_signExtend]

/-- Settles O39: WRITE stores A, WAND and WOR what they leave in A, each after the four writes of
every instruction. -/
theorem channelOutputs : Obligations.ChannelOutputs := by
  unfold Obligations.ChannelOutputs
  intro c s
  exact
    ⟨⟨⟨rfl, wordF9_toNat 1#3 c, rfl⟩,
      fun hc => congrArg _ (channelStore_register (beginExecute s) s.a hc),
      fun hc => congrArg _ (channelStore_array (beginExecute s) s.a hc)⟩,
    ⟨⟨rfl, wordF9_toNat 3#3 c, rfl⟩,
      fun hc => congrArg _ (writeCombined_register (beginExecute s) _ _ hc),
      fun hc => congrArg _ (writeCombined_array (beginExecute s) _ _ hc)⟩,
    ⟨⟨rfl, wordF9_toNat 5#3 c, rfl⟩,
      fun hc => congrArg _ (writeCombined_register (beginExecute s) _ _ hc),
      fun hc => congrArg _ (writeCombined_array (beginExecute s) _ _ hc)⟩⟩

end Sys2Proof.Machine

/-! SUPPORT. Interrupts (spec/60_exceptions.md R330 to R339): what an entry does to the requests,
when a Step enters, and why a request that is not entered stays. -/

namespace Sys2Proof.Machine

/-! ## The fetch, and the overflow of A -/

@[simp] theorem fetchState_a (s : State) : (fetchState s).a = s.a := by
  rw [fetchState_fields s]
@[simp] theorem fetchState_indexValue (s : State) :
    (fetchState s).indexValue = s.indexValue := by
  rw [fetchState_fields s]
@[simp] theorem fetchState_extracode (s : State) : (fetchState s).extracode = s.extracode := by
  rw [fetchState_fields s]

/-- No overflow: bits 15 and 14 agree (R134). -/
theorem hasOverflow_eq_false_iff (v : W16) :
    hasOverflow v = false ↔ v.getLsbD 15 = v.getLsbD 14 := by
  have h := not_congr (ovf_ne_zero_iff v)
  simpa [hasOverflow, tsOverflows] using h

/-! ## The entry for a request (R336) -/

theorem tryVector_of_pending {s : State} {n : Nat} (h : firstPending s = some n) (pc0 : W12)
    (iw : W15) : tryVector s pc0 iw = some (saveInterrupted (takeRequest s n) pc0 iw) := by
  rw [tryVector, h]

theorem entryFrame_takeRequest (s : State) (n : Nat) (pc0 : W12) (iw : W15) :
    EntryFrame s (saveInterrupted (takeRequest s n) pc0 iw) pc0 iw := by
  rw [takeRequest_eq]
  exact entryFrame_saveInterrupted s _ _ _ pc0 iw

/-- The Step has just entered the handler of slot `n`. -/
def EnteredHandler (t : State) (n : Nat) : Prop :=
  t.irqLast = n ∧ t.inIsr = true ∧ t.z.toNat = 0o4000 + 4 * n

/-- An entry clears no request but the one it enters. -/
theorem entry_keepsRequests {s : State} {n m : Nat} (hn : firstPending s = some n)
    (hm : irqPending s m = true) (pc0 : W12) (iw : W15) :
    let t := saveInterrupted (takeRequest s n) pc0 iw
    irqPending t m = true ∨ EnteredHandler t m := by
  obtain ⟨h1, h2, -⟩ := (firstPending_eq_some s n).1 hn
  obtain ⟨hz, hlast, -, hothers⟩ := entry_requests s h1 h2 pc0 iw
  by_cases h : m = n
  · subst h
    exact .inr ⟨hlast, rfl, hz⟩
  · exact .inl ((hothers m h).trans hm)

/-! ## The Step that enters (R335) -/

/-- Where the fetched instruction is not EDRUPT and every condition holds, the pending request of
the lowest slot is entered. -/
theorem planStep_of_eligible {s : State} {n : Nat} (hr : s.ready = true)
    (hc : consumeDelay (stepHead s) = none) (h0 : (fetchState s).extraDelay = 0)
    (hne : ∀ k, decodedInstr (fetchState s) ≠ .edrupt k)
    (he : eligible (fetchState s) (effectiveWord (fetchState s)) = true)
    (hn : firstPending (fetchState s) = some n) :
    planStep s = .enter (saveInterrupted (takeRequest (fetchState s) n) (fetchState s).z
      (effectiveWord (fetchState s))) := by
  rw [planStep_of_fetch hr hc h0, dispatchInstr_eq _ hne, if_pos he, tryVector_of_pending hn]

/-- A Step that enters in place of an instruction has no delay to consume, and every condition of
eligibility holds at its fetch. -/
theorem planStep_enter {s t : State} (h : planStep s = .enter t) :
    consumeDelay (stepHead s) = none ∧
      eligible (fetchState s) (effectiveWord (fetchState s)) = true ∧
      ∃ n, firstPending (fetchState s) = some n ∧
        t = saveInterrupted (takeRequest (fetchState s) n) (fetchState s).z
          (effectiveWord (fetchState s)) := by
  rcases planStep_cases s with ⟨-, hp⟩ | ⟨-, u, -, hp⟩ | ⟨-, hnone, ⟨u, -, hp⟩ | ⟨-, hp⟩⟩
  · cases h.symm.trans hp
  · cases h.symm.trans hp
  · cases h.symm.trans hp
  · rw [← fetchState] at hp
    rcases dispatchInstr_cases (fetchState s) (decodedInstr (fetchState s)) with
      ⟨k, -, hrun⟩ | ⟨-, he, u, hu, henter⟩ | ⟨-, hacc⟩
    · cases h.symm.trans (hp.trans hrun)
    · cases h.symm.trans (hp.trans henter)
      exact ⟨hnone, he, tryVector_eq_some hu⟩
    · rw [hacc] at hp
      rcases accountInstr_cases (fetchState s) (decodedInstr (fetchState s)) with
        ⟨-, ha⟩ | ⟨-, -, ha⟩ | ⟨-, -, ha⟩ <;> cases h.symm.trans (hp.trans ha)

/-- Settles O44: the conditions are those of `eligible`, the scan finds the lowest slot, and the
entry is the request taken and the interrupted instruction saved. -/
theorem stepEntersLowestRequest : Obligations.StepEntersLowestRequest := by
  unfold Obligations.StepEntersLowestRequest
  intro s s1 n hr hc hs1 h0 hne hflag hen hisr hext hovf h3 h4 h6 hindex h1 h10 hn hlow
  obtain rfl : s1 = fetchState s := hs1
  have he : eligible (fetchState s) (effectiveWord (fetchState s)) = true :=
    (eligible_iff _ _).2 ⟨hflag, hen, hisr, hext, (hasOverflow_eq_false_iff _).2 hovf,
      ⟨h3, h4, h6⟩, hindex⟩
  have hp := planStep_of_eligible hr hc h0 hne he ((firstPending_eq_some _ n).2 ⟨h1, h10, hn, hlow⟩)
  obtain ⟨hz, hlast, hcleared, hothers⟩ :=
    entry_requests (fetchState s) h1 h10 (fetchState s).z (effectiveWord (fetchState s))
  obtain ⟨hzrupt, hbrupt, hset, hkept, hprefix, hextra, hflag', hpend, hframe⟩ :=
    entryFrame_takeRequest (fetchState s) n (fetchState s).z (effectiveWord (fetchState s))
  exact ⟨_, step_of_enter hp, stepReturns_of_enter hp, hz, hlast, hcleared, hothers, hzrupt, hbrupt,
    hprefix, hset, hkept.trans hen, hextra.trans (congrArg (· + 1) h0), hflag'.trans hflag, hpend,
    hframe⟩

/-- Settles O45: `planStep_enter` gives every condition at the fetch, and neither the head nor the
timers change what the conditions look at. -/
theorem interruptsAreHeldOff : Obligations.InterruptsAreHeldOff := by
  unfold Obligations.InterruptsAreHeldOff
  intro s t h
  obtain ⟨hnone, he, n, hn, rfl⟩ := planStep_enter h
  obtain ⟨hflag, hen, hisr, hext, hovf, hword, hindex⟩ := (eligible_iff _ _).1 he
  obtain ⟨h0, -⟩ := consumeDelay_none hnone
  obtain ⟨h1, h10, -⟩ := (firstPending_eq_some _ n).1 hn
  obtain ⟨hz, hlast, hcleared, -⟩ :=
    entry_requests (fetchState s) h1 h10 (fetchState s).z (effectiveWord (fetchState s))
  rw [hasOverflow_eq_false_iff] at hovf
  simp only [fetchState_pendFlag, fetchState_intEnabled, fetchState_inIsr, fetchState_extracode,
    fetchState_a, fetchState_indexValue, stepHead_extraDelay] at hflag hen hisr hext hovf hindex h0
  exact ⟨hen, hisr, hext, hindex, hflag, h0, hovf, hword, n, h1, h10, hz, hlast, hcleared⟩

/-! ## Requests stay pending (R334) -/

theorem DataEffect.irq {s t : State} (h : DataEffect s t) : t.irq = s.irq := by
  induction h with
  | begin => rfl
  | registers _ _ _ _ _ ih => exact ih
  | store _ d v ih => exact (wr16_irq _ d v).trans ih
  | channel _ k9 v ih => exact (channelStore_irq _ k9 v).trans ih
  | delay _ _ ih => exact ih

/-- No instruction clears a request, but EDRUPT the one it enters. -/
theorem exec_keepsRequests {i : Instr} {s t : State} {n : Nat} (h : exec i s = .next t)
    (hn : irqPending s n = true) : irqPending t n = true ∨ EnteredHandler t n := by
  cases exec_case h with
  | data hd => exact .inl ((irqPending_congr hd.irq n).trans hn)
  | relint | inhint | extend | index _ _ | indexTwo _ _ | resume | indexBrupt _ _ => exact .inl hn
  | edrupt k9 =>
    cases hfirst : firstPending s with
    | some m =>
      rw [vectorEdrupt_of_pending hfirst]
      exact entry_keepsRequests hfirst hn _ _
    | none =>
      rw [vectorEdrupt_of_none hfirst]
      exact .inl hn

/-- The head and the timers of a Step withdraw no request. -/
theorem fetchState_requests {s : State} {n : Nat} (h : irqPending s n = true) :
    irqPending (fetchState s) n = true :=
  (runTimers_frame (stepHead s)).requests n (stepHead_requests s n h)

/-- Settles O48, by the cases of a Step: until the fetch requests are only raised, and after it an
entry or an instruction clears none but the one entered. -/
theorem requestsStayPending : Obligations.RequestsStayPending := by
  unfold Obligations.RequestsStayPending
  intro s t n h hn
  have hf := fetchState_requests hn
  cases step_case h with
  | delay hp ht =>
    rw [consumeDelay_fields ht]
    exact .inl (stepHead_requests s n hn)
  | timerDelay hp ht => exact .inl (ht ▸ hf)
  | charge hp ht => exact .inl (ht ▸ hf)
  | enter hp ht =>
    obtain ⟨m, hm, rfl⟩ := tryVector_eq_some ht
    exact entry_keepsRequests hm hf _ _
  | run u hp ht hu =>
    rcases hu with rfl | ⟨-, rfl⟩
    · exact exec_keepsRequests ht hf
    · exact exec_keepsRequests ht hf

end Sys2Proof.Machine

/-! SUPPORT. The timer pass (spec/60_exceptions.md R346 to R351): the scaler channels, the warning
filter, and then at most one of the phases. -/

namespace Sys2Proof.Machine

/-! ## Counters (R145) -/

/-- What a counter holds after `PINC`: 0 after its greatest value, and +1 after -0. -/
def counterNext (v : W15) : W15 :=
  if v = 0o37777#15 then 0#15 else if v = 0o77777#15 then 1#15 else v + 1#15

/-- `PINC` reports overflow at the greatest value alone. -/
theorem pincWord_eq (v : W15) : pincWord v = (counterNext v, v == 0o37777#15) := by
  have hz : v + 1#15 = 0#15 ↔ v = 0o77777#15 := by bv_omega
  simp only [pincWord, counterNext, hz]
  by_cases hover : v = 0o37777#15
  · simp [hover]
  · simp only [if_neg hover, beq_false_of_ne hover]
    split <;> rfl

theorem pinc_eq (s : State) (r : Nat) :
    pinc s r =
      (setPlainReg s r (counterNext (plainReg s r)), plainReg s r == 0o37777#15) := by
  simp only [pinc, pincWord_eq]

/-- A register from 010 up reads as before where its place does. -/
theorem KeepsPlaces.plainReg {s t : State} {w : List Place} (h : KeepsPlaces s t w) {r : Nat}
    (h8 : 8 ≤ r) (hr : Place.reg r ∉ w) : plainReg t r = plainReg s r := by
  have hp : readReg t r = readReg s r := h (.reg r) hr
  rw [readReg_plain t h8, readReg_plain s h8] at hp
  bv_omega

/-- From `s` to `t` counter `r` has counted once, for one unit of extra delay, its overflow has
raised slot `n`, and no other place or request has changed. -/
structure CountsOnce (s t : State) (r n : Nat) : Prop where
  counter : plainReg t r = counterNext (plainReg s r)
  delay : t.extraDelay = s.extraDelay + 1
  requests : ∀ m, irqPending t m = (irqPending s m || (m == n && plainReg s r == 0o37777#15))
  places : KeepsPlaces s t [.reg r]

theorem raiseIrq_keepsPlaces (s : State) (n : Nat) : KeepsPlaces s (raiseIrq s n) [] :=
  keepsPlaces_of_fields (.inr (by simp)) (.inr (by simp)) (.inr (by simp)) (.inr (by simp))
    (.inr (by simp)) (.inr (by simp)) (.inr (by simp)) (by simp) (by simp) (by simp)

theorem plainReg_setPlainReg_same (s : State) {r : Nat} (v : W15) (h8 : 8 ≤ r) (h49 : r < 49) :
    plainReg (setPlainReg s r v) r = v := by
  rw [plainReg_setPlainReg s v h8 h8, if_pos ⟨rfl, h49⟩]

/-- A counter of the offset phases, or TIME3: the extra delay charged, then `PINC` (R349, R350). -/
theorem pincRaise_countsOnce (s : State) {r n : Nat} (h8 : 8 ≤ r) (h49 : r < 49) (h1 : 1 ≤ n)
    (h10 : n ≤ 10) : CountsOnce s (pincRaise (addExtraDelay s) r n) r n := by
  have hreg := plainReg_setPlainReg_same (addExtraDelay s) (counterNext (plainReg s r)) h8 h49
  have hkeep : KeepsPlaces s (setPlainReg (addExtraDelay s) r (counterNext (plainReg s r)))
      [.reg r] := setPlainReg_keeps (addExtraDelay s) _ h8
  simp only [pincRaise, pinc_eq]
  split
  next hbit =>
    have hover : plainReg s r = 0o37777#15 := eq_of_beq hbit
    exact
      { counter := (plainReg_congr (raiseIrq_file _ n) r).trans hreg
        delay := raiseIrq_extraDelay _ n
        requests := fun m => by
          rw [irqPending_raiseIrq _ m h1 h10, hover, Bool.or_comm]
          simp only [BEq.rfl, Bool.and_true]
          rfl
        places := hkeep.trans (raiseIrq_keepsPlaces _ n) }
  next hbit =>
    have hover : (plainReg s r == 0o37777#15) = false := Bool.eq_false_iff.2 hbit
    exact
      { counter := hreg
        delay := rfl
        requests := fun m => by
          rw [hover, Bool.and_false, Bool.or_false]
          rfl
        places := hkeep }

/-! ## TIME1 and its carry into TIME2 (R347, R348) -/

theorem tickTime1_of_overflow {s : State} (h : plainReg s 0o25 = 0o37777#15) :
    tickTime1 s = addExtraDelay (setPlainReg (setPlainReg (addExtraDelay s) 0o25 0#15) 0o24
      (counterNext (plainReg s 0o24))) := by
  have h1 : plainReg (addExtraDelay s) 0o25 = 0o37777#15 := h
  have h2 : plainReg (addExtraDelay (setPlainReg (addExtraDelay s) 0o25 0#15)) 0o24 =
      plainReg s 0o24 :=
    plainReg_setPlainReg (addExtraDelay s) 0#15 (n := 0o25) (m := 0o24) (by decide) (by decide)
  simp only [tickTime1, pinc_eq, h1, BEq.rfl, if_true]
  exact congrArg (fun v => setPlainReg _ 0o24 (counterNext v)) h2

theorem tickTime1_of_no_overflow {s : State} (h : plainReg s 0o25 ≠ 0o37777#15) :
    tickTime1 s = setPlainReg (addExtraDelay s) 0o25 (counterNext (plainReg s 0o25)) := by
  have h1 : (plainReg (addExtraDelay s) 0o25 == 0o37777#15) = false := beq_false_of_ne h
  simp only [tickTime1, pinc_eq, h1, Bool.false_eq_true, if_false]
  rfl

theorem tickTime1_time1 (s : State) :
    plainReg (tickTime1 s) 0o25 = counterNext (plainReg s 0o25) := by
  by_cases h : plainReg s 0o25 = 0o37777#15
  · rw [tickTime1_of_overflow h, h]
    refine (plainReg_setPlainReg _ _ (by decide) (by decide)).trans ?_
    exact plainReg_setPlainReg_same _ _ (by decide) (by decide)
  · rw [tickTime1_of_no_overflow h]
    exact plainReg_setPlainReg_same _ _ (by decide) (by decide)

theorem tickTime1_time2 (s : State) :
    plainReg (tickTime1 s) 0o24 =
      if plainReg s 0o25 = 0o37777#15 then counterNext (plainReg s 0o24) else plainReg s 0o24 := by
  split
  next h =>
    rw [tickTime1_of_overflow h]
    exact plainReg_setPlainReg_same _ _ (by decide) (by decide)
  next h =>
    rw [tickTime1_of_no_overflow h]
    exact plainReg_setPlainReg _ _ (by decide) (by decide)

theorem tickTime1_extraDelay (s : State) :
    (tickTime1 s).extraDelay = s.extraDelay + if plainReg s 0o25 = 0o37777#15 then 2 else 1 := by
  split
  next h => rw [tickTime1_of_overflow h]; rfl
  next h => rw [tickTime1_of_no_overflow h]; rfl

theorem tickTime1_irq (s : State) : (tickTime1 s).irq = s.irq := by
  by_cases h : plainReg s 0o25 = 0o37777#15
  · rw [tickTime1_of_overflow h]; rfl
  · rw [tickTime1_of_no_overflow h]; rfl

theorem tickTime1_keepsPlaces (s : State) :
    KeepsPlaces s (tickTime1 s) [.reg 0o24, .reg 0o25] := by
  have h1 (v : W15) : KeepsPlaces s (setPlainReg (addExtraDelay s) 0o25 v) [.reg 0o25] :=
    setPlainReg_keeps (addExtraDelay s) v (by decide)
  by_cases h : plainReg s 0o25 = 0o37777#15
  · rw [tickTime1_of_overflow h]
    have h2 := (h1 0#15).trans (setPlainReg_keeps (setPlainReg (addExtraDelay s) 0o25 0#15)
      (n := 0o24) (counterNext (plainReg s 0o24)) (by decide))
    exact h2.mono (by simp)
  · rw [tickTime1_of_no_overflow h]
    exact (h1 _).mono (by simp)

/-! ## The pass before its phase: the scaler channels (R346) and the warning filter (R351) -/

/-- A pass before its phase: the scaler counted, and the warning filter updated where it is due. -/
def passFiltered (s : State) : State :=
  if chanRead (scalerTick s) 4 &&& config.wfPeriodMask = 0#15 then
    warningFilterUpdate (scalerTick s) else scalerTick s

theorem scalerTick_fields (s : State) : scalerTick s = { s with chan := (scalerTick s).chan } := by
  simp only [scalerTick]
  split <;> rfl

theorem warningFilterUpdate_fields (s : State) :
    warningFilterUpdate s = { s with
      warningFilter := (warningFilterUpdate s).warningFilter
      warningGenerated := (warningFilterUpdate s).warningGenerated } := by
  unfold warningFilterUpdate
  split <;> rfl

/-- Before its phase a pass changes the channels and the warning filter, and nothing else. -/
theorem passFiltered_fields (s : State) :
    passFiltered s = { s with
      chan := (scalerTick s).chan
      warningFilter := (passFiltered s).warningFilter
      warningGenerated := (passFiltered s).warningGenerated } := by
  have ht := scalerTick_fields s
  have hu := warningFilterUpdate_fields (scalerTick s)
  unfold passFiltered
  generalize warningFilterUpdate (scalerTick s) = u at hu ⊢
  generalize scalerTick s = t at ht hu ⊢
  split
  · conv_lhs => rw [hu, ht]
  · rw [ht]

theorem passFiltered_file (s : State) : (passFiltered s).file = s.file := by
  rw [passFiltered_fields]

theorem passFiltered_irq (s : State) : (passFiltered s).irq = s.irq := by
  rw [passFiltered_fields]

theorem passFiltered_extraDelay (s : State) : (passFiltered s).extraDelay = s.extraDelay := by
  rw [passFiltered_fields]

theorem passFiltered_keepsPlaces (s : State) : KeepsPlaces s (passFiltered s) [] := by
  rw [passFiltered_fields]
  exact keepsPlaces_of_fields (.inr rfl) (.inr rfl) (.inr rfl) (.inr rfl) (.inr rfl) (.inr rfl)
    (.inr rfl) rfl rfl rfl

/-- What counts once after the first part of a pass counts once from the state before the pass. -/
theorem CountsOnce.of_passFiltered {s t : State} {r n : Nat}
    (h : CountsOnce (passFiltered s) t r n) : CountsOnce s t r n := by
  have hreg : plainReg (passFiltered s) r = plainReg s r := plainReg_congr (passFiltered_file s) r
  refine ⟨hreg ▸ h.counter, passFiltered_extraDelay s ▸ h.delay, fun m => ?_,
    (passFiltered_keepsPlaces s).trans h.places⟩
  rw [h.requests m, irqPending_congr (passFiltered_irq s) m, hreg]

/-! ## The phases of a pass (R346) -/

/-- The phases leave the channels and the warning filter. -/
theorem timerPass_quiet (s : State) : QuietFrame (passFiltered s) (timerPass s) :=
  phaseActions_quiet (scalerTick s) _

theorem timerPass_chan (s : State) : (timerPass s).chan = (scalerTick s).chan := by
  rw [(timerPass_quiet s).chan, passFiltered_fields]

theorem chanRead_timerPass (s : State) (c : Nat) :
    chanRead (timerPass s) c = chanRead (scalerTick s) c := chanRead_congr (timerPass_chan s) c

/-- The phase of a pass: bits of the new count of channel 04. -/
def passPhase (s : State) : W15 := chanRead (timerPass s) 4 &&& config.phaseMask

/-- A pass is its first part, and then the phases whose number it has. -/
theorem timerPass_eq (s : State) :
    timerPass s =
      let s2 := if passPhase s = config.phaseT1T3 then phaseTime13 (passFiltered s)
        else passFiltered s
      let s3 := if passPhase s = config.phaseT5 then phaseTime5 s2 else s2
      if passPhase s = config.phaseT4 then phaseTime4 s3 else s3 := by
  simp only [passPhase, chanRead_timerPass]
  rfl

/-! The three phases have different numbers, so that a pass has one of them at most. -/

theorem timerPass_of_phaseT1T3 {s : State} (h : passPhase s = config.phaseT1T3) :
    timerPass s = phaseTime13 (passFiltered s) := by
  rw [timerPass_eq, h]
  rfl

theorem timerPass_of_phaseT5 {s : State} (h : passPhase s = config.phaseT5) :
    timerPass s = phaseTime5 (passFiltered s) := by
  rw [timerPass_eq, h]
  rfl

theorem timerPass_of_phaseT4 {s : State} (h : passPhase s = config.phaseT4) :
    timerPass s = phaseTime4 (passFiltered s) := by
  rw [timerPass_eq, h]
  rfl

theorem timerPass_of_no_phase {s : State} (h13 : passPhase s ≠ config.phaseT1T3)
    (h5 : passPhase s ≠ config.phaseT5) (h4 : passPhase s ≠ config.phaseT4) :
    timerPass s = passFiltered s := by
  simp only [timerPass_eq, if_neg h13, if_neg h5, if_neg h4]

/-- TIME3 counts once after TIME1 and TIME2 (R349). -/
theorem phaseTime13_time3 (s : State) : CountsOnce (tickTime1 s) (phaseTime13 s) 0o26 3 :=
  pincRaise_countsOnce (tickTime1 s) (by decide) (by decide) (by decide) (by decide)

/-- Settles O53: the phase is TIME1 with its carry, and then TIME3, which leaves the other two. -/
theorem tenMillisecondPhase : Obligations.TenMillisecondPhase := by
  unfold Obligations.TenMillisecondPhase
  intro s inc t hphase t1 t2 t3
  have ht : t = phaseTime13 (passFiltered s) := timerPass_of_phaseT1T3 hphase
  have hreg := plainReg_congr (passFiltered_file s)
  have htick := tickTime1_keepsPlaces (passFiltered s)
  have h3 := phaseTime13_time3 (passFiltered s)
  have ht3 : plainReg (tickTime1 (passFiltered s)) 0o26 = t3 :=
    (htick.plainReg (by decide) (by decide)).trans (hreg _)
  have hrequests (n : Nat) : irqPending t n = (irqPending s n || (n == 3 && t3 == 0o37777#15)) := by
    rw [ht, h3.requests n, ht3, irqPending_congr (tickTime1_irq _) n,
      irqPending_congr (passFiltered_irq s) n]
  refine ⟨?_, ?_, ?_, ?_, fun hover => ?_, fun n hn => ?_, ?_, (timerPass_frame s).channels⟩
  · rw [ht, h3.places.plainReg (by decide) (by decide), tickTime1_time1, hreg]
    rfl
  · rw [ht, h3.places.plainReg (by decide) (by decide), tickTime1_time2, hreg, hreg]
    rfl
  · rw [ht, h3.counter, ht3]
    rfl
  · rw [ht, h3.delay, tickTime1_extraDelay, passFiltered_extraDelay, hreg, Nat.add_assoc]
    split <;> rfl
  · simp [hrequests, hover]
  · rcases hn with hn | hn <;> simp [hrequests, hn]
  · rw [ht]
    exact ((passFiltered_keepsPlaces s).trans htick).trans h3.places

/-- The phase of TIME5 (R350). -/
theorem timerPass_countsTime5 {s : State} (h : passPhase s = config.phaseT5) :
    CountsOnce s (timerPass s) 0o30 2 := by
  rw [timerPass_of_phaseT5 h]
  exact (pincRaise_countsOnce (passFiltered s) (by decide) (by decide) (by decide)
    (by decide)).of_passFiltered

/-- The phase of TIME4 (R350). -/
theorem timerPass_countsTime4 {s : State} (h : passPhase s = config.phaseT4) :
    CountsOnce s (timerPass s) 0o27 4 := by
  rw [timerPass_of_phaseT4 h]
  exact (pincRaise_countsOnce (passFiltered s) (by decide) (by decide) (by decide)
    (by decide)).of_passFiltered

/-- Settles O54: one counter counts once, or the pass ends with its first part. -/
theorem offsetPhases : Obligations.OffsetPhases := by
  unfold Obligations.OffsetPhases
  intro s inc t phase t5 t4
  have hchannels : KeepsChannels s t [3, 4] := (timerPass_frame s).channels
  refine ⟨fun h => ?_, fun h => ?_, fun ⟨h13, h5, h4⟩ => ?_⟩
  · have hc := timerPass_countsTime5 h
    exact ⟨hc.counter, hc.delay, hc.requests, hc.places, hchannels⟩
  · have hc := timerPass_countsTime4 h
    exact ⟨hc.counter, hc.delay, hc.requests, hc.places, hchannels⟩
  · have ht : t = passFiltered s := timerPass_of_no_phase h13 h5 h4
    refine ⟨?_, ?_, ?_, hchannels⟩
    · rw [ht, passFiltered_extraDelay]
    · rw [ht, passFiltered_irq]
    · rw [ht]
      exact passFiltered_keepsPlaces s

/-! ## The scaler channels and the warning filter (R346, R351) -/

theorem chanRead_scalerTick_of_carry {s : State}
    (h : (chanRead s 4).toNat + 1 = config.scalerLoModulus) :
    chanRead (scalerTick s) 4 = 0#15 ∧ chanRead (scalerTick s) 3 = chanRead s 3 + 1#15 := by
  have ht : scalerTick s =
      chanWrite (chanWrite s 4 0#15) 3 (chanRead (chanWrite s 4 0#15) 3 + 1#15) := if_pos h
  simp [ht, chanRead_chanWrite]

theorem chanRead_scalerTick_of_no_carry {s : State}
    (h : (chanRead s 4).toNat + 1 ≠ config.scalerLoModulus) :
    (chanRead (scalerTick s) 4).toNat = (chanRead s 4).toNat + 1 ∧
      chanRead (scalerTick s) 3 = chanRead s 3 := by
  have ht : scalerTick s = chanWrite s 4 (BitVec.ofNat 15 ((chanRead s 4).toNat + 1)) := if_neg h
  have hlt : (chanRead s 4).toNat + 1 < 2 ^ 15 := by
    have := (chanRead s 4).isLt
    have hm : config.scalerLoModulus = 2 ^ 15 := rfl
    omega
  rw [ht, chanRead_chanWrite, chanRead_chanWrite, if_pos rfl, if_neg (by decide)]
  exact ⟨Nat.mod_eq_of_lt hlt, rfl⟩

/-- The condition of a charge: the one-shot flag, or the mode bit of channel 013 (R351). -/
def WarningDue (s : State) : Prop :=
  s.warningGenerated = true ∨ (chanRead s 0o13).getLsbD 9 = true

theorem modeBit_iff (w : W15) : w &&& 0o1000#15 ≠ 0#15 ↔ w.getLsbD 9 = true := by
  have hbit : w &&& 0o1000#15 = if w.getLsbD 9 then 0o1000#15 else 0#15 :=
    BitVec.and_twoPow w 9
  rw [hbit]
  cases w.getLsbD 9 <;> decide

theorem passFiltered_of_period {s : State}
    (h : chanRead (scalerTick s) 4 &&& config.wfPeriodMask = 0#15) :
    passFiltered s = warningFilterUpdate (scalerTick s) := if_pos h

theorem passFiltered_of_no_period {s : State}
    (h : chanRead (scalerTick s) 4 &&& config.wfPeriodMask ≠ 0#15) :
    passFiltered s = scalerTick s := if_neg h

theorem warningFilterUpdate_of_due {s : State} (h : WarningDue s) :
    warningFilterUpdate s = { s with
      warningGenerated := false
      warningFilter := min (s.warningFilter + config.wfCharge) config.wfMax } :=
  if_pos (h.imp_right (modeBit_iff _).2)

theorem warningFilterUpdate_of_not_due {s : State} (h : ¬WarningDue s) :
    warningFilterUpdate s = { s with warningFilter := s.warningFilter - config.wfDischarge } :=
  if_neg fun hw => h (hw.imp_right (modeBit_iff _).1)

/-- The scaler does not touch what the warning filter looks at. -/
theorem warningDue_scalerTick (s : State) : WarningDue (scalerTick s) ↔ WarningDue s := by
  have hmode : chanRead (scalerTick s) 0o13 = chanRead s 0o13 :=
    (scalerTick_frame s).channels 0o13 (by decide)
  have hgenerated : (scalerTick s).warningGenerated = s.warningGenerated := by
    rw [scalerTick_fields]
  rw [WarningDue, WarningDue, hmode, hgenerated]

/-- Settles O55: the channels are the scaler's, the filter that of the pass before its phase. -/
theorem scalerAndWarningFilter : Obligations.ScalerAndWarningFilter := by
  unfold Obligations.ScalerAndWarningFilter
  intro s t low warned
  have hquiet : QuietFrame (passFiltered s) t := timerPass_quiet s
  have hfilter : (scalerTick s).warningFilter = s.warningFilter := by rw [scalerTick_fields]
  rw [chanRead_timerPass, chanRead_timerPass, hquiet.filter, hquiet.generated]
  refine ⟨chanRead_scalerTick_of_no_carry, chanRead_scalerTick_of_carry,
    (timerPass_frame s).channels, fun hdue => ?_, fun hdue => ?_⟩
  · rw [passFiltered_of_period hdue, ← hfilter]
    by_cases hw : WarningDue s
    · rw [warningFilterUpdate_of_due ((warningDue_scalerTick s).2 hw)]
      exact ⟨rfl, fun _ => rfl, fun hn => absurd hw hn⟩
    · have hclear : (scalerTick s).warningGenerated = false :=
        Bool.eq_false_iff.2 fun hg => hw ((warningDue_scalerTick s).1 (.inl hg))
      rw [warningFilterUpdate_of_not_due (mt (warningDue_scalerTick s).1 hw)]
      exact ⟨hclear, fun hy => absurd hy hw, fun _ => rfl⟩
  · rw [passFiltered_of_no_period hdue, scalerTick_fields]
    exact ⟨rfl, rfl⟩

end Sys2Proof.Machine

/-! SUPPORT. Reset (spec/70_reset_and_hazards.md R390) and the operations of the host besides `step`
(spec/60_exceptions.md R361 to R365). -/

namespace Sys2Proof.Machine

/-! ## Reset (R390) -/

/-- Every register is 0 at reset, but Z. -/
theorem readReg_resetWith (b : Bool) {n : Nat} (h : n ≠ 5) :
    readReg (State.resetWith b) n = 0#16 := by
  match n with
  | 0 | 1 | 2 | 3 | 4 | 6 | 7 => rfl
  | 5 => exact absurd rfl h
  | k + 8 =>
    have hfile : fileRead (State.resetWith b) k = 0#15 := by
      simp only [fileRead, State.resetWith, Vector.getElem?_replicate]
      split <;> rfl
    exact congrArg (BitVec.setWidth 16) hfile

/-- No request is pending at reset. -/
theorem irqPending_resetWith (b : Bool) (n : Nat) : irqPending (State.resetWith b) n = false := by
  cases n with
  | zero => rfl
  | succ k =>
    simp only [irqPending, State.resetWith, Vector.getElem?_replicate]
    split <;> rfl

/-- Settles O56: the stores list no cell, so that every cell holds its reset content. -/
theorem resetValues : Obligations.ResetValues := by
  unfold Obligations.ResetValues
  exact ⟨⟨_, rfl⟩, fun b => ⟨fun _ => readReg_resetWith b, rfl, fun _ _ => rfl, fun _ _ => rfl,
    fun _ => rfl, rfl, rfl, rfl, ⟨rfl, rfl, rfl⟩, rfl, rfl, irqPending_resetWith b, rfl, rfl, rfl,
    rfl, rfl, rfl, rfl, rfl, rfl⟩⟩

/-! ## The host -/

/-- A key press raises slot 5 and no other (R361). -/
theorem irqPending_keyPressed (s : State) (code n : Nat) :
    irqPending (keyPressed s code) n = (n == 5 || irqPending s n) :=
  (irqPending_congr rfl n).trans (irqPending_raiseIrq s n (by decide) (by decide))

/-- A key press stores its code in channel 015, and in no other (R361). -/
theorem chanRead_keyPressed (s : State) (code c : Nat) :
    chanRead (keyPressed s code) c = if c = 0o15 then BitVec.ofNat 15 code else chanRead s c := by
  rw [keyPressed, chanRead_chanWrite, chanRead_congr (raiseIrq_chan s 5)]

theorem keyPressed_keepsPlaces (s : State) (code : Nat) : KeepsPlaces s (keyPressed s code) [] :=
  raiseIrq_keepsPlaces s 5

theorem hostReadMemory_of_le (s : State) {address : Nat} (h : address ≤ 0o7777) :
    hostReadMemory s address = .ok (memRead s (BitVec.ofNat 12 address)) := if_pos h

theorem hostReadMemory_of_lt (s : State) {address : Nat} (h : 0o7777 < address) :
    hostReadMemory s address = .error .hostAddressOutOfRange := if_neg (by omega)

theorem hostWriteMemory_of_le (s : State) {address : Nat} (value : Nat) (h : address ≤ 0o7777) :
    hostWriteMemory s address value =
      .next (memWrite s (BitVec.ofNat 12 address) (BitVec.ofNat 16 value)) := if_pos h

theorem hostWriteMemory_of_lt (s : State) {address : Nat} (value : Nat) (h : 0o7777 < address) :
    hostWriteMemory s address value = .refused .hostAddressOutOfRange := if_neg (by omega)

/-- The signed view of the low 32 bits of the cycle counter (R365). -/
theorem getCycleCounter_eq (s : State) :
    getCycleCounter s =
      if s.cycleCounter % 4294967296 < 2147483648 then ((s.cycleCounter % 4294967296 : Nat) : Int)
      else ((s.cycleCounter % 4294967296 : Nat) : Int) - 4294967296 := by
  simp only [getCycleCounter, BitVec.toInt_eq_toNat_cond, BitVec.toNat_ofNat]
  split_ifs <;> omega

/-- Settles O60: one equation for each operation, on either side of the last address. -/
theorem hostOperations : Obligations.HostOperations := by
  unfold Obligations.HostOperations
  refine fun s => ⟨fun code => ⟨?_, ?_, fun n hn => ?_, fun c hc => ?_,
      keyPressed_keepsPlaces s code⟩,
    fun address value h => ⟨hostReadMemory_of_le s h, hostWriteMemory_of_le s value h⟩,
    fun address value h => ⟨hostReadMemory_of_lt s h, hostWriteMemory_of_lt s value h⟩,
    getCycleCounter_eq s⟩
  · simp [irqPending_keyPressed]
  · simp [chanRead_keyPressed]
  · simp [irqPending_keyPressed, hn]
  · rw [chanRead_keyPressed, if_neg (by simpa using hc)]

end Sys2Proof.Machine
